-- ==== Sys2Proof/Word.lean ====
section
/-! DEFINITION. The words of the ring controller: bytes of bus memory, 32-bit register values and counters, 64-bit bus
addresses and command words (00_scope R18, R31; 20_memory R68, R72). -/

namespace Sys2Proof

/-- One byte of bus memory (20_memory R68). -/
abbrev Byte := BitVec 8

/-- A 32-bit device register value, register offset or counter (20_memory R72, 10_state R45). -/
abbrev Word32 := BitVec 32

/-- A 64-bit bus address (20_memory R68). -/
abbrev Addr := BitVec 64

/-- A 64-bit command word (30_encoding R99). -/
abbrev CmdWord := BitVec 64

/-- A 5-bit sequencer code (10_state R41). -/
abbrev SeqCode := BitVec 5

end Sys2Proof
end

