-- ==== Sys2Proof/Config.lean ====
section
/-! DEFINITION. What an instance of the hardware fixes: the spec's constants, the parameter set with its constraints, and
the free values (00_scope section 4; 92_eei_decisions, open parameters). -/

namespace Sys2Proof.Config

/-- N_DEFAULT, the descriptor count used when the host gives none (00_scope R14). -/
def nDefault : Nat := 256

/-- TABLE_ALIGN, the alignment of the descriptor table (00_scope R15). -/
def tableAlign : Nat := 4096

/-- PAGE_SIZE, the size of one data buffer (00_scope R19). -/
def pageSize : Nat := 4096

/-- BUF_ALIGN, the alignment requested for each data buffer (00_scope R20). -/
def bufAlign : Nat := 4096

/-- ADDR_BYTES, the width of the address field (00_scope R18). -/
def addrBytes : Nat := 8

/-- BAL_MASK (00_scope R23). -/
def balMask : Word32 := 0xFFFFFFF0#32

/-- LEN_MASK (00_scope R23). -/
def lenMask : Word32 := 0xFFFFFFE0#32

/-- The bits of RXCTL outside BSIZE_FIELD (00_scope R24, 30_encoding R109). -/
def ctlKeepMask : Word32 := 0xFFFFFF80#32

/-- ACK_DONE_VALUE: the wait ends when the acknowledgment bit reads 0 (00_scope R26, 90_conflicts C1). -/
def ackDoneValue : Bool := false

/-- POLL_INTERVAL, in milliseconds (00_scope R27). -/
def pollInterval : Nat := 1

/-- MAX_ATTEMPTS (00_scope R27). -/
def maxAttempts : Nat := 1000

/-- The size of the bus address space in bytes: addresses are 64-bit (20_memory R68). -/
def busTop : Nat := 2 ^ 64

/-- A parameter set of the hardware: the OPEN parameters, with the constraints of 00_scope R16, R17, R22, R24, R25 and R28 as
proof fields, so that a set that breaks one cannot be built (00_scope R30: a model refuses to be instantiated with it).
The values after `:=` are the spec's SUGGESTED ones (95_test_vectors part 0); they carry no authority and serve tests only. -/
structure Params where
  /-- SLOT_SIZE, written S: bytes of one descriptor slot (R16). -/
  slotSize : Nat := 16
  /-- ADDR_OFF: offset of the address field in a slot (R17). -/
  addrOff : Nat := 0
  /-- OFF_BAL (R22). -/
  offBal : Word32 := 0x00#32
  /-- OFF_BAH (R22). -/
  offBah : Word32 := 0x04#32
  /-- OFF_LEN (R22). -/
  offLen : Word32 := 0x08#32
  /-- OFF_RXCTL (R22). -/
  offRxctl : Word32 := 0x0C#32
  /-- OFF_QCTL (R22). -/
  offQctl : Word32 := 0x28#32
  /-- BSIZE_CLASS, a 7-bit value (R24). -/
  bsizeClass : BitVec 7 := 4#7
  /-- EN_CMD (R25). -/
  enCmd : Word32 := 0x02000000#32
  /-- ACK_MASK (R25). -/
  ackMask : Word32 := 0x02000000#32
  /-- N_MAX (R28). -/
  nMax : Nat := 2 ^ 32 - 1
  slotSize_pos : 0 < slotSize := by decide
  slotSize_mod : slotSize % 8 = 0 := by decide
  slotSize_lt : slotSize < 2 ^ 16 := by decide
  addrOff_mod : addrOff % 8 = 0 := by decide
  addrOff_le : addrOff + 8 ≤ slotSize := by decide
  offsets_mod : [offBal, offBah, offLen, offRxctl, offQctl].all (fun o => o.toNat % 4 == 0) = true := by decide
  offsets_distinct : [offBal, offBah, offLen, offRxctl, offQctl].Nodup := by decide
  ackMask_single : (List.range 32).countP (fun k => ackMask.getLsbD k) = 1 := by decide
  nMax_ge : 256 ≤ nMax := by decide
  nMax_lt : nMax < 2 ^ 32 := by decide
  deriving DecidableEq, Repr, Inhabited

/-- The parameter set of the machine that `State.reset` describes: a constant with no body, so nothing can be proved of it but the
constraints it carries (DESIGN CHOICE, log entry 1). -/
opaque params : Params

/-- The `n`-th answer of the allocator once the list of answers in State is used up: a free value (DESIGN CHOICE, log entry 3). -/
opaque freeAlloc : Nat → Option Addr

/-- The `n`-th value a device register read returns once the list of answers in State is used up: a free value
(DESIGN CHOICE, log entry 4). -/
opaque freeRead : Nat → Word32

/-- The `n`-th value a 32-bit counter gets where the spec states none because the exact one lies outside its 32 bits: a free value
(DESIGN CHOICE, log entry 7). -/
opaque freeCount : Nat → Word32

end Sys2Proof.Config
end

