-- ==== Sys2Proof/Syntax.lean ====
section
/-! DEFINITION. The instruction set: two host commands and seventeen micro-operations, one constructor for each row of
spec/opcode_table.json (00_scope R3, 30_encoding R104). -/

namespace Sys2Proof

/-- The variant tag, a closed set of two (10_state R44). -/
inductive Role where
  /-- A receive ring, code 0. -/
  | receive
  /-- A transmit ring, code 1. -/
  | transmit
  deriving DecidableEq, Repr

/-- The instructions. The two commands are what the host submits; a micro-operation is what SEQ names, and its operands
are the block's registers (30_encoding R105). -/
inductive Instr where
  /-- Command NEW role, size (40_construction R116). -/
  | new (role : Role) (size : Nat)
  /-- Command INIT (41_binding R121). -/
  | init
  /-- Allocate the descriptor table (40_construction R117). -/
  | nAlloc
  /-- Allocate the data buffer of slot IDX (41_binding R122). -/
  | bAlloc
  /-- Write the buffer's address into the slot (41_binding R123). -/
  | bStamp
  /-- Report the slot and advance (41_binding R124). -/
  | bEmit
  /-- Step back one slot and clear its address field (41_binding R128). -/
  | uClear
  /-- Release the buffer of slot IDX (41_binding R129). -/
  | uFree
  /-- Report the allocation failure (41_binding R130). -/
  | uDone
  /-- End INIT for a transmit ring (44_tx_path R145). -/
  | tNop
  /-- Program base-address-low (42_rx_programming R132). -/
  | pBal
  /-- Program base-address-high (42_rx_programming R133). -/
  | pBah
  /-- Program the ring length (42_rx_programming R134). -/
  | pLen
  /-- Read the receive-descriptor-control register (42_rx_programming R135). -/
  | pCtlr
  /-- Write the receive-descriptor-control register (42_rx_programming R136). -/
  | pCtlw
  /-- Write the enable command (42_rx_programming R137). -/
  | pEn
  /-- Poll the queue enable/status register once (43_enable_wait R140). -/
  | wPoll
  /-- Let one poll interval pass (43_enable_wait R141). -/
  | wWait
  /-- Report the timeout (43_enable_wait R142). -/
  | wTmo
  deriving DecidableEq, Repr

end Sys2Proof
end

