-- ==== Sys2Proof/WellFormed.lean ====
section
/-! DEFINITION. Which instruction terms have an encoding: the size operand of NEW is a 32-bit field (30_encoding R99);
no other instruction has an operand of variable range. Whether a size is ACCEPTED is no matter of form (R100). -/

namespace Sys2Proof

/-- The term fits its encoding: `size` is an unsigned 32-bit number (30_encoding R99, 00_scope R28). -/
abbrev Instr.WellFormed : Instr → Prop
  | .new _ size => size < 2 ^ 32
  | _ => True

end Sys2Proof
end

