-- ==== Sys2Proof/Decode.lean ====
section
/-! DEFINITION. The encodings (30_encoding): the 64-bit command word of R99, the 5-bit SEQ codes of R104, the decoder, the
encoder written from the same tables, and the textual form of a command (R114, R115). -/

namespace Sys2Proof

/-- The word of an instruction: a command goes through the command port, a micro-operation is held in SEQ (R98, R105). -/
inductive Encoded where
  /-- A 64-bit command word (R99). -/
  | command (w : CmdWord)
  /-- A 5-bit sequencer code (R104). -/
  | micro (c : SeqCode)
  deriving DecidableEq, Repr

/-- Why a word is no instruction. -/
inductive Reject where
  /-- A command word whose opcode is 0x00 or 0x03 to 0xFF (R113). -/
  | reservedOpcode
  /-- A command word with one of bits [31:9] set (R113). -/
  | reservedBits
  /-- An INIT word with a non-zero role or size field (R99, R101). -/
  | initOperand
  /-- The SEQ code 0x00, IDLE: no micro-operation (R104). -/
  | idle
  /-- A SEQ code 0x12 to 0x1F (R104, R113). -/
  | unusedCode
  /-- A word that is wider than the instruction it is given for. -/
  | tooWide
  deriving DecidableEq, Repr

/-! ### SEQ codes (R104) -/

/-- IDLE. -/
@[simp] abbrev seqIdle : SeqCode := 0x00#5
/-- N_ALLOC. -/
@[simp] abbrev seqNAlloc : SeqCode := 0x01#5
/-- B_ALLOC. -/
@[simp] abbrev seqBAlloc : SeqCode := 0x02#5
/-- B_STAMP. -/
@[simp] abbrev seqBStamp : SeqCode := 0x03#5
/-- B_EMIT. -/
@[simp] abbrev seqBEmit : SeqCode := 0x04#5
/-- U_CLEAR. -/
@[simp] abbrev seqUClear : SeqCode := 0x05#5
/-- U_FREE. -/
@[simp] abbrev seqUFree : SeqCode := 0x06#5
/-- U_DONE. -/
@[simp] abbrev seqUDone : SeqCode := 0x07#5
/-- T_NOP. -/
@[simp] abbrev seqTNop : SeqCode := 0x08#5
/-- P_BAL. -/
@[simp] abbrev seqPBal : SeqCode := 0x09#5
/-- P_BAH. -/
@[simp] abbrev seqPBah : SeqCode := 0x0A#5
/-- P_LEN. -/
@[simp] abbrev seqPLen : SeqCode := 0x0B#5
/-- P_CTLR. -/
@[simp] abbrev seqPCtlr : SeqCode := 0x0C#5
/-- P_CTLW. -/
@[simp] abbrev seqPCtlw : SeqCode := 0x0D#5
/-- P_EN. -/
@[simp] abbrev seqPEn : SeqCode := 0x0E#5
/-- W_POLL. -/
@[simp] abbrev seqWPoll : SeqCode := 0x0F#5
/-- W_WAIT. -/
@[simp] abbrev seqWWait : SeqCode := 0x10#5
/-- W_TMO. -/
@[simp] abbrev seqWTmo : SeqCode := 0x11#5

/-- The micro-operation a SEQ code names (R104). -/
def decodeSeq (c : SeqCode) : Except Reject Instr :=
  match c.toNat with
  | 0x00 => .error .idle
  | 0x01 => .ok .nAlloc
  | 0x02 => .ok .bAlloc
  | 0x03 => .ok .bStamp
  | 0x04 => .ok .bEmit
  | 0x05 => .ok .uClear
  | 0x06 => .ok .uFree
  | 0x07 => .ok .uDone
  | 0x08 => .ok .tNop
  | 0x09 => .ok .pBal
  | 0x0A => .ok .pBah
  | 0x0B => .ok .pLen
  | 0x0C => .ok .pCtlr
  | 0x0D => .ok .pCtlw
  | 0x0E => .ok .pEn
  | 0x0F => .ok .wPoll
  | 0x10 => .ok .wWait
  | 0x11 => .ok .wTmo
  | _ => .error .unusedCode

/-! ### The command word (R99) -/

/-- Field `op`, bits [7:0]. -/
def cmdOp (w : CmdWord) : BitVec 8 := w.extractLsb' 0 8

/-- Field `role`, bit [8]. -/
def cmdRole (w : CmdWord) : BitVec 1 := w.extractLsb' 8 1

/-- Field `rsv`, bits [31:9]. -/
def cmdRsv (w : CmdWord) : BitVec 23 := w.extractLsb' 9 23

/-- Field `size`, bits [63:32]. -/
def cmdSize (w : CmdWord) : Word32 := w.extractLsb' 32 32

/-- The code of a role (10_state R44). -/
def Role.code : Role → BitVec 1
  | .receive => 0#1
  | .transmit => 1#1

/-- The role a code names: every 1-bit value names one (44_tx_path R149). -/
def roleOfCode (b : BitVec 1) : Role := if b = 1#1 then .transmit else .receive

/-- The command a word names, or why it names none (R99, R113). -/
def decodeCommand (w : CmdWord) : Except Reject Instr :=
  if cmdOp w = 0x01#8 then
    if cmdRsv w = 0#23 then .ok (.new (roleOfCode (cmdRole w)) (cmdSize w).toNat) else .error .reservedBits
  else if cmdOp w = 0x02#8 then
    if cmdRsv w = 0#23 then
      if cmdRole w = 0#1 ∧ cmdSize w = 0#32 then .ok .init else .error .initOperand
    else .error .reservedBits
  else .error .reservedOpcode

/-- The instruction of a word, whichever level it is on. -/
def decode : Encoded → Except Reject Instr
  | .command w => decodeCommand w
  | .micro c => decodeSeq c

/-- The word `{size, rsv = 0, role, op}` of R99. -/
def commandWord (size : Word32) (role : BitVec 1) (op : BitVec 8) : CmdWord :=
  size ++ 0#23 ++ role ++ op

/-- The word of an instruction, from the tables of R99 and R104. -/
def encode : Instr → Encoded
  | .new role size => .command (commandWord (BitVec.ofNat 32 size) role.code 0x01#8)
  | .init => .command (commandWord 0#32 0#1 0x02#8)
  | .nAlloc => .micro seqNAlloc
  | .bAlloc => .micro seqBAlloc
  | .bStamp => .micro seqBStamp
  | .bEmit => .micro seqBEmit
  | .uClear => .micro seqUClear
  | .uFree => .micro seqUFree
  | .uDone => .micro seqUDone
  | .tNop => .micro seqTNop
  | .pBal => .micro seqPBal
  | .pBah => .micro seqPBah
  | .pLen => .micro seqPLen
  | .pCtlr => .micro seqPCtlr
  | .pCtlw => .micro seqPCtlw
  | .pEn => .micro seqPEn
  | .wPoll => .micro seqWPoll
  | .wWait => .micro seqWWait
  | .wTmo => .micro seqWTmo

/-- The command word that CMDREG latches for a command (R100); a micro-operation has none and gives 0. -/
def encodeCommand (i : Instr) : CmdWord :=
  match encode i with
  | .command w => w
  | .micro _ => 0#64

/-- The word of a row of spec/opcode_table.json as the level it is on: a row of at most one byte is a SEQ code, a wider
one a command word (DESIGN CHOICE, log entry 14). -/
def tableWord (nbits w : Nat) : Except Reject Encoded :=
  if nbits ≤ 8 then
    if w < 2 ^ 5 then .ok (.micro (BitVec.ofNat 5 w)) else .error .tooWide
  else
    if w < 2 ^ 64 then .ok (.command (BitVec.ofNat 64 w)) else .error .tooWide

/-- The instruction the decoder reads from a row's word, numbered as spec/opcode_table.json numbers its bits. -/
def decodeTableWord (nbits w : Nat) : Option Instr :=
  match tableWord nbits w with
  | .ok e => (decode e).toOption
  | .error _ => none

/-! ### Textual form of the commands (R114, R115). The grammar's details are log entry 16. -/

/-- The pseudo-instruction NEW role with the size omitted (R115): the default size is 256. -/
def newDefault (role : Role) : Instr := .new role Config.nDefault

/-- Why a line of text is no command. -/
inductive AsmReject where
  /-- The line starts with no command name. -/
  | notACommand
  /-- NEW is followed by no role. -/
  | badRole
  /-- The size is no decimal or `0x` hexadecimal number. -/
  | badNumber
  /-- The size does not fit 32 bits. -/
  | sizeTooWide
  /-- Something stands after the command. -/
  | trailing
  deriving DecidableEq, Repr

/-- The text without its comment: `;` starts one (R114). -/
def asmCode (line : List Char) : List Char := line.takeWhile (· ≠ ';')

/-- A blank between tokens. -/
def asmBlank (c : Char) : Bool := c = ' ' || c = '\t'

/-- The tokens of a line: runs of characters that are neither blanks nor commas, and commas. -/
def asmTokens : List Char → List Char → List (List Char)
  | [], acc => if acc = [] then [] else [acc.reverse]
  | c :: cs, acc =>
    let done := if acc = [] then [] else [acc.reverse]
    if asmBlank c then done ++ asmTokens cs []
    else if c = ',' then done ++ [[',']] ++ asmTokens cs []
    else asmTokens cs (c :: acc)

/-- The digits of decimal and hexadecimal numbers, as runs of code points: first code point, how many, value of the first. Hexadecimal
digits of either case are the model's choice (DESIGN CHOICE, log entry 16). -/
def asmDigitRuns : List (Nat × Nat × Nat) := [(48, 10, 0), (65, 6, 10), (97, 6, 10)]

/-- The value of a character as a digit of a base. -/
def asmDigit (base : Nat) (c : Char) : Option Nat :=
  asmDigitRuns.findSome? fun run =>
    let value := c.toNat - run.1 + run.2.2
    if run.1 ≤ c.toNat ∧ c.toNat < run.1 + run.2.1 ∧ value < base then some value else none

/-- A decimal or `0x` hexadecimal number (R114). It holds digits only: 00_scope R31 calls an underscore a visual separator in the
spec's own notation, R114 does not say whether command text may hold one, and the model takes none (DESIGN CHOICE, log entry 16). -/
def asmNumber (text : List Char) : Option Nat :=
  let base := if text.take 2 = ['0', 'x'] then 16 else 10
  let digits := if base = 16 then text.drop 2 else text
  if digits = [] then none
  else digits.foldlM (fun n c => (asmDigit base c).map (n * base + ·)) 0

/-- The role a name stands for (R114). -/
def asmRole (t : List Char) : Option Role :=
  if t = ['R', 'X'] then some .receive else if t = ['T', 'X'] then some .transmit else none

/-- The command of a line of tokens, or none for a line that holds only a comment. -/
def assembleTokens : List (List Char) → Except AsmReject (Option Instr)
  | [] => .ok none
  | name :: rest =>
    if name = ['I', 'N', 'I', 'T'] then
      if rest = [] then .ok (some .init) else .error .trailing
    else if name = ['N', 'E', 'W'] then
      match rest with
      | [] => .error .badRole
      | r :: args =>
        match asmRole r with
        | none => .error .badRole
        | some role =>
          match args with
          | [] => .ok (some (newDefault role))
          | [_] => .error .badNumber
          | comma :: num :: more =>
            if comma = [','] then
              match asmNumber num with
              | none => .error .badNumber
              | some n =>
                if more = [] then
                  if n < 2 ^ 32 then .ok (some (.new role n)) else .error .sizeTooWide
                else .error .trailing
            else .error .trailing
    else .error .notACommand

/-- The command a line of text writes (R114, R115). -/
def assembleLine (line : List Char) : Except AsmReject (Option Instr) :=
  assembleTokens (asmTokens (asmCode line) [])

end Sys2Proof
end

