-- ==== Sys2Proof/Machine/State.lean ====
section
/-! DEFINITION. The state: the block's thirteen registers (10_state R38), the environment it touches (10_state R62 to R65),
the inputs it does not choose (00_scope R10, R13) and the parameters of the instance. Plain data throughout. -/

namespace Sys2Proof.Machine

/-- The lifecycle state FSM (10_state R39). -/
inductive Fsm where
  /-- No table exists; code 0. -/
  | empty
  /-- The table exists, no slot is bound; code 1. -/
  | constructed
  /-- Every slot has a buffer; code 2. -/
  | bound
  /-- The device acknowledged the enable command; code 3. -/
  | enabled
  deriving DecidableEq, Repr

/-- The outcome register RESULT (10_state R54); its codes 5 to 7 are never written, so no constructor has them. -/
inductive Result where
  /-- Code 0: no command has ended since reset, or a run is in progress. -/
  | none
  /-- Code 1. -/
  | ok
  /-- Code 2: the error NoMemory. -/
  | noMemory
  /-- Code 3: the error TimedOut. -/
  | timedOut
  /-- Code 4: the command was not taken. -/
  | refused
  deriving DecidableEq, Repr

/-- The direction of an allocation (00_scope R21). -/
inductive Dir where
  /-- The device reads. -/
  | deviceReads
  /-- The device writes. -/
  | deviceWrites
  /-- Both. -/
  | both
  deriving DecidableEq, Repr

/-- A live allocation (10_state R64). -/
structure Allocation where
  /-- Its bus address. -/
  base : Addr
  /-- Its length in bytes. -/
  len : Nat
  /-- Its direction. -/
  dir : Dir
  deriving DecidableEq, Repr

/-- A diagnostic record (30_encoding R112). -/
inductive Event where
  /-- A slot was bound: its index and the ring's role. -/
  | slotBound (index : Word32) (role : Role)
  /-- The device did not acknowledge in time. -/
  | enableTimeout
  deriving DecidableEq, Repr

/-- An external transaction with its answer (00_scope R11, R32). -/
inductive Transaction where
  /-- A request to the allocator and its answer (20_memory R84). -/
  | alloc (bytes align : Nat) (dir : Dir) (answer : Option Addr)
  /-- A release (20_memory R86). -/
  | release (a : Addr)
  /-- An 8-byte write to bus memory (20_memory R71, R79). -/
  | memWrite (addr : Nat) (v : BitVec 64)
  /-- A register read and the device's answer (20_memory R87). -/
  | regRead (off v : Word32)
  /-- A register write (20_memory R87). -/
  | regWrite (off v : Word32)
  /-- A record handed to the event sink (20_memory R90). -/
  | emit (e : Event)
  deriving DecidableEq, Repr

/-- Bus memory as far as its contents are known (10_state R62). Every byte is one of: listed in `cells` (never 0), in one of
the runs of `zeros` (a run `(lo, hi)` holds the addresses from `lo` up to but not including `hi`, all reading 0), or of no known value.
The canonical form is `Memory.wf` of Machine/Ops.lean (log entry 6). -/
structure Memory where
  /-- The bytes known not to be 0, at strictly rising addresses. -/
  cells : List Host.Cell
  /-- The runs of bytes known to be 0, rising, with a gap between any two. -/
  zeros : List (Nat × Nat)
  deriving DecidableEq, Repr

/-- What another agent does between two steps of the controller (00_scope R11). No move releases memory: that only the block's own
`Alloc` and `Release` change the live set, although 70_reset R172 and R176 speak of another party that releases, is the model's choice
(DESIGN CHOICE, log entry 21). -/
inductive Move where
  /-- No other agent acts: the controller has the step. -/
  | quiet
  /-- The host submits a command word (30_encoding R98). -/
  | submit (w : CmdWord)
  /-- Reset is applied (70_reset R169). -/
  | reset
  /-- The device writes a byte of bus memory by DMA (10_state R62). -/
  | dma (a : Addr) (b : Byte)
  deriving DecidableEq, Repr

/-- The block's own state, exactly the thirteen entries of 10_state R38. -/
structure Block where
  /-- FSM (10_state R39). -/
  fsm : Fsm
  /-- SEQ (10_state R41). -/
  seq : SeqCode
  /-- CMDREG (10_state R43). -/
  cmdreg : CmdWord
  /-- ROLE (10_state R44). -/
  role : Role
  /-- SIZE (10_state R45). -/
  size : Word32
  /-- TBL_BASE (10_state R46). -/
  tblBase : Addr
  /-- IDX (10_state R47). -/
  idx : Word32
  /-- BUF: the entries that hold a value, by rising index (10_state R48; log entry 10). -/
  buf : List (Nat × Addr)
  /-- CTLTMP (10_state R50). -/
  ctltmp : Word32
  /-- ATT (10_state R51). -/
  att : Word32
  /-- BUSY (10_state R52). -/
  busy : Bool
  /-- PROG (10_state R53). -/
  prog : Bool
  /-- RESULT (10_state R54). -/
  result : Result
  deriving DecidableEq, Repr

/-- The environment the block touches but does not own (10_state section 6). -/
structure Env where
  /-- Bus memory (R62). -/
  mem : Memory
  /-- The allocator's live set, oldest first (R64). -/
  live : List Allocation
  /-- The event log, oldest first (R65). -/
  events : List Event
  /-- The external transactions made so far, oldest first: the model's own record (log entry 11). -/
  trace : List Transaction
  /-- Milliseconds of poll intervals that have passed (60_exceptions R163; log entry 15). -/
  waited : Nat
  deriving DecidableEq, Repr

/-- The inputs of the step, which the block does not choose (00_scope R10, R13; log entries 2 to 4 and 13). -/
structure Inputs where
  /-- The other agents' moves still to come; an empty list is quiet for ever. -/
  moves : List Move
  /-- The allocator's answers still to come. -/
  allocAnswers : List (Option Addr)
  /-- The device's answers to register reads still to come. -/
  readAnswers : List Word32
  /-- How many free values have been drawn. -/
  drawn : Nat
  deriving DecidableEq, Repr

/-- The state of the whole machine. -/
structure State where
  /-- The parameter set of the instance (00_scope section 4); no step changes it. -/
  par : Config.Params
  /-- The block. -/
  blk : Block
  /-- The environment. -/
  env : Env
  /-- The inputs. -/
  inp : Inputs
  deriving DecidableEq, Repr

/-- Why a step stops with a fault. No run from reset with an allocator that meets 20_memory R85 reaches one. -/
inductive Fault where
  /-- SEQ holds one of the codes 0x12 to 0x1F: raised by the fetch of a step (10_state R41). Safe. -/
  | unusedSeq (code : SeqCode)
  /-- A read of an entry of BUF that holds no value: raised by B_STAMP, U_FREE and the host's read of BUF (10_state R48). Safe. -/
  | bufEmpty (index : Nat)
  /-- The 8 bytes of an address field do not lie in the 64-bit bus address space: raised by B_STAMP and U_CLEAR; only a table
  that breaks 20_memory R85 (b) has such a slot (log entry 8). Safe. -/
  | slotOutside (addr : Nat)
  deriving DecidableEq, Repr

/-- Why a step is refused. -/
inductive Refusal where
  /-- An instruction without a meaning: raised by a refused arm of `exec`. Safe. -/
  | notModelled (mnemonic : String)
  /-- NEW or INIT given to `exec` while BUSY = 1: the port is not ready and the host has no Submit step at all (30_encoding R98,
  93 U1). `step` never raises it: there the submission waits (log entry 9). Safe. -/
  | portNotReady
  deriving DecidableEq, Repr

/-- The block after reset (70_reset R170). -/
def Block.reset : Block where
  fsm := .empty
  seq := seqIdle
  cmdreg := 0#64
  role := .receive
  size := 0#32
  tblBase := 0#64
  idx := 0#32
  buf := []
  ctltmp := 0#32
  att := 0#32
  busy := false
  prog := false
  result := .none

/-- The environment when the machine starts: nothing known of memory, no allocation, nothing recorded (70_reset R171 leaves it
open; log entry 12). -/
def Env.start : Env where
  mem := ⟨[], []⟩
  live := []
  events := []
  trace := []
  waited := 0

/-- No input given: every later answer is a free value and no other agent moves (log entries 2 to 4). -/
def Inputs.none : Inputs where
  moves := []
  allocAnswers := []
  readAnswers := []
  drawn := 0

/-- The machine right after reset (70_reset R170). -/
def State.reset : State where
  par := Config.params
  blk := Block.reset
  env := Env.start
  inp := Inputs.none

end Sys2Proof.Machine
end

