-- ==== Sys2Proof/Machine/Ops.lean ====
section
/-! DEFINITION. The named operations over memory, registers and collaborators: bus memory in its canonical form, the BUF file, the
seven kinds of external transaction (00_scope R32), and the error exit and the end of a run (60_exceptions R158). -/

namespace Sys2Proof.Machine

/-! ### Sparse maps: lists of (key, value) with rising keys -/

/-- The keys rise strictly. -/
abbrev sparseWf {β : Type} (l : List (Nat × β)) : Prop := l.Pairwise (fun x y => x.1 < y.1)

/-- The value at a key. -/
def sparseGet {β : Type} : List (Nat × β) → Nat → Option β
  | [], _ => none
  | (k, x) :: t, a => if k = a then some x else sparseGet t a

/-- Set the value at a key, in its place. -/
def sparseSet {β : Type} : List (Nat × β) → Nat → β → List (Nat × β)
  | [], a, v => [(a, v)]
  | (k, x) :: t, a, v =>
    if a < k then (a, v) :: (k, x) :: t
    else if a = k then (a, v) :: t
    else (k, x) :: sparseSet t a v

/-- Remove the values at the keys from `lo` up to but not including `hi`. -/
def sparseErase {β : Type} (l : List (Nat × β)) (lo hi : Nat) : List (Nat × β) :=
  l.filter (fun x => decide (x.1 < lo ∨ hi ≤ x.1))

/-! ### Runs of addresses -/

/-- The runs are not empty and rise with a gap between any two. -/
abbrev runsWf (l : List (Nat × Nat)) : Prop :=
  (∀ r ∈ l, r.1 < r.2) ∧ l.Pairwise (fun x y => x.2 < y.1)

/-- An address lies in one of the runs. -/
def runsMem (l : List (Nat × Nat)) (a : Nat) : Bool :=
  l.any (fun r => decide (r.1 ≤ a ∧ a < r.2))

/-- Add the run `(lo, hi)`, joined with every run it overlaps or touches. -/
def runsAdd : List (Nat × Nat) → Nat → Nat → List (Nat × Nat)
  | [], lo, hi => [(lo, hi)]
  | (l, h) :: t, lo, hi =>
    if hi < l then (lo, hi) :: (l, h) :: t
    else if h < lo then (l, h) :: runsAdd t lo hi
    else runsAdd t (min lo l) (max hi h)

/-- What is left of the run `(l, h)` without the addresses from `lo` up to but not including `hi`. -/
def runPieces (lo hi : Nat) (r : Nat × Nat) : List (Nat × Nat) :=
  (if r.1 < min r.2 lo then [(r.1, min r.2 lo)] else []) ++
    (if max r.1 hi < r.2 then [(max r.1 hi, r.2)] else [])

/-- Remove the addresses from `lo` up to but not including `hi`; `lo < hi`. -/
def runsRemove (l : List (Nat × Nat)) (lo hi : Nat) : List (Nat × Nat) :=
  l.flatMap (runPieces lo hi)

/-! ### Bus memory (10_state R62) -/

/-- What an address that `cells` does not list reads as: 0 in a zero run, otherwise no known value (log entry 6). -/
def Memory.unlisted (m : Memory) (a : Nat) : Option Byte :=
  if runsMem m.zeros a then some 0#8 else none

/-- The byte at an address, if its value is known. -/
def Memory.read (m : Memory) (a : Nat) : Option Byte :=
  match sparseGet m.cells a with
  | some b => some b
  | none => m.unlisted a

/-- The canonical form: cells rise strictly, lie in the bus address space, are not 0 and lie in no zero run; zero runs are canonical
and end in the address space (log entry 6). -/
abbrev Memory.wf (m : Memory) : Prop :=
  sparseWf m.cells ∧ runsWf m.zeros ∧
    (∀ c ∈ m.cells, c.1 < Config.busTop ∧ c.2 ≠ 0#8 ∧ runsMem m.zeros c.1 = false) ∧
    (∀ r ∈ m.zeros, r.2 ≤ Config.busTop)

/-- Set one byte. -/
def Memory.writeByte (m : Memory) (a : Nat) (b : Byte) : Memory :=
  if b = 0#8 then ⟨sparseErase m.cells a (a + 1), runsAdd m.zeros a (a + 1)⟩
  else ⟨sparseSet m.cells a b, runsRemove m.zeros a (a + 1)⟩

/-- Set the bytes from an address upward. -/
def Memory.writeBytes (m : Memory) (a : Nat) : List Byte → Memory
  | [] => m
  | b :: bs => Memory.writeBytes (m.writeByte a b) (a + 1) bs

/-- Byte `k` of a 64-bit value: `v[8k+7:8k]` (20_memory R71). -/
def byteOf (v : BitVec 64) (k : Nat) : Byte := v.extractLsb' (8 * k) 8

/-- The bytes of a 64-bit value, lowest address first: little-endian (20_memory R71). -/
def leBytes (v : BitVec 64) : List Byte := (List.range Config.addrBytes).map (byteOf v)

/-- Store a 64-bit value (20_memory R71). -/
def Memory.write64 (m : Memory) (a : Nat) (v : BitVec 64) : Memory := m.writeBytes a (leBytes v)

/-- Zero-fill the addresses from `lo` up to but not including `hi` (20_memory R85 c). -/
def Memory.zeroFill (m : Memory) (lo hi : Nat) : Memory :=
  if lo < hi then ⟨sparseErase m.cells lo hi, runsAdd m.zeros lo hi⟩ else m

/-! ### The BUF file (10_state R48)

BUF has SIZE entries, and a run uses an entry below SIZE only (41_binding R122). The operations check no bound: what a micro-operation
does with an entry from SIZE up is the model's choice (DESIGN CHOICE, log entry 23). -/

/-- The value entry `i` of BUF holds, if it holds one. -/
def bufGet (s : State) (i : Nat) : Option Addr := sparseGet s.blk.buf i

/-- `BUF[i] <- a`. -/
def bufSet (s : State) (i : Nat) (a : Addr) : State :=
  { s with blk := { s.blk with buf := sparseSet s.blk.buf i a } }

/-- `BUF[i] <- none`. -/
def bufClear (s : State) (i : Nat) : State :=
  { s with blk := { s.blk with buf := sparseErase s.blk.buf i (i + 1) } }

/-! ### Free values (log entry 7) -/

/-- The state after a free value is drawn where the spec states none; where `stated` holds nothing is drawn. -/
def drawUnless (stated : Prop) [Decidable stated] (s : State) : State :=
  if stated then s else { s with inp := { s.inp with drawn := s.inp.drawn + 1 } }

/-- A 32-bit counter one higher (41_binding R124, 43_enable_wait R140): both rules say that it does not wrap, so from the top value
the new one is free; `drawn` is how many free values were drawn before. -/
def countUp (c : Word32) (drawn : Nat) : Word32 :=
  if c.toNat + 1 < 2 ^ 32 then BitVec.ofNat 32 (c.toNat + 1) else Config.freeCount drawn

/-- A 32-bit counter one lower (41_binding R128): the rule has it at least 1 on entry, so from 0 the new value is free. -/
def countDown (c : Word32) (drawn : Nat) : Word32 :=
  if 1 ≤ c.toNat then BitVec.ofNat 32 (c.toNat - 1) else Config.freeCount drawn

/-! ### Sequencing -/

/-- `SEQ <- c` (00_scope R32). -/
def setSeq (c : SeqCode) (s : State) : State := { s with blk := { s.blk with seq := c } }

/-- The micro-operation SEQ names (10_state R41). -/
def fetch (s : State) : Except Reject Instr := decodeSeq s.blk.seq

/-! ### External transactions (00_scope R32) -/

/-- Record an external transaction (log entry 11). -/
def record (x : Transaction) (s : State) : State :=
  { s with env := { s.env with trace := s.env.trace ++ [x] } }

/-- The allocator's next answer: an input, or a free value once the inputs are used up (log entry 3). -/
def allocAnswer (s : State) : Option Addr :=
  match s.inp.allocAnswers with
  | r :: _ => r
  | [] => Config.freeAlloc s.inp.drawn

/-- The inputs after an answer of the allocator is taken. -/
def takeAllocAnswer (s : State) : State :=
  match s.inp.allocAnswers with
  | _ :: rest => { s with inp := { s.inp with allocAnswers := rest } }
  | [] => { s with inp := { s.inp with drawn := s.inp.drawn + 1 } }

/-- The allocator's side of an answer: on `some a` the allocation is live and its bytes are zero-filled (10_state R64, 20_memory R85 c;
bytes outside the bus address space do not exist, log entry 5). -/
def allocEffect (bytes : Nat) (dir : Dir) (r : Option Addr) (s : State) : State :=
  match r with
  | some a =>
    { s with env := { s.env with
        live := s.env.live ++ [⟨a, bytes, dir⟩]
        mem := s.env.mem.zeroFill a.toNat (min (a.toNat + bytes) Config.busTop) } }
  | none => s

/-- `Alloc(bytes, align, dir)`: the state after the transaction; its answer is `allocAnswer` of the state before (20_memory R84). R84 has
`bytes >= 1` and says nothing of a request for 0 bytes: the model makes it like any other, and on `some a` an empty allocation is live
(DESIGN CHOICE, log entry 22). -/
def alloc (bytes align : Nat) (dir : Dir) (s : State) : State :=
  record (.alloc bytes align dir (allocAnswer s)) (allocEffect bytes dir (allocAnswer s) (takeAllocAnswer s))

/-- `Release(a)` (20_memory R86). -/
def release (a : Addr) (s : State) : State :=
  record (.release a) { s with env := { s.env with live := s.env.live.filter (fun x => decide (x.base ≠ a)) } }

/-- `MemWrite(addr, 8, v)` (20_memory R71, R80). -/
def memWrite (addr : Nat) (v : BitVec 64) (s : State) : State :=
  record (.memWrite addr v) { s with env := { s.env with mem := s.env.mem.write64 addr v } }

/-- The device's next answer to a register read: an input, or a free value once the inputs are used up (log entry 4). -/
def readAnswer (s : State) : Word32 :=
  match s.inp.readAnswers with
  | v :: _ => v
  | [] => Config.freeRead s.inp.drawn

/-- The inputs after an answer of the device is taken. -/
def takeReadAnswer (s : State) : State :=
  match s.inp.readAnswers with
  | _ :: rest => { s with inp := { s.inp with readAnswers := rest } }
  | [] => { s with inp := { s.inp with drawn := s.inp.drawn + 1 } }

/-- `RegRead32(off)`: the state after the transaction; its value is `readAnswer` of the state before (20_memory R87). -/
def regRead (off : Word32) (s : State) : State :=
  record (.regRead off (readAnswer s)) (takeReadAnswer s)

/-- `RegWrite32(off, v)` (20_memory R87). -/
def regWrite (off v : Word32) (s : State) : State := record (.regWrite off v) s

/-- `Emit(e)` (20_memory R90). -/
def emit (e : Event) (s : State) : State :=
  record (.emit e) { s with env := { s.env with events := s.env.events ++ [e] } }

/-- `wait POLL_INTERVAL`: one poll interval passes and nothing else changes (43_enable_wait R141; log entry 15). -/
def waitInterval (s : State) : State :=
  { s with env := { s.env with waited := s.env.waited + Config.pollInterval } }

/-! ### The ends of a run and of a submission -/

/-- The last step of a run, and with an error code the error exit, the block's form of taking an exception: RESULT gets the
outcome, BUSY falls, the sequencer idles (60_exceptions R151 to R153, R158; 70_reset R176). -/
def finish (r : Result) (s : State) : State :=
  { s with blk := { s.blk with result := r, busy := false, seq := seqIdle } }

/-- Acceptance of a command, the block's form of returning from an error: the old RESULT is overwritten with NONE and a run
starts (30_encoding R100, 60_exceptions R159). -/
def accept (w : CmdWord) (first : SeqCode) (s : State) : State :=
  { s with blk := { s.blk with cmdreg := w, busy := true, result := .none, seq := first } }

/-- Refusal of a submission: RESULT gets REFUSED and nothing else changes (30_encoding R101). -/
def refuse (s : State) : State := { s with blk := { s.blk with result := .refused } }

end Sys2Proof.Machine
end

