-- ==== Sys2Proof/Machine/Operands.lean ====
section
/-! DEFINITION. The values the block assembles from its registers and the parameters (30_encoding R106 to R112; 00_scope R33), and the
numeric codes of its registers (30_encoding R103). Each takes the parameters it needs as arguments. -/

namespace Sys2Proof.Machine

/-- `TBL_BASE + i * S + ADDR_OFF` over the naturals (00_scope R33). -/
def slotAddrOf (base : Addr) (slotSize addrOff i : Nat) : Nat := base.toNat + i * slotSize + addrOff

/-- The bus address of the address field of slot `i` of the ring (00_scope R33). -/
def slotAddr (s : State) (i : Nat) : Nat := slotAddrOf s.blk.tblBase s.par.slotSize s.par.addrOff i

/-- The 8 bytes at an address lie in the bus address space (20_memory R68, R85 b). -/
abbrev addrFits (a : Nat) : Prop := a + Config.addrBytes ≤ Config.busTop

/-- The table's length in bytes for a count of slots, over the naturals (40_construction R117). -/
def tableBytes (size : Word32) (slotSize : Nat) : Nat := size.toNat * slotSize

/-- The base-address-low value (30_encoding R106). -/
def balValue (base : Addr) : Word32 := base.extractLsb' 0 32 &&& Config.balMask

/-- The base-address-high value (30_encoding R107). -/
def bahValue (base : Addr) : Word32 := base.extractLsb' 32 32

/-- The ring-length value: the product over the naturals, then the mask, which also drops the bits from 32 up (30_encoding R108). -/
def lenValue (size : Word32) (slotSize : Nat) : Word32 :=
  BitVec.ofNat 32 (tableBytes size slotSize &&& Config.lenMask.toNat)

/-- The receive-descriptor-control value: the size-class field replaced, every other bit as read (30_encoding R109). -/
def ctlValue (old : Word32) (bsizeClass : BitVec 7) : Word32 :=
  (old &&& Config.ctlKeepMask) ||| bsizeClass.setWidth 32

/-! ### Codes -/

/-- The code of a role as a bit (10_state R44). -/
def roleCode (r : Role) : Nat := r.code.toNat

/-- The code of FSM (10_state R39). -/
def Fsm.code : Fsm → Nat
  | .empty => 0
  | .constructed => 1
  | .bound => 2
  | .enabled => 3

/-- The code of RESULT (10_state R54). -/
def Result.code : Result → Nat
  | .none => 0
  | .ok => 1
  | .noMemory => 2
  | .timedOut => 3
  | .refused => 4

/-- A record packed in one 64-bit word: kind in [63:60], role in [32], index in [31:0] (30_encoding R112). -/
def Event.pack : Event → BitVec 64
  | .slotBound index role => 1#4 ++ 0#27 ++ role.code ++ index
  | .enableTimeout => 2#4 ++ 0#60

end Sys2Proof.Machine
end

