-- ==== Sys2Proof/Machine/Flags.lean ====
section
/-! DEFINITION. The conditions the block tests: the acknowledgment bit (30_encoding R110), the acceptance of a submission (R100), and
whether the device has been given the enable command (10_state R62). The block has no arithmetic flags (10_state R54). -/

namespace Sys2Proof.Machine

/-- The acknowledgment test on a value read from QCTL, for a given mask and ACK_DONE_VALUE (30_encoding R110). -/
def ackedWith (mask : Word32) (doneValue : Bool) (v : Word32) : Bool :=
  decide (v &&& mask ≠ 0#32) == doneValue

/-- The acknowledgment test of this instance: the bit reads 0 (00_scope R26, 30_encoding R110). -/
def acked (p : Config.Params) (v : Word32) : Bool := ackedWith p.ackMask Config.ackDoneValue v

/-- The state and operand conditions under which NEW is accepted while BUSY = 0 (30_encoding R100 a). -/
abbrev newAccepted (size : Nat) (s : State) : Prop :=
  s.blk.fsm = .empty ∧ 1 ≤ size ∧ size ≤ s.par.nMax

/-- The state condition under which INIT is accepted while BUSY = 0 (30_encoding R100 b). -/
abbrev initAccepted (s : State) : Prop := s.blk.fsm = .constructed

/-- A transaction is a write to a register. -/
def isWriteTo (off : Word32) : Transaction → Bool
  | .regWrite o _ => o == off
  | _ => false

/-- The enable command has been written at some time, so the device may use bus memory by DMA (10_state R62; the block's reset does
not change the device, 70_reset R171). -/
def deviceEnabled (s : State) : Bool := s.env.trace.any (isWriteTo s.par.offQctl)

end Sys2Proof.Machine
end

