-- ==== Sys2Proof/Machine/Binding.lean ====
section
/-! DEFINITION. Descriptor/buffer binding: command INIT, the loop B_ALLOC, B_STAMP, B_EMIT and the unwind U_CLEAR, U_FREE, U_DONE
(spec/41_binding.md). -/

namespace Sys2Proof.Machine

/-- Command INIT: its Submit transaction (R121, 30_encoding R98, R100 b, R101). -/
def execInit (s : State) : Host.Outcome State Fault Refusal :=
  if s.blk.busy then .refused .portNotReady
  else .next (
    if initAccepted s then
      let s1 := accept (encodeCommand .init) seqBAlloc s
      { s1 with blk := { s1.blk with idx := 0#32 } }
    else refuse s)

/-- B_ALLOC: allocate the data buffer of slot IDX (R122). With IDX from SIZE up, where BUF has no entry, the answer is stored like any
other (log entry 23). -/
def execBAlloc (s : State) : Host.Outcome State Fault Refusal :=
  let s1 := alloc Config.pageSize Config.bufAlign .both s
  .next (match allocAnswer s with
    | some a => setSeq seqBStamp (bufSet s1 s.blk.idx.toNat a)
    | none => if s.blk.idx = 0#32 then setSeq seqUDone s1 else setSeq seqUClear s1)

/-- B_STAMP: write the buffer's bus address, unmasked, into the slot's address field (R123). With IDX from SIZE up the entry is read like
any other (log entry 23). -/
def execBStamp (s : State) : Host.Outcome State Fault Refusal :=
  let i := s.blk.idx.toNat
  match bufGet s i with
  | none => .fault (.bufEmpty i)
  | some a =>
    if addrFits (slotAddr s i) then .next (setSeq seqBEmit (memWrite (slotAddr s i) a s))
    else .fault (.slotOutside (slotAddr s i))

/-- B_EMIT: report the slot, advance, and decide what follows; `n` is the 33-bit sum (R124). -/
def execBEmit (s : State) : Host.Outcome State Fault Refusal :=
  let n := s.blk.idx.toNat + 1
  let s1 := emit (.slotBound s.blk.idx s.blk.role) (drawUnless (n < 2 ^ 32) s)
  let s2 := { s1 with blk := { s1.blk with idx := countUp s.blk.idx s.inp.drawn } }
  .next (
    if n < s.blk.size.toNat then setSeq seqBAlloc s2
    else
      let s3 := { s2 with blk := { s2.blk with fsm := .bound } }
      match s.blk.role with
      | .receive => setSeq seqPBal s3
      | .transmit => setSeq seqTNop s3)

/-- The index U_CLEAR steps back to (R128). -/
def stepBack (s : State) : Word32 := countDown s.blk.idx s.inp.drawn

/-- U_CLEAR: step back one slot and clear its address field (R128). -/
def execUClear (s : State) : Host.Outcome State Fault Refusal :=
  let d := slotAddr s (stepBack s).toNat
  let s1 := drawUnless (1 ≤ s.blk.idx.toNat) s
  let s2 := { s1 with blk := { s1.blk with idx := stepBack s } }
  if addrFits d then .next (setSeq seqUFree (memWrite d 0#64 s2)) else .fault (.slotOutside d)

/-- U_FREE: release the buffer of slot IDX (R129). With IDX from SIZE up the entry is read and emptied like any other (log entry 23). -/
def execUFree (s : State) : Host.Outcome State Fault Refusal :=
  let i := s.blk.idx.toNat
  match bufGet s i with
  | none => .fault (.bufEmpty i)
  | some a =>
    let s1 := bufClear (release a s) i
    .next (if s.blk.idx = 0#32 then setSeq seqUDone s1 else setSeq seqUClear s1)

/-- U_DONE: report the allocation failure (R130). -/
def execUDone (s : State) : Host.Outcome State Fault Refusal := .next (finish .noMemory s)

end Sys2Proof.Machine
end

