-- ==== Sys2Proof/Machine/Construction.lean ====
section
/-! DEFINITION. Construction: command NEW and micro-operation N_ALLOC (spec/40_construction.md). -/

namespace Sys2Proof.Machine

/-- Command NEW role, size: its Submit transaction (R116, 30_encoding R98, R100 a, R101). -/
def execNew (role : Role) (size : Nat) (s : State) : Host.Outcome State Fault Refusal :=
  if s.blk.busy then .refused .portNotReady
  else .next (if newAccepted size s then accept (encodeCommand (.new role size)) seqNAlloc s else refuse s)

/-- N_ALLOC: allocate the descriptor table (R117). With size 0 in CMDREG, which no accepted NEW leaves there (30_encoding R100), the
request is for 0 bytes (log entry 22). -/
def execNAlloc (s : State) : Host.Outcome State Fault Refusal :=
  let size := cmdSize s.blk.cmdreg
  let role := roleOfCode (cmdRole s.blk.cmdreg)
  let s1 := alloc (tableBytes size s.par.slotSize) Config.tableAlign .both s
  .next (match allocAnswer s with
    | some a =>
      finish .ok { s1 with blk := { s1.blk with tblBase := a, size := size, role := role, fsm := .constructed } }
    | none => finish .noMemory s1)

end Sys2Proof.Machine
end

