-- ==== Sys2Proof/Machine/EnableWait.lean ====
section
/-! DEFINITION. The enable acknowledgment wait: W_POLL, W_WAIT, W_TMO (spec/43_enable_wait.md). -/

namespace Sys2Proof.Machine

/-- W_POLL: read the queue enable/status register once and test the acknowledgment bit (R140). -/
def execWPoll (s : State) : Host.Outcome State Fault Refusal :=
  let s1 := regRead s.par.offQctl s
  let s2 := drawUnless (s.blk.att.toNat + 1 < 2 ^ 32) s1
  let s3 := { s2 with blk := { s2.blk with att := countUp s.blk.att s1.inp.drawn } }
  .next (
    if acked s.par (readAnswer s) then finish .ok { s3 with blk := { s3.blk with fsm := .enabled } }
    else setSeq seqWWait s3)

/-- W_WAIT: let one poll interval pass, then poll again or give up (R141). -/
def execWWait (s : State) : Host.Outcome State Fault Refusal :=
  let s1 := waitInterval s
  .next (if s.blk.att.toNat < Config.maxAttempts then setSeq seqWPoll s1 else setSeq seqWTmo s1)

/-- W_TMO: report that the device did not acknowledge (R142). -/
def execWTmo (s : State) : Host.Outcome State Fault Refusal :=
  .next (finish .timedOut (emit .enableTimeout s))

end Sys2Proof.Machine
end

