-- ==== Sys2Proof/Machine/RxProgram.lean ====
section
/-! DEFINITION. Receive-path register programming: P_BAL, P_BAH, P_LEN, P_CTLR, P_CTLW, P_EN (spec/42_rx_programming.md). -/

namespace Sys2Proof.Machine

/-- P_BAL: program base-address-low (R132). -/
def execPBal (s : State) : Host.Outcome State Fault Refusal :=
  .next (setSeq seqPBah (regWrite s.par.offBal (balValue s.blk.tblBase) s))

/-- P_BAH: program base-address-high (R133). -/
def execPBah (s : State) : Host.Outcome State Fault Refusal :=
  .next (setSeq seqPLen (regWrite s.par.offBah (bahValue s.blk.tblBase) s))

/-- P_LEN: program the ring length (R134). -/
def execPLen (s : State) : Host.Outcome State Fault Refusal :=
  .next (setSeq seqPCtlr (regWrite s.par.offLen (lenValue s.blk.size s.par.slotSize) s))

/-- P_CTLR: read the receive-descriptor-control register (R135). -/
def execPCtlr (s : State) : Host.Outcome State Fault Refusal :=
  let s1 := regRead s.par.offRxctl s
  .next (setSeq seqPCtlw { s1 with blk := { s1.blk with ctltmp := readAnswer s } })

/-- P_CTLW: write the receive-descriptor-control register with the buffer-size class (R136). -/
def execPCtlw (s : State) : Host.Outcome State Fault Refusal :=
  .next (setSeq seqPEn (regWrite s.par.offRxctl (ctlValue s.blk.ctltmp s.par.bsizeClass) s))

/-- P_EN: write the enable command (R137). -/
def execPEn (s : State) : Host.Outcome State Fault Refusal :=
  let s1 := regWrite s.par.offQctl s.par.enCmd s
  .next (setSeq seqWPoll { s1 with blk := { s1.blk with prog := true, att := 0#32 } })

end Sys2Proof.Machine
end

