-- ==== Sys2Proof/Machine/TxPath.lean ====
section
/-! DEFINITION. The transmit path: T_NOP (spec/44_tx_path.md). TX_ENABLE_PRESENT is false (00_scope R29): there is no other
transmit step. -/

namespace Sys2Proof.Machine

/-- T_NOP: end INIT for a transmit ring without programming the device (R145). -/
def execTNop (s : State) : Host.Outcome State Fault Refusal := .next (finish .ok s)

end Sys2Proof.Machine
end

