-- ==== Sys2Proof/Machine/Dispatch.lean ====
section
/-! DEFINITION. The dispatch: one arm for each instruction, in the order of spec/opcode_table.json. -/

namespace Sys2Proof.Machine

def exec (i : Instr) (s : State) : Host.Outcome State Fault Refusal :=
  match i with
  | .new role size => Sys2Proof.Machine.execNew role size s
  | .init => Sys2Proof.Machine.execInit s
  | .nAlloc => Sys2Proof.Machine.execNAlloc s
  | .bAlloc => Sys2Proof.Machine.execBAlloc s
  | .bStamp => Sys2Proof.Machine.execBStamp s
  | .bEmit => Sys2Proof.Machine.execBEmit s
  | .uClear => Sys2Proof.Machine.execUClear s
  | .uFree => Sys2Proof.Machine.execUFree s
  | .uDone => Sys2Proof.Machine.execUDone s
  | .tNop => Sys2Proof.Machine.execTNop s
  | .pBal => Sys2Proof.Machine.execPBal s
  | .pBah => Sys2Proof.Machine.execPBah s
  | .pLen => Sys2Proof.Machine.execPLen s
  | .pCtlr => Sys2Proof.Machine.execPCtlr s
  | .pCtlw => Sys2Proof.Machine.execPCtlw s
  | .pEn => Sys2Proof.Machine.execPEn s
  | .wPoll => Sys2Proof.Machine.execWPoll s
  | .wWait => Sys2Proof.Machine.execWWait s
  | .wTmo => Sys2Proof.Machine.execWTmo s

end Sys2Proof.Machine
end

