-- ==== Sys2Proof/Machine/Agents.lean ====
section
/-! DEFINITION. The moves of the agents (00_scope R10, R11): the controller's step, the host's submission and reset, the device's DMA
writes, and which of them is next (log entry 2). -/

namespace Sys2Proof.Machine

/-- The controller's step: the micro-operation SEQ names; in IDLE it has none and nothing changes; an unused code faults
(10_state R41). -/
def controllerMove (s : State) : Host.Outcome State Fault Refusal :=
  match fetch s with
  | .ok i => exec i s
  | .error .idle => .next s
  | .error _ => .fault (.unusedSeq s.blk.seq)

/-- The host's Submit of a word, the port being ready: the command it names runs; a word that names none is refused
(30_encoding R98, R101, R113). -/
def submitMove (w : CmdWord) (s : State) : Host.Outcome State Fault Refusal :=
  match decodeCommand w with
  | .ok i => exec i s
  | .error _ => .next (refuse s)

/-- Reset: every register of the block at its reset value, the environment unchanged (70_reset R169, R170, R171). -/
def resetMove (s : State) : State := { s with blk := Block.reset }

/-- A DMA write by the device: it happens once the enable command has been written; before that the device has no such move and
nothing changes (10_state R62; log entry 17). -/
def dmaMove (a : Addr) (b : Byte) (s : State) : State :=
  if deviceEnabled s then { s with env := { s.env with mem := s.env.mem.writeByte a.toNat b } } else s

/-- The state with the moves still to come. -/
def withMoves (ms : List Move) (s : State) : State := { s with inp := { s.inp with moves := ms } }

/-- The next move. A submission waits at the head of the list while BUSY = 1 and the controller has the step (30_encoding R98). -/
def nextMove (s : State) : Host.Outcome State Fault Refusal :=
  match s.inp.moves with
  | [] => controllerMove s
  | .quiet :: rest => controllerMove (withMoves rest s)
  | .submit w :: rest => if s.blk.busy then controllerMove s else submitMove w (withMoves rest s)
  | .reset :: rest => .next (resetMove (withMoves rest s))
  | .dma a b :: rest => .next (dmaMove a b (withMoves rest s))

end Sys2Proof.Machine
end

