-- ==== Sys2Proof/Machine/Step.lean ====
section
/-! DEFINITION. One step of the machine, and how an instruction is placed to be run by the next step (log entry 13). -/

namespace Sys2Proof.Machine

/-- One step: the next agent's move (00_scope R11). -/
def step (s : State) : Host.Outcome State Fault Refusal := nextMove s

/-- The state in which the next step runs the instruction of a word of spec/opcode_table.json: a SEQ code is put into SEQ with
BUSY = 1 (10_state R42) and the controller gets the next step; a command word becomes the host's next submission, with the
port ready (log entries 13 and 14). -/
def State.withFetchWord (s : State) (nbits w : Nat) : State :=
  match tableWord nbits w with
  | .ok (.micro c) =>
    { s with
      blk := { s.blk with seq := c, busy := true }
      inp := { s.inp with moves := .quiet :: s.inp.moves } }
  | .ok (.command w) =>
    { s with
      blk := { s.blk with seq := seqIdle, busy := false }
      inp := { s.inp with moves := .submit w :: s.inp.moves } }
  | .error _ => s

end Sys2Proof.Machine
end

