-- ==== Sys2Proof/Machine/View.lean ====
section
/-! DEFINITION. The host's read view (10_state R55, 30_encoding R103): every readable register as an unsigned number, without
side effect. CMDREG and CTLTMP are not in it. -/

namespace Sys2Proof.Machine

/-- What the host reads, each register as the number of its code (30_encoding R103). -/
structure HostView where
  /-- FSM. -/
  fsm : Nat
  /-- SEQ. -/
  seq : Nat
  /-- ROLE. -/
  role : Nat
  /-- SIZE. -/
  size : Nat
  /-- TBL_BASE. -/
  tblBase : Nat
  /-- IDX. -/
  idx : Nat
  /-- ATT. -/
  att : Nat
  /-- BUSY. -/
  busy : Nat
  /-- PROG. -/
  prog : Nat
  /-- RESULT. -/
  result : Nat
  deriving DecidableEq, Repr

/-- The host's read of the registers (10_state R55). -/
def hostView (s : State) : HostView where
  fsm := s.blk.fsm.code
  seq := s.blk.seq.toNat
  role := roleCode s.blk.role
  size := s.blk.size.toNat
  tblBase := s.blk.tblBase.toNat
  idx := s.blk.idx.toNat
  att := s.blk.att.toNat
  busy := s.blk.busy.toNat
  prog := s.blk.prog.toNat
  result := s.blk.result.code

/-- The host's read of BUF[i], defined only for `i < SIZE` and an entry that holds a value (30_encoding R103, 10_state R48); elsewhere it
faults (log entry 10). -/
def hostReadBuf (s : State) (i : Nat) : Except Fault Addr :=
  if i < s.blk.size.toNat then
    match bufGet s i with
    | some a => .ok a
    | none => .error (.bufEmpty i)
  else .error (.bufEmpty i)

end Sys2Proof.Machine
end

