-- ==== Sys2Proof/Safety.lean ====
section
/-! DEFINITION. What the claims call a good state and a good environment: the invariants of 10_state R42, R45 to R54, R67, the ownership
and the table contents of 41_binding R126, and the allocator's obligations of 20_memory R85 as a premise. -/

namespace Sys2Proof.Safety

open Sys2Proof.Machine

/-! ### Forms of the data -/

/-- Memory and the BUF file are in their canonical forms. -/
def Canonical (s : State) : Prop := s.env.mem.wf ∧ sparseWf s.blk.buf

/-- BUSY = 1 if and only if SEQ is not IDLE (10_state R42). -/
def BusyIffSequencing (s : State) : Prop := s.blk.busy = true ↔ s.blk.seq ≠ seqIdle

/-- ATT is at most MAX_ATTEMPTS, and below it when another poll is to come (10_state R51, 43_enable_wait R141). -/
def AttemptsBounded (s : State) : Prop :=
  s.blk.att.toNat ≤ Config.maxAttempts ∧ (s.blk.seq = seqWPoll → s.blk.att.toNat < Config.maxAttempts)

/-! ### The lifecycle: what holds at each SEQ code (10_state R39 to R54, R67) -/

/-- `1 <= SIZE <= N_MAX` (10_state R45). -/
def Sized (s : State) : Prop := 1 ≤ s.blk.size.toNat ∧ s.blk.size.toNat ≤ s.par.nMax

/-- Exactly the first `n` entries of BUF hold a value (10_state R49 a to c). -/
def HoldsExactly (s : State) (n : Nat) : Prop := ∀ i, (bufGet s i).isSome = true ↔ i < n

/-- A run is in progress: BUSY = 1 and RESULT = NONE (10_state R52, R54). -/
def Running (s : State) : Prop := s.blk.busy = true ∧ s.blk.result = .none

/-- The registers of the ring hold their reset values (10_state R67, EMPTY). -/
def Blank (s : State) : Prop :=
  s.blk.role = .receive ∧ s.blk.size = 0#32 ∧ s.blk.tblBase = 0#64 ∧ s.blk.idx = 0#32 ∧ s.blk.prog = false ∧ HoldsExactly s 0

/-- CMDREG holds an accepted NEW word (30_encoding R100 a). -/
def NewLatched (s : State) : Prop := 1 ≤ (cmdSize s.blk.cmdreg).toNat ∧ (cmdSize s.blk.cmdreg).toNat ≤ s.par.nMax

/-- Binding or unwinding: a constructed ring in the middle of INIT (10_state R49 a). -/
def Binding (s : State) : Prop := Running s ∧ s.blk.fsm = .constructed ∧ Sized s ∧ s.blk.prog = false

/-- Every slot has its buffer (10_state R47, R49 b). -/
def Full (s : State) : Prop := Sized s ∧ s.blk.idx = s.blk.size ∧ HoldsExactly s s.blk.size.toNat

/-- Between runs (10_state R67). -/
def Resting (s : State) : Prop :=
  s.blk.busy = false ∧
    match s.blk.fsm with
    | .empty => Blank s
    | .constructed => Sized s ∧ s.blk.prog = false ∧ s.blk.idx = 0#32 ∧ HoldsExactly s 0
    | .bound => Full s ∧ (s.blk.prog = true ↔ s.blk.role = .receive)
    | .enabled => Full s ∧ s.blk.role = .receive ∧ s.blk.prog = true

/-- What holds at each SEQ code (10_state R40, R44 to R54, R67; 41_binding R122, R128, R130; 42_rx_programming R138; 43_enable_wait R141). -/
def Phase (s : State) : Prop :=
  match decodeSeq s.blk.seq with
  | .error .idle => Resting s
  | .ok .nAlloc => Running s ∧ s.blk.fsm = .empty ∧ Blank s ∧ NewLatched s
  | .ok .bAlloc => Binding s ∧ s.blk.idx.toNat < s.blk.size.toNat ∧ HoldsExactly s s.blk.idx.toNat
  | .ok .bStamp => Binding s ∧ s.blk.idx.toNat < s.blk.size.toNat ∧ HoldsExactly s (s.blk.idx.toNat + 1)
  | .ok .bEmit => Binding s ∧ s.blk.idx.toNat < s.blk.size.toNat ∧ HoldsExactly s (s.blk.idx.toNat + 1)
  | .ok .uClear =>
    Binding s ∧ 1 ≤ s.blk.idx.toNat ∧ s.blk.idx.toNat < s.blk.size.toNat ∧ HoldsExactly s s.blk.idx.toNat
  | .ok .uFree => Binding s ∧ s.blk.idx.toNat < s.blk.size.toNat ∧ HoldsExactly s (s.blk.idx.toNat + 1)
  | .ok .uDone => Binding s ∧ s.blk.idx = 0#32 ∧ HoldsExactly s 0
  | .ok .tNop => Running s ∧ s.blk.fsm = .bound ∧ Full s ∧ s.blk.role = .transmit ∧ s.blk.prog = false
  | .ok .pBal | .ok .pBah | .ok .pLen | .ok .pCtlr | .ok .pCtlw | .ok .pEn =>
    Running s ∧ s.blk.fsm = .bound ∧ Full s ∧ s.blk.role = .receive ∧ s.blk.prog = false
  | .ok .wPoll | .ok .wWait | .ok .wTmo =>
    Running s ∧ s.blk.fsm = .bound ∧ Full s ∧ s.blk.role = .receive ∧ s.blk.prog = true
  | _ => False

/-! ### Ownership (10_state R46, R49 d, R64; 20_memory R85) -/

/-- Two regions of the bus address space do not overlap. -/
def Apart (a n b m : Nat) : Prop := a + n ≤ b ∨ b + m ≤ a

/-- An answer `some a` to a request for `bytes` bytes at `align` meets 20_memory R85 (a), (b), (d) and (e); (c) is the model's own
zero-fill and (f) has no state. -/
def AnswerMeets (bytes align : Nat) (live : List Allocation) (a : Addr) : Prop :=
  a.toNat % align = 0 ∧ a.toNat + bytes ≤ Config.busTop ∧ a ≠ 0#64 ∧ ∀ x ∈ live, Apart a.toNat bytes x.base.toNat x.len

/-- The allocator meets 20_memory R85 in the answer it would give next, whichever of the two requests is made. -/
def AllocatorMeets (s : State) : Prop :=
  ∀ a, allocAnswer s = some a →
    (s.blk.seq = seqNAlloc →
      AnswerMeets (tableBytes (cmdSize s.blk.cmdreg) s.par.slotSize) Config.tableAlign s.env.live a) ∧
    (s.blk.seq = seqBAlloc → AnswerMeets Config.pageSize Config.bufAlign s.env.live a)

/-- The table of a ring that exists is a live allocation of its own, aligned, not at 0, inside the address space (10_state R46, R64). -/
def TableOwned (s : State) : Prop :=
  s.blk.tblBase.toNat % Config.tableAlign = 0 ∧ s.blk.tblBase ≠ 0#64 ∧
    s.blk.tblBase.toNat + tableBytes s.blk.size s.par.slotSize ≤ Config.busTop ∧
    ⟨s.blk.tblBase, tableBytes s.blk.size s.par.slotSize, .both⟩ ∈ s.env.live

/-- A buffer is a live page of its own, aligned, not at 0, inside the address space, apart from the table (10_state R49 d, R64). -/
def BufferOwned (s : State) (a : Addr) : Prop :=
  a.toNat % Config.bufAlign = 0 ∧ a ≠ 0#64 ∧ a.toNat + Config.pageSize ≤ Config.busTop ∧
    ⟨a, Config.pageSize, .both⟩ ∈ s.env.live ∧
    Apart a.toNat Config.pageSize s.blk.tblBase.toNat (tableBytes s.blk.size s.par.slotSize)

/-- What the ring owns (10_state R46, R49 d, R64; 41_binding R127). -/
structure Owned (s : State) : Prop where
  /-- The table of a ring that exists. -/
  table : s.blk.fsm ≠ .empty → TableOwned s
  /-- Every buffer. -/
  buffer : ∀ i a, bufGet s i = some a → BufferOwned s a
  /-- No two slots share a buffer. -/
  distinct : ∀ i j a b, bufGet s i = some a → bufGet s j = some b → i ≠ j →
    Apart a.toNat Config.pageSize b.toNat Config.pageSize

/-! ### The table's contents (40_construction R118; 41_binding R123, R126, R128) -/

/-- The address field of slot `i` reads as the 8 little-endian bytes of `v` (20_memory R71). -/
def FieldReads (s : State) (i : Nat) (v : BitVec 64) : Prop :=
  ∀ k, k < 8 → s.env.mem.read (slotAddr s i + k) = some (byteOf v k)

/-- How many slots are stamped: IDX, and one more between the stamp and its report (10_state R47). -/
def stampedCount (s : State) : Nat :=
  if s.blk.seq = seqBEmit then s.blk.idx.toNat + 1 else s.blk.idx.toNat

/-- What the table and the buffers of a ring hold as long as the device has not been given the enable command (10_state R62,
70_reset R183): the stamped slots their buffer's address, the others 0, and every other byte 0. -/
structure TableHolds (s : State) : Prop where
  /-- A stamped slot holds its buffer's address (41_binding R126). -/
  stamped : ∀ i, i < stampedCount s → i < s.blk.size.toNat → ∃ a, bufGet s i = some a ∧ FieldReads s i a
  /-- An address field not stamped, or cleared by the unwind, is 0 (40_construction R118, 41_binding R128). -/
  clear : ∀ i, stampedCount s ≤ i → i < s.blk.size.toNat → FieldReads s i 0#64
  /-- The block writes no byte of a slot outside its address field (20_memory R89). -/
  rest : ∀ i o, i < s.blk.size.toNat → o < s.par.slotSize → (o < s.par.addrOff ∨ s.par.addrOff + 8 ≤ o) →
    s.env.mem.read (s.blk.tblBase.toNat + i * s.par.slotSize + o) = some 0#8
  /-- The buffers are zero-filled pages (41_binding R126). -/
  pages : ∀ i a o, bufGet s i = some a → o < Config.pageSize → s.env.mem.read (a.toNat + o) = some 0#8

/-- The table's contents, for a ring that exists and a device that has not been enabled. -/
def Stamped (s : State) : Prop := s.blk.fsm ≠ .empty → deviceEnabled s = false → TableHolds s

/-! ### Transactions -/

/-- The kinds of external transaction (30_encoding R104, column 'external transaction'). -/
inductive Kind where
  /-- `Alloc`. -/
  | alloc
  /-- `Release`. -/
  | release
  /-- `MemWrite`. -/
  | memWrite
  /-- `RegRead32`. -/
  | regRead
  /-- `RegWrite32`. -/
  | regWrite
  /-- `Emit`. -/
  | emit
  deriving DecidableEq, Repr

/-- The kind of a transaction. -/
def kindOf : Transaction → Kind
  | .alloc _ _ _ _ => .alloc
  | .release _ => .release
  | .memWrite _ _ => .memWrite
  | .regRead _ _ => .regRead
  | .regWrite _ _ => .regWrite
  | .emit _ => .emit

/-- A transaction is on the register interface. -/
def isRegister (x : Transaction) : Bool := kindOf x == .regRead || kindOf x == .regWrite

/-- The head of the moves is a reset. -/
def resetNext (s : State) : Bool :=
  match s.inp.moves with
  | .reset :: _ => true
  | _ => false

/-- No other agent moves: the controller has every step (70_reset R189). -/
def Undisturbed (s : State) : Prop := s.inp.moves = []

end Sys2Proof.Safety
end

