-- ==== Sys2Proof/Certificates/Slice0/Obligations.lean ====
section
/-! DEFINITION. The statements for the provers: what the numbered rules of spec/ say the ring controller does. A next state is written as
the state before with the fields that change, so that each statement is its instruction's frame as well; a value is given by its bits or
by arithmetic, and memory by what a byte reads as. -/

open Sys2Proof Sys2Proof.Machine Sys2Proof.Safety

/-! ### Encoding -/

/-- Every well-formed instruction is what its word decodes to (30_encoding R99, R104). -/
def Obligations.DecodeOfEncodeIsTheInstruction : Prop :=
  ∀ i : Instr, i.WellFormed → decode (encode i) = .ok i

/-- A word that decodes has no other spelling: its instruction is well-formed and encodes to it (30_encoding R99, R104). -/
def Obligations.EncodeOfDecodeIsTheWord : Prop :=
  ∀ (e : Encoded) (i : Instr), decode e = .ok i → i.WellFormed ∧ encode i = e

/-- Words written out from the tables of 95_test_vectors part 2 and 30_encoding R104. -/
def Obligations.WordsWrittenOutDecode : Prop :=
  decode (.command 0x0000010000000001#64) = .ok (.new .receive 256) ∧
  decode (.command 0x0000000400000101#64) = .ok (.new .transmit 4) ∧
  decode (.command 0x0000000000000002#64) = .ok .init ∧
  decode (.micro 0b00001#5) = .ok .nAlloc ∧ decode (.micro 0b00011#5) = .ok .bStamp ∧
  decode (.micro 0b00110#5) = .ok .uFree ∧ decode (.micro 0b01000#5) = .ok .tNop ∧
  decode (.micro 0b01011#5) = .ok .pLen ∧ decode (.micro 0b10000#5) = .ok .wWait

/-- Which words are no instruction, and why: a reserved opcode, a reserved bit, an INIT with an operand, IDLE, an unused SEQ code
(30_encoding R99, R104, R113). -/
def Obligations.ReservedWordsAreNoInstruction : Prop :=
  (∀ w : CmdWord, w.toNat % 2 ^ 8 ≠ 1 → w.toNat % 2 ^ 8 ≠ 2 → decodeCommand w = .error .reservedOpcode) ∧
  (∀ w : CmdWord, w.toNat % 2 ^ 8 = 1 ∨ w.toNat % 2 ^ 8 = 2 → w.toNat / 2 ^ 9 % 2 ^ 23 ≠ 0 →
    decodeCommand w = .error .reservedBits) ∧
  (∀ w : CmdWord, w.toNat % 2 ^ 8 = 2 → w.toNat / 2 ^ 9 % 2 ^ 23 = 0 → w.toNat / 2 ^ 8 ≠ 0 →
    decodeCommand w = .error .initOperand) ∧
  (∀ c : SeqCode, c.toNat = 0 → decodeSeq c = .error .idle) ∧
  (∀ c : SeqCode, 0x12 ≤ c.toNat → decodeSeq c = .error .unusedCode)

/-- A diagnostic record in packed form: kind in [63:60], role in [32], index in [31:0], all other bits 0 (30_encoding R112). -/
def Obligations.PackedRecordHasItsFields : Prop :=
  (∀ index : Word32, (Event.slotBound index .receive).pack.toNat = 1 * 2 ^ 60 + 0 * 2 ^ 32 + index.toNat) ∧
  (∀ index : Word32, (Event.slotBound index .transmit).pack.toNat = 1 * 2 ^ 60 + 1 * 2 ^ 32 + index.toNat) ∧
  Event.enableTimeout.pack.toNat = 2 * 2 ^ 60

/-! ### A step runs the decoded instruction -/

/-- When the controller has the step (no other agent's move, a quiet one, or a submission that must wait), a step is `exec` of the
micro-operation SEQ names; around it only a quiet move is consumed. IDLE does nothing; an unused code faults (10_state R41). Whose move
it is, and the submission that waits, are the model's form (log entries 2 and 9). -/
def Obligations.StepRunsTheMicroOperation : Prop :=
  ∀ (s s' : State),
    (s.inp.moves = [] ∧ s' = s) ∨
    (∃ rest, s.inp.moves = .quiet :: rest ∧ s' = { s with inp := { s.inp with moves := rest } }) ∨
    (∃ w rest, s.inp.moves = .submit w :: rest ∧ s.blk.busy = true ∧ s' = s) →
    (∀ i, decode (.micro s.blk.seq) = .ok i → step s = exec i s') ∧
    (s.blk.seq.toNat = 0 → step s = .next s') ∧
    (0x12 ≤ s.blk.seq.toNat → step s = .fault (.unusedSeq s.blk.seq))

/-- When the host submits a word that decodes to a command and the port is ready, a step is `exec` of that command, the submission
being consumed (30_encoding R98; log entry 2). -/
def Obligations.StepRunsTheSubmittedCommand : Prop :=
  ∀ (s : State) (w : CmdWord) (rest : List Move) (i : Instr),
    s.inp.moves = .submit w :: rest → s.blk.busy = false → decode (.command w) = .ok i →
    step s = exec i { s with inp := { s.inp with moves := rest } }

/-- While BUSY = 1 the port is not ready: a submission waits, the controller's micro-operation runs, CMDREG keeps its word; `exec` of a
command is refused by name, the model's form of a port that is not ready (30_encoding R98, 70_reset R177; log entry 9). -/
def Obligations.PortIsNotReadyDuringARun : Prop :=
  (∀ (s t : State) (w : CmdWord) (rest : List Move),
    s.inp.moves = .submit w :: rest → s.blk.busy = true → step s = .next t →
    t.inp.moves = .submit w :: rest ∧ t.blk.cmdreg = s.blk.cmdreg) ∧
  (∀ (s : State) (role : Role) (size : Nat), s.blk.busy = true →
    exec (.new role size) s = .refused .portNotReady ∧ exec .init s = .refused .portNotReady)

/-! ### Submission -/

/-- Acceptance (30_encoding R100): NEW in EMPTY with `1 <= size <= N_MAX` and reserved bits 0; INIT in CONSTRUCTED with bits [63:8] 0. -/
def Obligations.SubmissionIsAccepted : Prop :=
  ∀ (s : State) (w : CmdWord) (rest : List Move),
    s.inp.moves = .submit w :: rest → s.blk.busy = false →
    (w.toNat % 2 ^ 8 = 1 → w.toNat / 2 ^ 9 % 2 ^ 23 = 0 → s.blk.fsm = .empty →
      1 ≤ w.toNat / 2 ^ 32 → w.toNat / 2 ^ 32 ≤ s.par.nMax →
      step s = .next { s with
        blk := { s.blk with cmdreg := w, busy := true, result := .none, seq := 0x01#5 }
        inp := { s.inp with moves := rest } }) ∧
    (w.toNat % 2 ^ 8 = 2 → w.toNat / 2 ^ 8 = 0 → s.blk.fsm = .constructed →
      step s = .next { s with
        blk := { s.blk with cmdreg := w, busy := true, result := .none, idx := 0#32, seq := 0x02#5 }
        inp := { s.inp with moves := rest } })

/-- Refusal (30_encoding R101): a submission made while BUSY = 0 that does not meet R100 sets RESULT to REFUSED and changes nothing
else. -/
def Obligations.SubmissionIsRefused : Prop :=
  ∀ (s : State) (w : CmdWord) (rest : List Move),
    s.inp.moves = .submit w :: rest → s.blk.busy = false →
    ¬ (w.toNat % 2 ^ 8 = 1 ∧ w.toNat / 2 ^ 9 % 2 ^ 23 = 0 ∧ s.blk.fsm = .empty ∧
        1 ≤ w.toNat / 2 ^ 32 ∧ w.toNat / 2 ^ 32 ≤ s.par.nMax) →
    ¬ (w.toNat % 2 ^ 8 = 2 ∧ w.toNat / 2 ^ 8 = 0 ∧ s.blk.fsm = .constructed) →
    step s = .next { s with blk := { s.blk with result := .refused }, inp := { s.inp with moves := rest } }

/-- Both commands complete in the state that takes them, CMDREG latching the word of the encoding (40_construction R116,
41_binding R121); in any other state they are refused in RESULT. -/
def Obligations.CommandsComplete : Prop :=
  ∀ (s : State) (role : Role) (size : Nat), s.blk.busy = false →
    (s.blk.fsm = .empty → 1 ≤ size → size ≤ s.par.nMax →
      ∃ w : CmdWord, w.toNat = size * 2 ^ 32 + roleCode role * 2 ^ 8 + 1 ∧
        exec (.new role size) s = .next { s with
          blk := { s.blk with cmdreg := w, busy := true, result := .none, seq := 0x01#5 } }) ∧
    (¬ (s.blk.fsm = .empty ∧ 1 ≤ size ∧ size ≤ s.par.nMax) →
      exec (.new role size) s = .next { s with blk := { s.blk with result := .refused } }) ∧
    (s.blk.fsm = .constructed →
      exec .init s = .next { s with
        blk := { s.blk with cmdreg := 2#64, busy := true, result := .none, idx := 0#32, seq := 0x02#5 } }) ∧
    (s.blk.fsm ≠ .constructed → exec .init s = .next { s with blk := { s.blk with result := .refused } })

/-! ### Construction -/

/-- N_ALLOC (40_construction R117): one request for `size * S` bytes at 4096, both ways; on `some a` the ring's registers are written, the
allocation is live (10_state R64) and its region reads 0 (20_memory R85 c, 40_construction R118); on `none` only RESULT, BUSY and SEQ
change. That the region reads 0 and goes live also for an answer that breaks R85 (a), (d) or (e) is the model's choice (log entry 5), and
so is what a request for 0 bytes does (log entry 22). -/
def Obligations.TableIsAllocated : Prop :=
  ∀ s : State,
    let size := s.blk.cmdreg.toNat / 2 ^ 32
    let role := if s.blk.cmdreg.toNat / 2 ^ 8 % 2 = 1 then Role.transmit else Role.receive
    let n := size * s.par.slotSize
    encode .nAlloc = .micro 0x01#5 ∧
    (∀ a, allocAnswer s = some a → ∃ t, exec .nAlloc s = .next t ∧
      t = { s with
        blk := { s.blk with
          tblBase := a, size := BitVec.ofNat 32 size, role := role, fsm := .constructed, result := .ok, busy := false, seq := 0x00#5 }
        env := { s.env with
          live := s.env.live ++ [⟨a, n, .both⟩], mem := t.env.mem, trace := s.env.trace ++ [.alloc n 4096 .both (some a)] }
        inp := (takeAllocAnswer s).inp } ∧
      (Canonical s → a.toNat + n ≤ 2 ^ 64 → ∀ x, t.env.mem.read x =
        if a.toNat ≤ x ∧ x < a.toNat + n then some 0#8 else s.env.mem.read x)) ∧
    (allocAnswer s = none →
      exec .nAlloc s = .next { s with
        blk := { s.blk with result := .noMemory, busy := false, seq := 0x00#5 }
        env := { s.env with trace := s.env.trace ++ [.alloc n 4096 .both none] }
        inp := (takeAllocAnswer s).inp })

/-! ### Binding -/

/-- B_ALLOC (41_binding R122): one request for a page; on `some a` entry IDX of BUF holds `a`, the page is live (10_state R64) and reads 0
(20_memory R85 c); on `none` the unwind begins, or ends at once if nothing is bound. That the page reads 0 and goes live also for an
answer that breaks R85 (a), (d) or (e) is the model's choice (log entry 5), and so is the store into an entry from SIZE up (log entry 23). -/
def Obligations.BufferIsAllocated : Prop :=
  ∀ s : State, encode .bAlloc = .micro 0x02#5 ∧
    (∀ a, allocAnswer s = some a → ∃ t, exec .bAlloc s = .next t ∧
      t = { s with
        blk := { s.blk with buf := t.blk.buf, seq := 0x03#5 }
        env := { s.env with
          live := s.env.live ++ [⟨a, 4096, .both⟩], mem := t.env.mem, trace := s.env.trace ++ [.alloc 4096 4096 .both (some a)] }
        inp := (takeAllocAnswer s).inp } ∧
      (∀ j, bufGet t j = if j = s.blk.idx.toNat then some a else bufGet s j) ∧
      (Canonical s → a.toNat + 4096 ≤ 2 ^ 64 → ∀ x, t.env.mem.read x =
        if a.toNat ≤ x ∧ x < a.toNat + 4096 then some 0#8 else s.env.mem.read x)) ∧
    (allocAnswer s = none →
      exec .bAlloc s = .next { s with
        blk := { s.blk with seq := if s.blk.idx.toNat = 0 then 0x07#5 else 0x05#5 }
        env := { s.env with trace := s.env.trace ++ [.alloc 4096 4096 .both none] }
        inp := (takeAllocAnswer s).inp })

/-- B_STAMP (41_binding R123): the 8 bytes at `TBL_BASE + IDX * S + ADDR_OFF` hold BUF[IDX], little-endian and unmasked; every other
byte of memory and every other register is as before. That an entry from SIZE up is read like any other is the model's choice (log
entry 23). -/
def Obligations.BufferAddressIsStamped : Prop :=
  ∀ (s : State) (a : Addr), bufGet s s.blk.idx.toNat = some a →
    let d := s.blk.tblBase.toNat + s.blk.idx.toNat * s.par.slotSize + s.par.addrOff
    d + 8 ≤ 2 ^ 64 →
    encode .bStamp = .micro 0x03#5 ∧
    ∃ t, exec .bStamp s = .next t ∧
      t = { s with
        blk := { s.blk with seq := 0x04#5 }
        env := { s.env with mem := t.env.mem, trace := s.env.trace ++ [.memWrite d a] } } ∧
      (Canonical s →
        (∀ k, k < 8 → t.env.mem.read (d + k) = some (BitVec.ofNat 8 (a.toNat / 2 ^ (8 * k)))) ∧
        (∀ x, ¬ (d ≤ x ∧ x < d + 8) → t.env.mem.read x = s.env.mem.read x))

/-- B_EMIT (41_binding R124): the record with IDX on entry and ROLE, IDX one more, and then the next slot, or BOUND and the branch on
ROLE. -/
def Obligations.SlotIsReported : Prop :=
  ∀ s : State, s.blk.idx.toNat + 1 < 2 ^ 32 →
    encode .bEmit = .micro 0x04#5 ∧
    exec .bEmit s = .next { s with
      blk := { s.blk with
        idx := BitVec.ofNat 32 (s.blk.idx.toNat + 1)
        fsm := if s.blk.idx.toNat + 1 < s.blk.size.toNat then s.blk.fsm else .bound
        seq :=
          if s.blk.idx.toNat + 1 < s.blk.size.toNat then 0x02#5
          else if s.blk.role = .receive then 0x09#5 else 0x08#5 }
      env := { s.env with
        events := s.env.events ++ [.slotBound s.blk.idx s.blk.role]
        trace := s.env.trace ++ [.emit (.slotBound s.blk.idx s.blk.role)] } }

/-- U_CLEAR (41_binding R128): IDX one less, and the 8 bytes at the address field of that slot read 0; every other byte of memory and
every other register is as before. -/
def Obligations.AddressFieldIsCleared : Prop :=
  ∀ s : State, 1 ≤ s.blk.idx.toNat →
    let d := s.blk.tblBase.toNat + (s.blk.idx.toNat - 1) * s.par.slotSize + s.par.addrOff
    d + 8 ≤ 2 ^ 64 →
    encode .uClear = .micro 0x05#5 ∧
    ∃ t, exec .uClear s = .next t ∧
      t = { s with
        blk := { s.blk with idx := BitVec.ofNat 32 (s.blk.idx.toNat - 1), seq := 0x06#5 }
        env := { s.env with mem := t.env.mem, trace := s.env.trace ++ [.memWrite d 0#64] } } ∧
      (Canonical s →
        (∀ k, k < 8 → t.env.mem.read (d + k) = some 0#8) ∧
        (∀ x, ¬ (d ≤ x ∧ x < d + 8) → t.env.mem.read x = s.env.mem.read x))

/-- U_FREE (41_binding R129): BUF[IDX] is released and holds no value. That the release changes no byte of memory, and takes every live
allocation with that bus address, is the model's reading of 20_memory R86 and 10_state R62 (log entry 18); that an entry from SIZE up is
read and emptied like any other is its choice (log entry 23). -/
def Obligations.BufferIsReleased : Prop :=
  ∀ (s : State) (a : Addr), bufGet s s.blk.idx.toNat = some a →
    encode .uFree = .micro 0x06#5 ∧
    ∃ t, exec .uFree s = .next t ∧
      t = { s with
        blk := { s.blk with buf := t.blk.buf, seq := if s.blk.idx.toNat = 0 then 0x07#5 else 0x05#5 }
        env := { s.env with live := t.env.live, trace := s.env.trace ++ [.release a] } } ∧
      (∀ j, bufGet t j = if j = s.blk.idx.toNat then none else bufGet s j) ∧
      (∀ x, x ∈ t.env.live ↔ x ∈ s.env.live ∧ x.base ≠ a)

/-- U_DONE (41_binding R130): the raising of NoMemory for INIT; on entry IDX is 0, no entry of BUF holds a value and FSM is still
CONSTRUCTED. -/
def Obligations.AllocationFailureIsReported : Prop :=
  ∀ s : State, encode .uDone = .micro 0x07#5 ∧
    exec .uDone s = .next { s with blk := { s.blk with result := .noMemory, busy := false, seq := 0x00#5 } } ∧
    (Phase s → s.blk.seq = 0x07#5 → s.blk.idx.toNat = 0 ∧ (∀ i, bufGet s i = none) ∧ s.blk.fsm = .constructed)

/-- An entry of BUF that holds no value is never read as a value: B_STAMP, U_FREE and the host's read fault on it (10_state R48); for the
two micro-operations an entry from SIZE up counts as one that holds no value until it is written (log entry 23). The
host's read is defined below SIZE only: from SIZE up it faults, whatever the entry holds (30_encoding R103; the fault is the model's form, log
entry 10). -/
def Obligations.EmptyEntryIsNeverRead : Prop :=
  (∀ s : State, bufGet s s.blk.idx.toNat = none →
    exec .bStamp s = .fault (.bufEmpty s.blk.idx.toNat) ∧ exec .uFree s = .fault (.bufEmpty s.blk.idx.toNat)) ∧
  (∀ (s : State) (i : Nat), bufGet s i = none → hostReadBuf s i = .error (.bufEmpty i)) ∧
  (∀ (s : State) (i : Nat) (a : Addr), i < s.blk.size.toNat → bufGet s i = some a → hostReadBuf s i = .ok a) ∧
  (∀ (s : State) (i : Nat), s.blk.size.toNat ≤ i → hostReadBuf s i = .error (.bufEmpty i))

/-- Where the spec states no value of a counter, the exact one lying outside its 32 bits, the counter gets a free value and all else is as
its rule says (the model's choice, log entry 7): B_EMIT with IDX and W_POLL with ATT at the top, U_CLEAR with IDX = 0. -/
def Obligations.CounterOutsideItsRangeIsFree : Prop :=
  ∀ s : State,
    (s.blk.idx.toNat = 2 ^ 32 - 1 →
      exec .bEmit s = .next { s with
        blk := { s.blk with
          idx := Config.freeCount s.inp.drawn, fsm := .bound, seq := if s.blk.role = .receive then 0x09#5 else 0x08#5 }
        env := { s.env with
          events := s.env.events ++ [.slotBound s.blk.idx s.blk.role]
          trace := s.env.trace ++ [.emit (.slotBound s.blk.idx s.blk.role)] }
        inp := { s.inp with drawn := s.inp.drawn + 1 } }) ∧
    (s.blk.idx.toNat = 0 →
      let d := s.blk.tblBase.toNat + (Config.freeCount s.inp.drawn).toNat * s.par.slotSize + s.par.addrOff
      d + 8 ≤ 2 ^ 64 →
      ∃ t, exec .uClear s = .next t ∧
        t = { s with
          blk := { s.blk with idx := Config.freeCount s.inp.drawn, seq := 0x06#5 }
          env := { s.env with mem := t.env.mem, trace := s.env.trace ++ [.memWrite d 0#64] }
          inp := { s.inp with drawn := s.inp.drawn + 1 } } ∧
        (Canonical s →
          (∀ k, k < 8 → t.env.mem.read (d + k) = some 0#8) ∧
          (∀ x, ¬ (d ≤ x ∧ x < d + 8) → t.env.mem.read x = s.env.mem.read x))) ∧
    (s.blk.att.toNat = 2 ^ 32 - 1 →
      exec .wPoll s = .next { s with
        blk :=
          if readAnswer s &&& s.par.ackMask = 0#32 then
            { s.blk with
              att := Config.freeCount (takeReadAnswer s).inp.drawn, fsm := .enabled, result := .ok, busy := false, seq := 0x00#5 }
          else { s.blk with att := Config.freeCount (takeReadAnswer s).inp.drawn, seq := 0x10#5 }
        env := { s.env with trace := s.env.trace ++ [.regRead s.par.offQctl (readAnswer s)] }
        inp := { (takeReadAnswer s).inp with drawn := (takeReadAnswer s).inp.drawn + 1 } })

/-- An address field that does not lie in the 64-bit bus address space does not exist: a stamp or a clear of it faults (20_memory R68,
R85 b; the fault is the model's form, log entry 8). -/
def Obligations.FieldOutsideTheBusFaults : Prop :=
  (∀ (s : State) (a : Addr), bufGet s s.blk.idx.toNat = some a → 2 ^ 64 < slotAddr s s.blk.idx.toNat + 8 →
    exec .bStamp s = .fault (.slotOutside (slotAddr s s.blk.idx.toNat))) ∧
  (∀ s : State, 2 ^ 64 < slotAddr s (stepBack s).toNat + 8 → exec .uClear s = .fault (.slotOutside (slotAddr s (stepBack s).toNat)))

/-! ### Transmit path -/

/-- T_NOP (44_tx_path R145): INIT of a transmit ring ends without any transaction. -/
def Obligations.TransmitInitEnds : Prop :=
  ∀ s : State, encode .tNop = .micro 0x08#5 ∧
    exec .tNop s = .next { s with blk := { s.blk with result := .ok, busy := false, seq := 0x00#5 } }

/-! ### Receive-path register programming -/

/-- P_BAL (42_rx_programming R132): the value written has bits [31:4] of TBL_BASE and bits [3:0] 0. -/
def Obligations.BaseLowIsProgrammed : Prop :=
  ∀ s : State, encode .pBal = .micro 0x09#5 ∧
    ∃ v : Word32, v.toNat = s.blk.tblBase.toNat % 2 ^ 32 / 2 ^ 4 * 2 ^ 4 ∧
      exec .pBal s = .next { s with
        blk := { s.blk with seq := 0x0A#5 }
        env := { s.env with trace := s.env.trace ++ [.regWrite s.par.offBal v] } }

/-- P_BAH (42_rx_programming R133): the value written is bits [63:32] of TBL_BASE, unmasked. -/
def Obligations.BaseHighIsProgrammed : Prop :=
  ∀ s : State, encode .pBah = .micro 0x0A#5 ∧
    ∃ v : Word32, v.toNat = s.blk.tblBase.toNat / 2 ^ 32 ∧
      exec .pBah s = .next { s with
        blk := { s.blk with seq := 0x0B#5 }
        env := { s.env with trace := s.env.trace ++ [.regWrite s.par.offBah v] } }

/-- P_LEN (42_rx_programming R134): the value written is `SIZE * S` below `2^32`, truncated to a multiple of 32, never rounded up. -/
def Obligations.RingLengthIsProgrammed : Prop :=
  ∀ s : State, encode .pLen = .micro 0x0B#5 ∧
    ∃ v : Word32, v.toNat = s.blk.size.toNat * s.par.slotSize % 2 ^ 32 / 2 ^ 5 * 2 ^ 5 ∧
      exec .pLen s = .next { s with
        blk := { s.blk with seq := 0x0C#5 }
        env := { s.env with trace := s.env.trace ++ [.regWrite s.par.offLen v] } }

/-- P_CTLR (42_rx_programming R135): CTLTMP gets the device's answer, whatever it is. -/
def Obligations.ControlRegisterIsRead : Prop :=
  ∀ s : State, encode .pCtlr = .micro 0x0C#5 ∧
    exec .pCtlr s = .next { s with
      blk := { s.blk with ctltmp := readAnswer s, seq := 0x0D#5 }
      env := { s.env with trace := s.env.trace ++ [.regRead s.par.offRxctl (readAnswer s)] }
      inp := (takeReadAnswer s).inp }

/-- P_CTLW (42_rx_programming R136): bits [6:0] are BSIZE_CLASS, bits [31:7] are as read. -/
def Obligations.ControlRegisterIsWritten : Prop :=
  ∀ s : State, encode .pCtlw = .micro 0x0D#5 ∧
    ∃ v : Word32, v.toNat = s.blk.ctltmp.toNat / 2 ^ 7 * 2 ^ 7 + s.par.bsizeClass.toNat ∧
      exec .pCtlw s = .next { s with
        blk := { s.blk with seq := 0x0E#5 }
        env := { s.env with trace := s.env.trace ++ [.regWrite s.par.offRxctl v] } }

/-- P_EN (42_rx_programming R137): EN_CMD is written whole, PROG set, ATT cleared; FSM stays. -/
def Obligations.EnableCommandIsWritten : Prop :=
  ∀ s : State, encode .pEn = .micro 0x0E#5 ∧
    exec .pEn s = .next { s with
      blk := { s.blk with prog := true, att := 0#32, seq := 0x0F#5 }
      env := { s.env with trace := s.env.trace ++ [.regWrite s.par.offQctl s.par.enCmd] } }

/-- The six steps of the register sequence, in their order and with their transactions and nothing between (42_rx_programming R138,
20_memory R92). -/
def Obligations.RegisterSequenceIsInOrder : Prop :=
  ∀ s : State, Undisturbed s → s.blk.seq = 0x09#5 →
    ∃ t bal bah len ctl, Host.Core.run core 6 s = .next t ∧ t.blk.seq = 0x0F#5 ∧ t.blk.prog = true ∧ t.env.mem = s.env.mem ∧
      t.env.trace = s.env.trace ++
        [.regWrite s.par.offBal bal, .regWrite s.par.offBah bah, .regWrite s.par.offLen len,
          .regRead s.par.offRxctl (readAnswer s), .regWrite s.par.offRxctl ctl, .regWrite s.par.offQctl s.par.enCmd] ∧
      len.toNat = s.blk.size.toNat * s.par.slotSize % 2 ^ 32 / 2 ^ 5 * 2 ^ 5 ∧
      ctl.toNat = (readAnswer s).toNat / 2 ^ 7 * 2 ^ 7 + s.par.bsizeClass.toNat ∧
      bah.toNat * 2 ^ 32 + bal.toNat = s.blk.tblBase.toNat / 2 ^ 4 * 2 ^ 4

/-! ### The enable wait -/

/-- W_POLL (43_enable_wait R140): one read of QCTL, ATT one more; the ring is ENABLED if the bit of ACK_MASK reads 0, otherwise the
wait goes on. -/
def Obligations.EnableIsPolled : Prop :=
  ∀ (s : State) (bit : Nat), s.par.ackMask.toNat = 2 ^ bit → s.blk.att.toNat + 1 < 2 ^ 32 →
    encode .wPoll = .micro 0x0F#5 ∧
    exec .wPoll s = .next { s with
      blk :=
        if (readAnswer s).getLsbD bit = false then
          { s.blk with
            att := BitVec.ofNat 32 (s.blk.att.toNat + 1), fsm := .enabled, result := .ok, busy := false, seq := 0x00#5 }
        else { s.blk with att := BitVec.ofNat 32 (s.blk.att.toNat + 1), seq := 0x10#5 }
      env := { s.env with trace := s.env.trace ++ [.regRead s.par.offQctl (readAnswer s)] }
      inp := (takeReadAnswer s).inp }

/-- W_WAIT (43_enable_wait R141): one interval passes; another poll if fewer than 1000 were made, otherwise the timeout. -/
def Obligations.IntervalPasses : Prop :=
  ∀ s : State, encode .wWait = .micro 0x10#5 ∧
    exec .wWait s = .next { s with
      blk := { s.blk with seq := if s.blk.att.toNat < 1000 then 0x0F#5 else 0x11#5 }
      env := { s.env with waited := s.env.waited + 1 } }

/-- W_TMO (43_enable_wait R142): the record and TIMEDOUT; FSM and PROG stay. -/
def Obligations.TimeoutIsReported : Prop :=
  ∀ s : State, encode .wTmo = .micro 0x11#5 ∧
    exec .wTmo s = .next { s with
      blk := { s.blk with result := .timedOut, busy := false, seq := 0x00#5 }
      env := { s.env with
        events := s.env.events ++ [.enableTimeout]
        trace := s.env.trace ++ [.emit .enableTimeout] } }

/-- A wait whose first acknowledging answer is the `p`-th, `p <= 1000`, makes `p` reads of QCTL, takes `2p - 1` steps and ends in
ENABLED with RESULT = OK and ATT = p (43_enable_wait R143, 41_binding R121). -/
def Obligations.WaitEndsAtTheAcknowledgment : Prop :=
  ∀ (s : State) (before : List Word32) (v : Word32) (more : List Word32),
    Undisturbed s → s.blk.seq = 0x0F#5 → s.blk.att = 0#32 → s.inp.readAnswers = before ++ v :: more →
    (∀ u ∈ before, u &&& s.par.ackMask ≠ 0#32) → v &&& s.par.ackMask = 0#32 → before.length < 1000 →
    ∃ t, Host.Core.run core (2 * before.length + 1) s = .next t ∧
      t.blk = { s.blk with
        att := BitVec.ofNat 32 (before.length + 1), fsm := .enabled, result := .ok, busy := false, seq := 0x00#5 } ∧
      t.env = { s.env with
        trace := s.env.trace ++ (before ++ [v]).map (fun u => .regRead s.par.offQctl u)
        waited := s.env.waited + before.length } ∧
      t.inp.readAnswers = more

/-- A wait in which none of the first 1000 answers acknowledges makes exactly 1000 reads of QCTL, takes 2001 steps and ends in TIMEDOUT
with one record, FSM and PROG as they were (43_enable_wait R143, R142; 60_exceptions R153). -/
def Obligations.WaitTimesOutAfterAThousandPolls : Prop :=
  ∀ (s : State) (answers more : List Word32),
    Undisturbed s → s.blk.seq = 0x0F#5 → s.blk.att = 0#32 → s.inp.readAnswers = answers ++ more → answers.length = 1000 →
    (∀ u ∈ answers, u &&& s.par.ackMask ≠ 0#32) →
    ∃ t, Host.Core.run core 2001 s = .next t ∧
      t.blk = { s.blk with att := 1000#32, result := .timedOut, busy := false, seq := 0x00#5 } ∧
      t.env = { s.env with
        events := s.env.events ++ [.enableTimeout]
        trace := s.env.trace ++ answers.map (fun u => .regRead s.par.offQctl u) ++ [.emit .enableTimeout]
        waited := s.env.waited + 1000 } ∧
      t.inp.readAnswers = more

/-- Whatever the device answers, a wait ends after at most 1000 polls, 1000 intervals and one timeout, in one of two outcomes
(43_enable_wait R144). -/
def Obligations.WaitAlwaysEnds : Prop :=
  ∀ s : State, Undisturbed s → s.blk.seq = 0x0F#5 → s.blk.att.toNat < 1000 →
    ∃ k t, k ≤ 2 * (1000 - s.blk.att.toNat) + 1 ∧ Host.Core.run core k s = .next t ∧
      t.blk.busy = false ∧ t.blk.seq = 0x00#5 ∧
      ((t.blk.result = .ok ∧ t.blk.fsm = .enabled) ∨
        (t.blk.result = .timedOut ∧ t.blk.fsm = s.blk.fsm ∧ t.blk.att.toNat = 1000))

/-! ### The binding loop -/

/-- When the allocator grants every page, the binding of a ring takes `3 * SIZE` steps and leaves it BOUND at the branch on ROLE, slot
after slot in index order: BUF holds the answers, each address field its buffer's address, the log the records, each page is live and
reads 0, every byte of memory outside the address fields and the pages is as before (41_binding R125, R126, R121). The answers meet
20_memory R85. -/
def Obligations.BindingBindsEverySlot : Prop :=
  ∀ (s : State) (pages : List Addr) (more : List (Option Addr)),
    Undisturbed s → Canonical s → Phase s → Owned s → s.blk.seq = 0x02#5 → s.blk.idx = 0#32 →
    pages.length = s.blk.size.toNat → s.inp.allocAnswers = pages.map some ++ more →
    (∀ a ∈ pages, AnswerMeets 4096 4096 s.env.live a) →
    pages.Pairwise (fun a b => Apart a.toNat 4096 b.toNat 4096) →
    ∃ t, Host.Core.run core (3 * s.blk.size.toNat) s = .next t ∧
      t.blk = { s.blk with
        idx := s.blk.size, buf := t.blk.buf, fsm := .bound, seq := if s.blk.role = .receive then 0x09#5 else 0x08#5 } ∧
      (∀ i, bufGet t i = pages[i]?) ∧
      (∀ (i : Nat) (a : Addr), pages[i]? = some a → FieldReads t i a) ∧
      t.env.events = s.env.events ++
        (List.range s.blk.size.toNat).map (fun i => .slotBound (BitVec.ofNat 32 i) s.blk.role) ∧
      t.inp.allocAnswers = more ∧
      t.env.live = s.env.live ++ pages.map (fun a => ⟨a, 4096, .both⟩) ∧
      (∀ a ∈ pages, ∀ o, o < 4096 → t.env.mem.read (a.toNat + o) = some 0#8) ∧
      (∀ x, (∀ i k, i < s.blk.size.toNat → k < 8 → x ≠ slotAddr s i + k) →
        (∀ a ∈ pages, ∀ o, o < 4096 → x ≠ a.toNat + o) → t.env.mem.read x = s.env.mem.read x)

/-- When the allocator grants `k` pages and then none, INIT ends after `3k + 1 + 2k + 1` steps with NOMEMORY, the ring CONSTRUCTED as after
NEW: no entry of BUF holds a value, the `k` address fields read 0, every page is released, no register was accessed, and the records of
the `k` slots stay in the log (60_exceptions R152, 41_binding R130, R121). No live allocation is empty: a request has at least one byte
(20_memory R84). -/
def Obligations.FailedBindingIsUndone : Prop :=
  ∀ (s : State) (pages : List Addr) (more : List (Option Addr)),
    Undisturbed s → Canonical s → Phase s → Owned s → s.blk.seq = 0x02#5 → s.blk.idx = 0#32 →
    pages.length < s.blk.size.toNat → s.inp.allocAnswers = pages.map some ++ none :: more →
    (∀ a ∈ pages, AnswerMeets 4096 4096 s.env.live a) →
    pages.Pairwise (fun a b => Apart a.toNat 4096 b.toNat 4096) → (∀ x ∈ s.env.live, 0 < x.len) →
    ∃ t, Host.Core.run core (3 * pages.length + 1 + 2 * pages.length + 1) s = .next t ∧
      t.blk = { s.blk with buf := t.blk.buf, result := .noMemory, busy := false, seq := 0x00#5 } ∧
      (∀ i, bufGet t i = none) ∧
      (∀ i, i < pages.length → FieldReads t i 0#64) ∧
      t.env.events = s.env.events ++ (List.range pages.length).map (fun i => .slotBound (BitVec.ofNat 32 i) s.blk.role) ∧
      (∀ x, x ∈ t.env.live ↔ x ∈ s.env.live) ∧
      t.env.trace.filter isRegister = s.env.trace.filter isRegister

/-! ### Reset -/

/-- A reset puts every register of the block at its value, whatever the state, consumes nothing but its own move, and changes nothing of
the environment (70_reset R169, R170, R171). -/
def Obligations.ResetRestoresTheBlock : Prop :=
  ∀ (s : State) (rest : List Move), s.inp.moves = .reset :: rest →
    ∃ t, step s = .next t ∧ t.par = s.par ∧ t.env = s.env ∧ t.inp = { s.inp with moves := rest } ∧
      hostView t = ⟨0, 0, 0, 0, 0, 0, 0, 0, 0, 0⟩ ∧ t.blk.cmdreg.toNat = 0 ∧ t.blk.ctltmp.toNat = 0 ∧ (∀ i, bufGet t i = none)

/-- The machine of `State.reset` has every register at its reset value (70_reset R170), and in it the block does nothing. The environment's
start values and the inputs are the model's choice (log entries 2 to 4, 12). -/
def Obligations.StartStateIsReset : Prop :=
  hostView State.reset = ⟨0, 0, 0, 0, 0, 0, 0, 0, 0, 0⟩ ∧ State.reset.blk.cmdreg.toNat = 0 ∧
    State.reset.blk.ctltmp.toNat = 0 ∧ (∀ i, bufGet State.reset i = none) ∧ step State.reset = .next State.reset

/-! ### What the host reads -/

/-- The host's read view, in every state: each field is the unsigned number of its register, with the codes of FSM, ROLE, SEQ and RESULT
(10_state R55, R39, R44, R54, 30_encoding R103). -/
def Obligations.HostReadsEveryRegister : Prop :=
  ∀ s : State,
    ((hostView s).fsm = 0 ↔ s.blk.fsm = .empty) ∧ ((hostView s).fsm = 1 ↔ s.blk.fsm = .constructed) ∧
    ((hostView s).fsm = 2 ↔ s.blk.fsm = .bound) ∧ ((hostView s).fsm = 3 ↔ s.blk.fsm = .enabled) ∧ (hostView s).fsm < 4 ∧
    ((hostView s).result = 0 ↔ s.blk.result = .none) ∧ ((hostView s).result = 1 ↔ s.blk.result = .ok) ∧
    ((hostView s).result = 2 ↔ s.blk.result = .noMemory) ∧ ((hostView s).result = 3 ↔ s.blk.result = .timedOut) ∧
    ((hostView s).result = 4 ↔ s.blk.result = .refused) ∧ (hostView s).result < 5 ∧
    (hostView s).role = (match s.blk.role with | .receive => 0 | .transmit => 1) ∧
    (hostView s).busy = (if s.blk.busy = true then 1 else 0) ∧ (hostView s).prog = (if s.blk.prog = true then 1 else 0) ∧
    (hostView s).seq = s.blk.seq.toNat ∧ (hostView s).size = s.blk.size.toNat ∧ (hostView s).tblBase = s.blk.tblBase.toNat ∧
    (hostView s).idx = s.blk.idx.toNat ∧ (hostView s).att = s.blk.att.toNat

/-! ### The device's writes -/

/-- A DMA move of the device writes its one byte if the enable command has been written, and nothing before it; nothing else of the
machine changes (10_state R62). When the device may write, and one byte a move, is the model's form (log entry 17). -/
def Obligations.DeviceWritesOnceEnabled : Prop :=
  ∀ (s : State) (a : Addr) (b : Byte) (rest : List Move), s.inp.moves = .dma a b :: rest →
    ∃ t, step s = .next t ∧
      t = { s with env := { s.env with mem := t.env.mem }, inp := { s.inp with moves := rest } } ∧
      ((∀ v, .regWrite s.par.offQctl v ∉ s.env.trace) → t.env.mem = s.env.mem) ∧
      (Canonical s → (∃ v, .regWrite s.par.offQctl v ∈ s.env.trace) →
        ∀ x, t.env.mem.read x = if x = a.toNat then some b else s.env.mem.read x)

/-! ### Frames -/

/-- Which registers an instruction writes: no other changes, and no instruction changes the parameters (10_state R38, the table's
column 'written by', with SEQ for all and the last steps of the runs for BUSY and RESULT). -/
def Obligations.RegistersKeepTheirValue : Prop :=
  ∀ (i : Instr) (s t : State), exec i s = .next t →
    t.par = s.par ∧
    (i ∉ [.nAlloc, .bEmit, .wPoll] → t.blk.fsm = s.blk.fsm) ∧
    (i ≠ .nAlloc → t.blk.role = s.blk.role ∧ t.blk.size = s.blk.size ∧ t.blk.tblBase = s.blk.tblBase) ∧
    ((∀ r n, i ≠ .new r n) → i ≠ .init → t.blk.cmdreg = s.blk.cmdreg) ∧
    (i ∉ [.init, .bEmit, .uClear] → t.blk.idx = s.blk.idx) ∧
    (i ∉ [.bAlloc, .uFree] → t.blk.buf = s.blk.buf) ∧
    (i ≠ .pCtlr → t.blk.ctltmp = s.blk.ctltmp) ∧
    (i ∉ [.pEn, .wPoll] → t.blk.att = s.blk.att) ∧
    (i ≠ .pEn → t.blk.prog = s.blk.prog) ∧
    ((∀ r n, i ≠ .new r n) → i ∉ [.init, .nAlloc, .uDone, .tNop, .wPoll, .wTmo] →
      t.blk.busy = s.blk.busy ∧ t.blk.result = s.blk.result)

/-- Which bytes of memory an instruction changes: B_STAMP and U_CLEAR the 8 bytes of their slot's address field, N_ALLOC and B_ALLOC (the
allocator's zero-fill) the bytes of the allocation answered, every other instruction none (10_state R62, 20_memory R68, R89). That
U_FREE changes none is log entry 18, that the zero-fill follows every answer is log entry 5. -/
def Obligations.MemoryKeepsItsBytes : Prop :=
  ∀ (i : Instr) (s t : State) (x : Nat), Canonical s → exec i s = .next t →
    (i = .bStamp → ¬ (slotAddr s s.blk.idx.toNat ≤ x ∧ x < slotAddr s s.blk.idx.toNat + 8)) →
    (i = .uClear → ¬ (slotAddr s (stepBack s).toNat ≤ x ∧ x < slotAddr s (stepBack s).toNat + 8)) →
    (i = .nAlloc → ∀ a, allocAnswer s = some a →
      ¬ (a.toNat ≤ x ∧ x < a.toNat + s.blk.cmdreg.toNat / 2 ^ 32 * s.par.slotSize)) →
    (i = .bAlloc → ∀ a, allocAnswer s = some a → ¬ (a.toNat ≤ x ∧ x < a.toNat + 4096)) →
    t.env.mem.read x = s.env.mem.read x

/-! ### The sequencer's program -/

/-- The table of 30_encoding R104: code, instruction, kind of external transaction, codes of the successors. IDLE is no micro-operation:
its code decodes to none, and where the controller would have the step nothing changes and no transaction is made; SEQ leaves IDLE by a
submission only. That the controller's turn in IDLE is a step that changes nothing, where the spec has no step, is the model's form (log
entry 2). -/
def Obligations.SequencerFollowsItsTable : Prop :=
  (∀ row ∈ ([
      (0x01, .nAlloc, some .alloc, [0x00]), (0x02, .bAlloc, some .alloc, [0x03, 0x05, 0x07]),
      (0x03, .bStamp, some .memWrite, [0x04]), (0x04, .bEmit, some .emit, [0x02, 0x09, 0x08]),
      (0x05, .uClear, some .memWrite, [0x06]), (0x06, .uFree, some .release, [0x05, 0x07]),
      (0x07, .uDone, none, [0x00]), (0x08, .tNop, none, [0x00]),
      (0x09, .pBal, some .regWrite, [0x0A]), (0x0A, .pBah, some .regWrite, [0x0B]),
      (0x0B, .pLen, some .regWrite, [0x0C]), (0x0C, .pCtlr, some .regRead, [0x0D]),
      (0x0D, .pCtlw, some .regWrite, [0x0E]), (0x0E, .pEn, some .regWrite, [0x0F]),
      (0x0F, .wPoll, some .regRead, [0x00, 0x10]), (0x10, .wWait, none, [0x0F, 0x11]),
      (0x11, .wTmo, some .emit, [0x00])] : List (Nat × Instr × Option Kind × List Nat)),
    encode row.2.1 = .micro (BitVec.ofNat 5 row.1) ∧
    ∀ s t, exec row.2.1 s = .next t →
      t.blk.seq.toNat ∈ row.2.2.2 ∧
      match row.2.2.1 with
      | none => t.env.trace = s.env.trace
      | some kind => ∃ x, t.env.trace = s.env.trace ++ [x] ∧ kindOf x = kind) ∧
  (∀ c : SeqCode, 0x12 ≤ c.toNat → decode (.micro c) = .error .unusedCode) ∧
  (∀ c : SeqCode, c.toNat = 0 → decode (.micro c) = .error .idle) ∧
  (∀ s : State, s.blk.seq.toNat = 0 → controllerMove s = .next s) ∧
  (∀ s t, s.blk.seq.toNat = 0 → step s = .next t → t.blk.seq.toNat ≠ 0 → ∃ w rest, s.inp.moves = .submit w :: rest)

/-- One step makes at most one external transaction, and what is recorded stays recorded: the event log only grows, by the records
emitted (00_scope R11, 10_state R65; the record of transactions is the model's own, log entry 11). -/
def Obligations.OneTransactionPerStep : Prop :=
  ∀ s t : State, step s = .next t →
    (t.env.trace = s.env.trace ∧ t.env.events = s.env.events) ∨
    ∃ x, t.env.trace = s.env.trace ++ [x] ∧
      t.env.events = s.env.events ++ (match x with | .emit e => [e] | _ => [])

/-! ### Invariants -/

/-- Every step keeps memory and the BUF file in their canonical forms, which are the model's own (log entries 6 and 10). -/
def Obligations.StepKeepsCanonicalForm : Prop :=
  ∀ s t : State, Canonical s → step s = .next t → Canonical t

/-- BUSY = 1 if and only if SEQ is not IDLE: true after reset and kept by every step (10_state R42). -/
def Obligations.BusyMeansSequencing : Prop :=
  BusyIffSequencing State.reset ∧ ∀ s t : State, BusyIffSequencing s → step s = .next t → BusyIffSequencing t

/-- ATT stays between 0 and 1000 (10_state R51). -/
def Obligations.AttemptsStayBounded : Prop :=
  ∀ s t : State, AttemptsBounded s → step s = .next t → AttemptsBounded t

/-- Every step keeps the lifecycle: at each SEQ code the state, the counters, the flags and the entries of BUF are as the rules say
(10_state R39, R40, R44, R45, R47, R49, R52, R53, R54, R67). -/
def Obligations.StepKeepsLifecycle : Prop :=
  ∀ s t : State, Phase s → step s = .next t → Phase t

/-- With an allocator that meets 20_memory R85, every step keeps the ring's ownership: a table that is its own live, aligned allocation,
pages that are live, aligned, not 0 and apart from each other and the table (10_state R46, R49 d, R64). -/
def Obligations.StepKeepsOwnership : Prop :=
  ∀ s t : State, Phase s → Owned s → AllocatorMeets s → step s = .next t → Owned t

/-- With such an allocator, and as long as the device has not been given the enable command, every step keeps what the table holds: the
stamped slots their buffer's address, every other byte 0 (40_construction R118, 41_binding R126, R128). When the device may write is
log entry 17. -/
def Obligations.StepKeepsTableContents : Prop :=
  ∀ s t : State, Canonical s → Phase s → Owned s → Stamped s → AllocatorMeets s → step s = .next t → Stamped t

/-- The machine of `State.reset` meets every invariant of this file. For the environment that rests on the start values and the forms the
model chose: nothing known of memory, nothing live, nothing recorded (log entries 6, 10 and 12). -/
def Obligations.StartStateMeetsInvariants : Prop :=
  Canonical State.reset ∧ BusyIffSequencing State.reset ∧ AttemptsBounded State.reset ∧ Phase State.reset ∧ Owned State.reset ∧ Stamped State.reset

/-- No run faults: in a state of the lifecycle, with a table inside the address space and a bounded attempt count, every step answers a
next state. -/
def Obligations.LifecycleNeverStops : Prop :=
  ∀ s : State, Phase s → Owned s → AttemptsBounded s → ∃ t, step s = .next t

/-- A ring that is BOUND and whose device has not been enabled holds in every address field the address of its own buffer: not 0, a
multiple of 4096, of a live zero-filled page, and no two slots share one (41_binding R126). -/
def Obligations.BoundRingIsStamped : Prop :=
  ∀ s : State, Phase s → Owned s → Stamped s → s.blk.fsm = .bound → deviceEnabled s = false →
    ∀ i, i < s.blk.size.toNat → ∃ a, bufGet s i = some a ∧ a ≠ 0#64 ∧ a.toNat % 4096 = 0 ∧ ⟨a, 4096, .both⟩ ∈ s.env.live ∧
      (∀ k, k < 8 → s.env.mem.read (slotAddr s i + k) = some (BitVec.ofNat 8 (a.toNat / 2 ^ (8 * k)))) ∧
      (∀ o, o < 4096 → s.env.mem.read (a.toNat + o) = some 0#8) ∧
      (∀ j, j < s.blk.size.toNat → j ≠ i → bufGet s j ≠ some a)

/-- At no time does a slot hold the address of memory the allocator has taken back: when U_FREE releases a buffer no address field of the
table reads as its address (41_binding R128). -/
def Obligations.ReleasedBufferIsNotStamped : Prop :=
  ∀ (s : State) (a : Addr), Phase s → Owned s → Stamped s → deviceEnabled s = false → s.blk.seq = 0x06#5 →
    bufGet s s.blk.idx.toNat = some a → ∀ i, i < s.blk.size.toNat → ¬ FieldReads s i a

/-- The only transitions of FSM (10_state R40). -/
def Obligations.FsmTransitionsAreFour : Prop :=
  ∀ s t : State, Phase s → step s = .next t →
    t.blk.fsm = s.blk.fsm ∨
    (s.blk.fsm = .empty ∧ t.blk.fsm = .constructed ∧ decode (.micro s.blk.seq) = .ok .nAlloc ∧ (allocAnswer s).isSome = true) ∨
    (s.blk.fsm = .constructed ∧ t.blk.fsm = .bound ∧ decode (.micro s.blk.seq) = .ok .bEmit ∧
      s.blk.idx.toNat + 1 = s.blk.size.toNat) ∨
    (s.blk.fsm = .bound ∧ t.blk.fsm = .enabled ∧ decode (.micro s.blk.seq) = .ok .wPoll ∧ s.blk.role = .receive ∧
      readAnswer s &&& s.par.ackMask = 0#32) ∨
    (t.blk.fsm = .empty ∧ resetNext s = true)

/-- After a successful NEW the table is never resized: SIZE, TBL_BASE and ROLE never change until reset (40_construction R119,
44_tx_path R149). -/
def Obligations.RingIsNeverResized : Prop :=
  ∀ s t : State, Phase s → s.blk.fsm ≠ .empty → resetNext s = false → step s = .next t →
    t.blk.size = s.blk.size ∧ t.blk.tblBase = s.blk.tblBase ∧ t.blk.role = s.blk.role ∧ t.blk.fsm ≠ .empty

/-- A transmit ring touches no register of the device and is never enabled (44_tx_path R146, R147). -/
def Obligations.TransmitRingTouchesNoRegister : Prop :=
  ∀ s t : State, Phase s → s.blk.role = .transmit → step s = .next t →
    t.env.trace.filter isRegister = s.env.trace.filter isRegister ∧ s.blk.fsm ≠ .enabled ∧ t.blk.fsm ≠ .enabled

/-- The end of a run (70_reset R176): the step that sets BUSY to 0 leaves SEQ = IDLE and RESULT not NONE, and is one of the five last
steps; a reset apart. -/
def Obligations.RunsEndWithAResult : Prop :=
  ∀ s t : State, Phase s → resetNext s = false → s.blk.busy = true → step s = .next t → t.blk.busy = false →
    t.blk.seq.toNat = 0 ∧ t.blk.result ≠ .none ∧
      ∃ i ∈ [Instr.nAlloc, .uDone, .tNop, .wPoll, .wTmo], decode (.micro s.blk.seq) = .ok i

/-- Every run ends (70_reset R189): undisturbed, after at most `max (3 * SIZE + 2007) (5 * SIZE - 3)` steps of an INIT and one step of a NEW,
whatever the allocator and the device answer. -/
def Obligations.EveryRunEnds : Prop :=
  ∀ s : State, Phase s → Owned s → AttemptsBounded s → Undisturbed s → s.blk.busy = true →
    ∃ k t, k ≤ max (3 * s.blk.size.toNat + 2007) (5 * s.blk.size.toNat - 3) ∧ (s.blk.fsm = .empty → k = 1) ∧
      Host.Core.run core k s = .next t ∧ t.blk.busy = false ∧ t.blk.result ≠ .none
end

