-- ==== Sys2Proof/Laws/Encoding.lean ====
section
/-! SUPPORT. Laws of the encoding: the fields of a command word as arithmetic on its number (30_encoding R99), and the decoder in
those terms. -/

namespace Sys2Proof

theorem cmdOp_toNat (w : CmdWord) : (cmdOp w).toNat = w.toNat % 2 ^ 8 := by simp [cmdOp]

theorem cmdRole_toNat (w : CmdWord) : (cmdRole w).toNat = w.toNat / 2 ^ 8 % 2 := by
  simp [cmdRole, Nat.shiftRight_eq_div_pow]

theorem cmdRsv_toNat (w : CmdWord) : (cmdRsv w).toNat = w.toNat / 2 ^ 9 % 2 ^ 23 := by
  simp [cmdRsv, Nat.shiftRight_eq_div_pow]

theorem cmdSize_toNat (w : CmdWord) : (cmdSize w).toNat = w.toNat / 2 ^ 32 := by
  have := w.isLt
  simp [cmdSize, Nat.shiftRight_eq_div_pow]
  omega

theorem commandWord_toNat (size : Word32) (role : BitVec 1) (op : BitVec 8) :
    (commandWord size role op).toNat = size.toNat * 2 ^ 32 + role.toNat * 2 ^ 8 + op.toNat := by
  have h1 := role.isLt
  have h2 := op.isLt
  unfold commandWord
  rw [BitVec.toNat_append, BitVec.toNat_append, BitVec.toNat_append]
  simp only [BitVec.toNat_ofNat, Nat.zero_mod, Nat.or_zero]
  rw [← Nat.shiftLeft_add_eq_or_of_lt h2, ← Nat.shiftLeft_add_eq_or_of_lt h1]
  simp only [Nat.shiftLeft_eq]
  omega

/-- A bit vector equals a literal exactly when their numbers are equal. -/
theorem bv_eq_ofNat {n : Nat} {a : BitVec n} {k : Nat} (hk : k < 2 ^ n) : a = BitVec.ofNat n k ↔ a.toNat = k := by
  rw [← BitVec.toNat_inj, BitVec.toNat_ofNat, Nat.mod_eq_of_lt hk]

/-- The decoder of command words, in arithmetic on the word's number. -/
theorem decodeCommand_eq (w : CmdWord) :
    decodeCommand w =
      if w.toNat % 2 ^ 8 = 1 then
        if w.toNat / 2 ^ 9 % 2 ^ 23 = 0 then
          .ok (.new (if w.toNat / 2 ^ 8 % 2 = 1 then .transmit else .receive) (w.toNat / 2 ^ 32))
        else .error .reservedBits
      else if w.toNat % 2 ^ 8 = 2 then
        if w.toNat / 2 ^ 9 % 2 ^ 23 = 0 then
          if w.toNat / 2 ^ 8 % 2 = 0 ∧ w.toNat / 2 ^ 32 = 0 then .ok .init else .error .initOperand
        else .error .reservedBits
      else .error .reservedOpcode := by
  have h1 : cmdOp w = 0x01#8 ↔ w.toNat % 2 ^ 8 = 1 := by rw [bv_eq_ofNat (by decide), cmdOp_toNat]
  have h2 : cmdOp w = 0x02#8 ↔ w.toNat % 2 ^ 8 = 2 := by rw [bv_eq_ofNat (by decide), cmdOp_toNat]
  have h3 : cmdRsv w = 0#23 ↔ w.toNat / 2 ^ 9 % 2 ^ 23 = 0 := by rw [bv_eq_ofNat (by decide), cmdRsv_toNat]
  have h4 : cmdRole w = 0#1 ↔ w.toNat / 2 ^ 8 % 2 = 0 := by rw [bv_eq_ofNat (by decide), cmdRole_toNat]
  have h5 : cmdRole w = 1#1 ↔ w.toNat / 2 ^ 8 % 2 = 1 := by rw [bv_eq_ofNat (by decide), cmdRole_toNat]
  have h6 : cmdSize w = 0#32 ↔ w.toNat / 2 ^ 32 = 0 := by rw [bv_eq_ofNat (by decide), cmdSize_toNat]
  simp only [decodeCommand, roleOfCode, h1, h2, h3, h4, h5, h6, cmdSize_toNat]

/-- The code of the role a code names is that code. -/
theorem role_code_of_code (b : BitVec 1) : (roleOfCode b).code = b := by
  revert b
  decide

end Sys2Proof
end

