-- ==== Sys2Proof/Laws/Memory.lean ====
section
/-! SUPPORT. Laws of the sparse maps, the runs and bus memory: what a read gives after each operation, and that each operation
keeps the canonical form. -/

namespace Sys2Proof.Machine

/-! ### Sparse maps -/

theorem sparseGet_set {β : Type} (l : List (Nat × β)) (a x : Nat) (v : β) :
    sparseGet (sparseSet l a v) x = if x = a then some v else sparseGet l x := by
  induction l with
  | nil => simp only [sparseSet, sparseGet, eq_comm]
  | cons c t ih =>
    obtain ⟨k, y⟩ := c
    unfold sparseSet
    split
    · by_cases hx : x = a
      · simp [sparseGet, hx]
      · simp [sparseGet, hx, Ne.symm hx]
    · split
      · subst k
        by_cases hx : x = a
        · simp [sparseGet, hx]
        · simp [sparseGet, hx, Ne.symm hx]
      · simp only [sparseGet, ih]
        by_cases hx : x = a
        · subst x
          have : ¬ k = a := fun h => by simp_all
          simp [this]
        · simp [hx]

theorem sparseGet_erase {β : Type} (l : List (Nat × β)) (lo hi x : Nat) :
    sparseGet (sparseErase l lo hi) x = if lo ≤ x ∧ x < hi then none else sparseGet l x := by
  induction l with
  | nil => simp [sparseErase, sparseGet]
  | cons c t ih =>
    obtain ⟨k, y⟩ := c
    unfold sparseErase at ih ⊢
    rw [List.filter_cons]
    by_cases hk : k < lo ∨ hi ≤ k
    · rw [if_pos (by simpa using hk)]
      simp only [sparseGet, ih]
      by_cases hx : k = x
      · subst x
        have : ¬ (lo ≤ k ∧ k < hi) := by omega
        simp [this]
      · simp [hx]
    · rw [if_neg (by simpa using hk), ih]
      by_cases hx : lo ≤ x ∧ x < hi
      · simp [hx]
      · have : ¬ k = x := by omega
        simp [sparseGet, this, hx]

theorem mem_sparseSet {β : Type} {l : List (Nat × β)} {a : Nat} {v : β} {c : Nat × β}
    (h : c ∈ sparseSet l a v) : c = (a, v) ∨ c ∈ l := by
  induction l with
  | nil => simp_all [sparseSet]
  | cons d t ih =>
    unfold sparseSet at h
    split at h
    · simpa using h
    · split at h
      · rcases List.mem_cons.mp h with h | h <;> simp [h]
      · rcases List.mem_cons.mp h with h | h
        · simp [h]
        · rcases ih h with h | h <;> simp [h]

theorem sparseWf_set {β : Type} {l : List (Nat × β)} (hl : sparseWf l) (a : Nat) (v : β) :
    sparseWf (sparseSet l a v) := by
  induction l with
  | nil => simp [sparseSet]
  | cons c t ih =>
    obtain ⟨hc, ht⟩ := List.pairwise_cons.mp hl
    unfold sparseSet
    split
    case isTrue h =>
      refine List.pairwise_cons.mpr ⟨fun d hd => ?_, hl⟩
      rcases List.mem_cons.mp hd with rfl | hd
      · exact h
      · exact Nat.lt_trans h (hc d hd)
    case isFalse h =>
      split
      case isTrue h2 => exact List.pairwise_cons.mpr ⟨fun d hd => h2 ▸ hc d hd, ht⟩
      case isFalse h2 =>
        refine List.pairwise_cons.mpr ⟨fun d hd => ?_, ih ht⟩
        rcases mem_sparseSet hd with rfl | hd
        · show c.1 < a
          omega
        · exact hc d hd

theorem sparseWf_erase {β : Type} {l : List (Nat × β)} (hl : sparseWf l) (lo hi : Nat) :
    sparseWf (sparseErase l lo hi) := List.Pairwise.filter _ hl

theorem mem_sparseErase {β : Type} {l : List (Nat × β)} {lo hi : Nat} {c : Nat × β} :
    c ∈ sparseErase l lo hi ↔ c ∈ l ∧ (c.1 < lo ∨ hi ≤ c.1) := by
  simp [sparseErase]

/-! ### Runs -/

theorem runsMem_cons (r : Nat × Nat) (t : List (Nat × Nat)) (x : Nat) :
    runsMem (r :: t) x = (decide (r.1 ≤ x ∧ x < r.2) || runsMem t x) := by simp [runsMem]

theorem runsMem_iff {l : List (Nat × Nat)} {x : Nat} : runsMem l x = true ↔ ∃ r ∈ l, r.1 ≤ x ∧ x < r.2 := by
  simp [runsMem]

theorem runsWf_cons {r : Nat × Nat} {t : List (Nat × Nat)} :
    runsWf (r :: t) ↔ r.1 < r.2 ∧ (∀ q ∈ t, r.2 < q.1) ∧ runsWf t := by
  simp only [runsWf, List.mem_cons, forall_eq_or_imp, List.pairwise_cons]
  tauto

theorem runsMem_add {l : List (Nat × Nat)} (hl : runsWf l) {lo hi : Nat} (h : lo < hi) (x : Nat) :
    runsMem (runsAdd l lo hi) x = (decide (lo ≤ x ∧ x < hi) || runsMem l x) := by
  induction l generalizing lo hi with
  | nil => simp [runsAdd, runsMem]
  | cons r t ih =>
    obtain ⟨l0, h0⟩ := r
    obtain ⟨hr, -, ht⟩ := runsWf_cons.mp hl
    simp only at hr
    unfold runsAdd
    split
    · simp [runsMem_cons]
    · split
      · rw [runsMem_cons, ih ht h, runsMem_cons]
        exact Bool.or_left_comm _ _ _
      · rw [ih ht (by omega), runsMem_cons, ← Bool.or_assoc]
        congr 1
        rw [Bool.eq_iff_iff]
        simp only [decide_eq_true_eq, Bool.or_eq_true]
        omega

theorem mem_runsAdd {l : List (Nat × Nat)} {lo hi : Nat} {r : Nat × Nat} (hr : r ∈ runsAdd l lo hi) :
    (lo ≤ r.1 ∨ ∃ q ∈ l, q.1 ≤ r.1) ∧ (r.2 ≤ hi ∨ ∃ q ∈ l, r.2 ≤ q.2) := by
  induction l generalizing lo hi with
  | nil => simp_all [runsAdd]
  | cons q t ih =>
    obtain ⟨l0, h0⟩ := q
    unfold runsAdd at hr
    split at hr
    · rcases List.mem_cons.mp hr with rfl | hr
      · simp
      · exact ⟨.inr ⟨r, hr, le_refl _⟩, .inr ⟨r, hr, le_refl _⟩⟩
    · split at hr
      · rcases List.mem_cons.mp hr with rfl | hr
        · exact ⟨.inr ⟨(l0, h0), by simp, le_refl _⟩, .inr ⟨(l0, h0), by simp, le_refl _⟩⟩
        · obtain ⟨h1, h2⟩ := ih hr
          refine ⟨h1.imp id ?_, h2.imp id ?_⟩ <;> rintro ⟨q, hq, hle⟩ <;> exact ⟨q, by simp [hq], hle⟩
      · obtain ⟨h1, h2⟩ := ih hr
        constructor
        · rcases h1 with h1 | ⟨q, hq, hle⟩
          · by_cases hlo : lo ≤ l0
            · exact .inl (by omega)
            · exact .inr ⟨(l0, h0), by simp, by simp; omega⟩
          · exact .inr ⟨q, by simp [hq], hle⟩
        · rcases h2 with h2 | ⟨q, hq, hle⟩
          · by_cases hlo : h0 ≤ hi
            · exact .inl (by omega)
            · exact .inr ⟨(l0, h0), by simp, by simp; omega⟩
          · exact .inr ⟨q, by simp [hq], hle⟩

theorem runsWf_add {l : List (Nat × Nat)} (hl : runsWf l) {lo hi : Nat} (h : lo < hi) : runsWf (runsAdd l lo hi) := by
  induction l generalizing lo hi with
  | nil => exact ⟨by simpa [runsAdd] using h, by simp [runsAdd]⟩
  | cons r t ih =>
    obtain ⟨l0, h0⟩ := r
    obtain ⟨hr, hrt, ht⟩ := runsWf_cons.mp hl
    simp only at hr hrt
    unfold runsAdd
    split
    · refine runsWf_cons.mpr ⟨h, fun q hq => ?_, hl⟩
      rcases List.mem_cons.mp hq with rfl | hq
      · assumption
      · have := hrt q hq
        simp only
        omega
    · split
      · refine runsWf_cons.mpr ⟨hr, fun q hq => ?_, ih ht h⟩
        rcases (mem_runsAdd hq).1 with h1 | ⟨q', hq', hle⟩
        · simp only
          omega
        · have := hrt q' hq'
          simp only
          omega
      · exact ih ht (by omega)

theorem mem_runPieces {lo hi : Nat} {r p : Nat × Nat} (h : p ∈ runPieces lo hi r) :
    p.1 < p.2 ∧ r.1 ≤ p.1 ∧ p.2 ≤ r.2 ∧ (p.2 ≤ lo ∨ hi ≤ p.1) := by
  unfold runPieces at h
  rcases List.mem_append.mp h with h | h <;> split at h <;> simp_all

theorem runsMem_pieces {lo hi : Nat} (h : lo < hi) (r : Nat × Nat) (x : Nat) :
    runsMem (runPieces lo hi r) x = (decide (r.1 ≤ x ∧ x < r.2) && !decide (lo ≤ x ∧ x < hi)) := by
  rw [Bool.eq_iff_iff]
  unfold runPieces runsMem
  split <;> split <;> simp <;> omega

theorem runsMem_remove (l : List (Nat × Nat)) {lo hi : Nat} (h : lo < hi) (x : Nat) :
    runsMem (runsRemove l lo hi) x = (runsMem l x && !decide (lo ≤ x ∧ x < hi)) := by
  induction l with
  | nil => simp [runsRemove, runsMem]
  | cons r t ih =>
    have : runsRemove (r :: t) lo hi = runPieces lo hi r ++ runsRemove t lo hi := by simp [runsRemove]
    rw [this, runsMem_cons, Bool.and_or_distrib_right, ← ih, ← runsMem_pieces h]
    simp [runsMem]

theorem runsWf_pieces {lo hi : Nat} (h : lo < hi) (r : Nat × Nat) : runsWf (runPieces lo hi r) := by
  refine ⟨fun p hp => (mem_runPieces hp).1, ?_⟩
  unfold runPieces
  split <;> split <;> simp
  omega

theorem runsWf_append {l k : List (Nat × Nat)} (hl : runsWf l) (hk : runsWf k) (h : ∀ x ∈ l, ∀ y ∈ k, x.2 < y.1) :
    runsWf (l ++ k) := by
  refine ⟨fun r hr => ?_, List.pairwise_append.mpr ⟨hl.2, hk.2, h⟩⟩
  rcases List.mem_append.mp hr with hr | hr
  · exact hl.1 r hr
  · exact hk.1 r hr

theorem mem_runsRemove {l : List (Nat × Nat)} {lo hi : Nat} {p : Nat × Nat} (h : p ∈ runsRemove l lo hi) :
    ∃ r ∈ l, r.1 ≤ p.1 ∧ p.2 ≤ r.2 := by
  obtain ⟨r, hr, hp⟩ := List.mem_flatMap.mp h
  exact ⟨r, hr, (mem_runPieces hp).2.1, (mem_runPieces hp).2.2.1⟩

theorem runsWf_remove {l : List (Nat × Nat)} (hl : runsWf l) {lo hi : Nat} (h : lo < hi) :
    runsWf (runsRemove l lo hi) := by
  induction l with
  | nil => exact hl
  | cons r t ih =>
    obtain ⟨-, hrt, ht⟩ := runsWf_cons.mp hl
    have : runsRemove (r :: t) lo hi = runPieces lo hi r ++ runsRemove t lo hi := by simp [runsRemove]
    rw [this]
    refine runsWf_append (runsWf_pieces h r) (ih ht) fun x hx y hy => ?_
    obtain ⟨q, hq, hle, -⟩ := mem_runsRemove hy
    have h1 := (mem_runPieces hx).2.2.1
    have h2 := hrt q hq
    omega

/-! ### Bus memory -/

theorem Memory.read_writeByte {m : Memory} (hm : m.wf) (a : Nat) (b : Byte) (x : Nat) :
    (m.writeByte a b).read x = if x = a then some b else m.read x := by
  have hrange : (a ≤ x ∧ x < a + 1) ↔ x = a := by omega
  unfold Memory.writeByte Memory.read Memory.unlisted
  by_cases hb : b = 0#8
  · rw [if_pos hb]
    simp only [sparseGet_erase, runsMem_add hm.2.1 (Nat.lt_succ_self a), hrange]
    by_cases hx : x = a <;> simp [hx, hb]
  · rw [if_neg hb]
    simp only [sparseGet_set, runsMem_remove _ (Nat.lt_succ_self a), hrange]
    by_cases hx : x = a <;> simp [hx]

theorem Memory.wf_writeByte {m : Memory} (hm : m.wf) {a : Nat} (ha : a < Config.busTop) (b : Byte) :
    (m.writeByte a b).wf := by
  obtain ⟨h1, h2, h3, h4⟩ := hm
  unfold Memory.writeByte
  split
  · refine ⟨sparseWf_erase h1 _ _, runsWf_add h2 (Nat.lt_succ_self a), fun c hc => ?_, fun r hr => ?_⟩
    · obtain ⟨hc, hr⟩ := mem_sparseErase.mp hc
      obtain ⟨ht, hz, hn⟩ := h3 c hc
      refine ⟨ht, hz, ?_⟩
      rw [runsMem_add h2 (Nat.lt_succ_self a), hn]
      simpa using by omega
    · rcases (mem_runsAdd hr).2 with h | ⟨q, hq, h⟩
      · omega
      · exact le_trans h (h4 q hq)
  · refine ⟨sparseWf_set h1 _ _, runsWf_remove h2 (Nat.lt_succ_self a), fun c hc => ?_, fun r hr => ?_⟩
    · rw [runsMem_remove _ (Nat.lt_succ_self a)]
      rcases mem_sparseSet hc with rfl | hc
      · exact ⟨ha, by assumption, by simp⟩
      · obtain ⟨ht, hz, hn⟩ := h3 c hc
        exact ⟨ht, hz, by simp [hn]⟩
    · obtain ⟨q, hq, -, h⟩ := mem_runsRemove hr
      exact le_trans h (h4 q hq)

theorem Memory.wf_writeBytes {m : Memory} (hm : m.wf) {a : Nat} {bs : List Byte} (ha : a + bs.length ≤ Config.busTop) :
    (m.writeBytes a bs).wf := by
  induction bs generalizing m a with
  | nil => exact hm
  | cons b bs ih =>
    rw [List.length_cons] at ha
    exact ih (Memory.wf_writeByte hm (by omega) b) (by omega)

theorem Memory.read_writeBytes {m : Memory} (hm : m.wf) {a : Nat} {bs : List Byte} (ha : a + bs.length ≤ Config.busTop)
    (x : Nat) : (m.writeBytes a bs).read x = if a ≤ x ∧ x < a + bs.length then bs[x - a]? else m.read x := by
  induction bs generalizing m a with
  | nil =>
    have : ¬ (a ≤ x ∧ x < a) := by omega
    simp [Memory.writeBytes, this]
  | cons b bs ih =>
    rw [List.length_cons] at ha ⊢
    rw [Memory.writeBytes, ih (Memory.wf_writeByte hm (by omega) b) (by omega), Memory.read_writeByte hm]
    by_cases hx : x = a
    · subst x
      simp
    · by_cases hr : a + 1 ≤ x ∧ x < a + 1 + bs.length
      · have h2 : a ≤ x ∧ x < a + (bs.length + 1) := by omega
        rw [if_pos hr, if_pos h2, show x - a = (x - (a + 1)) + 1 by omega, List.getElem?_cons_succ]
      · have h2 : ¬ (a ≤ x ∧ x < a + (bs.length + 1)) := by omega
        rw [if_neg hr, if_neg h2, if_neg hx]

theorem leBytes_length (v : BitVec 64) : (leBytes v).length = 8 := by simp [leBytes, Config.addrBytes]

theorem leBytes_get (v : BitVec 64) {k : Nat} (hk : k < 8) : (leBytes v)[k]? = some (byteOf v k) := by
  simp [leBytes, Config.addrBytes, hk]

/-- What memory reads as after an 8-byte store (20_memory R71). -/
theorem Memory.read_write64 {m : Memory} (hm : m.wf) {a : Nat} (ha : addrFits a) (v : BitVec 64) (x : Nat) :
    (m.write64 a v).read x = if a ≤ x ∧ x < a + 8 then some (byteOf v (x - a)) else m.read x := by
  have ha' : a + 8 ≤ Config.busTop := ha
  rw [Memory.write64, Memory.read_writeBytes hm (by rwa [leBytes_length]), leBytes_length]
  split
  · rw [leBytes_get v (by omega)]
  · rfl

theorem Memory.wf_write64 {m : Memory} (hm : m.wf) {a : Nat} (ha : addrFits a) (v : BitVec 64) : (m.write64 a v).wf :=
  Memory.wf_writeBytes hm (by rw [leBytes_length]; exact ha)

/-- What memory reads as after the allocator zero-fills a region (20_memory R85 c). -/
theorem Memory.read_zeroFill {m : Memory} (hm : m.wf) (lo hi x : Nat) :
    (m.zeroFill lo hi).read x = if lo ≤ x ∧ x < hi then some 0#8 else m.read x := by
  unfold Memory.zeroFill
  split
  · rename_i h
    simp only [Memory.read, Memory.unlisted, sparseGet_erase, runsMem_add hm.2.1 h]
    by_cases hx : lo ≤ x ∧ x < hi <;> simp [hx]
  · rw [if_neg (by omega)]

theorem Memory.wf_zeroFill {m : Memory} (hm : m.wf) {lo hi : Nat} (hhi : hi ≤ Config.busTop) : (m.zeroFill lo hi).wf := by
  obtain ⟨h1, h2, h3, h4⟩ := hm
  unfold Memory.zeroFill
  split
  case isFalse => exact ⟨h1, h2, h3, h4⟩
  case isTrue h =>
    refine ⟨sparseWf_erase h1 _ _, runsWf_add h2 h, fun c hc => ?_, fun r hr => ?_⟩
    · obtain ⟨hc, hr⟩ := mem_sparseErase.mp hc
      obtain ⟨ht, hz, hn⟩ := h3 c hc
      refine ⟨ht, hz, ?_⟩
      rw [runsMem_add h2 h, hn]
      simpa using by omega
    · rcases (mem_runsAdd hr).2 with h | ⟨q, hq, h⟩
      · omega
      · exact le_trans h (h4 q hq)

/-! ### Equal memories are equal data -/

theorem sparseGet_none_of_lt {β : Type} {l : List (Nat × β)} {x : Nat} (h : ∀ c ∈ l, x < c.1) : sparseGet l x = none := by
  induction l with
  | nil => rfl
  | cons c t ih =>
    have hc : c.1 ≠ x := (h c (by simp)).ne'
    rw [show c = (c.1, c.2) from rfl, sparseGet, if_neg hc]
    exact ih fun d hd => h d (by simp [hd])

/-- Two maps in canonical form with the same values are the same list. -/
theorem sparse_ext {β : Type} {l k : List (Nat × β)} (hl : sparseWf l) (hk : sparseWf k)
    (h : ∀ x, sparseGet l x = sparseGet k x) : l = k := by
  induction l generalizing k with
  | nil =>
    cases k with
    | nil => rfl
    | cons c t => simpa [sparseGet] using h c.1
  | cons c t ih =>
    obtain ⟨hc, ht⟩ := List.pairwise_cons.mp hl
    cases k with
    | nil => simpa [sparseGet] using h c.1
    | cons d u =>
      obtain ⟨hd, hu⟩ := List.pairwise_cons.mp hk
      obtain ⟨a, v⟩ := c
      obtain ⟨b, w⟩ := d
      simp only at hc hd
      have hab : a = b := by
        rcases Nat.lt_trichotomy a b with hlt | rfl | hlt
        · have := h a
          have hn : sparseGet u a = none := sparseGet_none_of_lt fun e he => Nat.lt_trans hlt (hd e he)
          simp [sparseGet, hn, hlt.ne'] at this
        · rfl
        · have := h b
          have hn : sparseGet t b = none := sparseGet_none_of_lt fun e he => Nat.lt_trans hlt (hc e he)
          simp [sparseGet, hn, hlt.ne'] at this
      subst b
      have hvw : v = w := by simpa [sparseGet] using h a
      subst w
      rw [ih ht hu fun x => ?_]
      by_cases hx : a = x
      · subst x
        rw [sparseGet_none_of_lt hc, sparseGet_none_of_lt hd]
      · simpa [sparseGet, hx] using h x

theorem runsMem_false_of_lt {l : List (Nat × Nat)} {x : Nat} (h : ∀ r ∈ l, x < r.1) : runsMem l x = false := by
  rw [Bool.eq_false_iff, ne_eq, runsMem_iff]
  rintro ⟨r, hr, hle, -⟩
  have := h r hr
  omega

/-- Two canonical lists of runs with the same addresses are the same list. -/
theorem runs_ext {l k : List (Nat × Nat)} (hl : runsWf l) (hk : runsWf k) (h : ∀ x, runsMem l x = runsMem k x) : l = k := by
  induction l generalizing k with
  | nil =>
    cases k with
    | nil => rfl
    | cons q u =>
      have hq := (runsWf_cons.mp hk).1
      have := h q.1
      rw [runsMem_cons] at this
      simp [runsMem, hq] at this
  | cons r t ih =>
    obtain ⟨hr, hrt, ht⟩ := runsWf_cons.mp hl
    cases k with
    | nil =>
      have := h r.1
      rw [runsMem_cons] at this
      simp [runsMem, hr] at this
    | cons q u =>
      obtain ⟨hq, hqu, hu⟩ := runsWf_cons.mp hk
      have tails : ∀ x, x ≤ r.2 → runsMem t x = false := fun x hx =>
        runsMem_false_of_lt fun e he => by have := hrt e he; omega
      have tails' : ∀ x, x ≤ q.2 → runsMem u x = false := fun x hx =>
        runsMem_false_of_lt fun e he => by have := hqu e he; omega
      have at_ : ∀ x, x ≤ r.2 → x ≤ q.2 → (r.1 ≤ x ∧ x < r.2 ↔ q.1 ≤ x ∧ x < q.2) := by
        intro x h1 h2
        have := h x
        rw [runsMem_cons, runsMem_cons, tails x h1, tails' x h2, Bool.or_false, Bool.or_false] at this
        exact decide_eq_decide.mp this
      have h1 : r.1 = q.1 := by
        have := at_ (min r.1 q.1) (by omega) (by omega)
        omega
      have h2 : r.2 = q.2 := by
        have := at_ (min r.2 q.2) (by omega) (by omega)
        omega
      have hrq : r = q := Prod.ext h1 h2
      subst q
      rw [ih ht hu fun x => ?_]
      rcases Nat.lt_or_ge r.2 x with hx | hx
      · have hno : ¬ (r.1 ≤ x ∧ x < r.2) := by omega
        have := h x
        rwa [runsMem_cons, runsMem_cons, decide_eq_false hno, Bool.false_or, Bool.false_or] at this
      · rw [tails x hx, tails' x hx]

/-- The cells of a canonical memory are its bytes that are not 0. -/
theorem Memory.cell_iff {m : Memory} (hm : m.wf) (x : Nat) (b : Byte) :
    sparseGet m.cells x = some b ↔ m.read x = some b ∧ b ≠ 0#8 := by
  have hget : ∀ l : List Host.Cell, (∀ c ∈ l, c.2 ≠ 0#8) → ∀ v, sparseGet l x = some v → v ≠ 0#8 := by
    intro l hl
    induction l with
    | nil => intro v hv; cases hv
    | cons c t ih =>
      intro v hv
      rw [show c = (c.1, c.2) from rfl, sparseGet] at hv
      split at hv
      · cases hv
        exact hl c (by simp)
      · exact ih (fun d hd => hl d (by simp [hd])) v hv
  unfold Memory.read
  cases hg : sparseGet m.cells x with
  | some v =>
    have := hget _ (fun c hc => (hm.2.2.1 c hc).2.1) v hg
    constructor
    · intro hv
      cases hv
      exact ⟨rfl, this⟩
    · exact fun hv => hv.1
  | none =>
    unfold Memory.unlisted
    refine ⟨fun hv => (nomatch hv), fun ⟨hv, hb⟩ => ?_⟩
    have hv' : (if runsMem m.zeros x then some (0#8 : Byte) else none) = some b := hv
    split at hv'
    · exact absurd (Option.some.inj hv').symm hb
    · cases hv'

/-- Two canonical memories that read alike everywhere are the same data. -/
theorem Memory.ext_read {m n : Memory} (hm : m.wf) (hn : n.wf) (h : ∀ x, m.read x = n.read x) : m = n := by
  have hc : m.cells = n.cells := by
    refine sparse_ext hm.1 hn.1 fun x => Option.ext fun b => ?_
    rw [Memory.cell_iff hm, Memory.cell_iff hn, h]
  have hnone : ∀ k : Memory, k.wf → ∀ x, runsMem k.zeros x = true → sparseGet k.cells x = none := by
    intro k hk x hx
    cases hg : sparseGet k.cells x with
    | none => rfl
    | some b =>
      have hmem : ∀ l : List Host.Cell, sparseGet l x = some b → (x, b) ∈ l := by
        intro l
        induction l with
        | nil => intro hv; cases hv
        | cons c t ih =>
          intro hv
          rw [show c = (c.1, c.2) from rfl, sparseGet] at hv
          split at hv
          · rename_i he
            cases hv
            subst x
            simp
          · exact List.mem_cons_of_mem _ (ih hv)
      have := (hk.2.2.1 _ (hmem _ hg)).2.2
      rw [hx] at this
      cases this
  have hz : m.zeros = n.zeros := by
    refine runs_ext hm.2.1 hn.2.1 fun x => ?_
    have hx := h x
    unfold Memory.read Memory.unlisted at hx
    have h1 := hnone m hm x
    have h2 := hnone n hn x
    cases hmz : runsMem m.zeros x <;> cases hnz : runsMem n.zeros x <;> simp_all
  obtain ⟨_, _⟩ := m
  obtain ⟨_, _⟩ := n
  simp_all

/-- An address outside the bus address space has no known value in a canonical memory. -/
theorem Memory.read_outside {m : Memory} (hm : m.wf) {x : Nat} (hx : Config.busTop ≤ x) : m.read x = none := by
  obtain ⟨-, -, h3, h4⟩ := hm
  have hget : ∀ l : List Host.Cell, (∀ c ∈ l, c.1 < Config.busTop) → sparseGet l x = none := by
    intro l hl
    induction l with
    | nil => rfl
    | cons c t ih =>
      have : c.1 ≠ x := by have := hl c (by simp); omega
      rw [show c = (c.1, c.2) from rfl, sparseGet, if_neg this]
      exact ih fun d hd => hl d (by simp [hd])
  have hz : runsMem m.zeros x = false := by
    rw [Bool.eq_false_iff, ne_eq, runsMem_iff]
    rintro ⟨r, hr, -, hlt⟩
    have := h4 r hr
    omega
  simp [Memory.read, Memory.unlisted, hget _ fun c hc => (h3 c hc).1, hz]

end Sys2Proof.Machine
end

