-- ==== Sys2Proof/Laws/State.lean ====
section
/-! SUPPORT. What each operation does to each part of State: one lemma per part per operation. -/

namespace Sys2Proof.Machine

/-! ### setSeq -/

@[simp] theorem setSeq_par (c : SeqCode) (s : State) : (setSeq c s).par = s.par := rfl

@[simp] theorem setSeq_blk (c : SeqCode) (s : State) : (setSeq c s).blk = { s.blk with seq := c } := rfl

@[simp] theorem setSeq_env (c : SeqCode) (s : State) : (setSeq c s).env = s.env := rfl

@[simp] theorem setSeq_inp (c : SeqCode) (s : State) : (setSeq c s).inp = s.inp := rfl

/-! ### bufSet -/

@[simp] theorem bufSet_par (i : Nat) (a : Addr) (s : State) : (bufSet s i a).par = s.par := rfl

@[simp] theorem bufSet_blk (i : Nat) (a : Addr) (s : State) : (bufSet s i a).blk =
      { s.blk with buf := sparseSet s.blk.buf i a } := rfl

@[simp] theorem bufSet_env (i : Nat) (a : Addr) (s : State) : (bufSet s i a).env = s.env := rfl

@[simp] theorem bufSet_inp (i : Nat) (a : Addr) (s : State) : (bufSet s i a).inp = s.inp := rfl

/-! ### bufClear -/

@[simp] theorem bufClear_par (i : Nat) (s : State) : (bufClear s i).par = s.par := rfl

@[simp] theorem bufClear_blk (i : Nat) (s : State) : (bufClear s i).blk =
      { s.blk with buf := sparseErase s.blk.buf i (i + 1) } := rfl

@[simp] theorem bufClear_env (i : Nat) (s : State) : (bufClear s i).env = s.env := rfl

@[simp] theorem bufClear_inp (i : Nat) (s : State) : (bufClear s i).inp = s.inp := rfl

/-! ### The device -/

/-- The device has been enabled: some write to OFF_QCTL is in the record. -/
theorem deviceEnabled_iff (s : State) : deviceEnabled s = true ↔ ∃ v, .regWrite s.par.offQctl v ∈ s.env.trace := by
  constructor
  · intro h
    obtain ⟨x, hx, ho⟩ := List.any_eq_true.mp h
    cases x with
    | regWrite o v => exact ⟨v, (show o = s.par.offQctl by simpa [isWriteTo] using ho) ▸ hx⟩
    | _ => cases ho
  · rintro ⟨v, hv⟩
    exact List.any_eq_true.mpr ⟨_, hv, by simp [isWriteTo]⟩

/-- A DMA move changes memory alone. -/
theorem dmaMove_eq (a : Addr) (b : Byte) (s : State) :
    dmaMove a b s = { s with env := { s.env with
      mem := if deviceEnabled s then s.env.mem.writeByte a.toNat b else s.env.mem } } := by
  unfold dmaMove
  split <;> rfl

/-! ### Free values -/

@[simp] theorem drawUnless_par (p : Prop) [Decidable p] (s : State) : (drawUnless p s).par = s.par := by unfold drawUnless; split <;> rfl

@[simp] theorem drawUnless_blk (p : Prop) [Decidable p] (s : State) : (drawUnless p s).blk = s.blk := by unfold drawUnless; split <;> rfl

@[simp] theorem drawUnless_env (p : Prop) [Decidable p] (s : State) : (drawUnless p s).env = s.env := by unfold drawUnless; split <;> rfl

@[simp] theorem drawUnless_moves (p : Prop) [Decidable p] (s : State) : (drawUnless p s).inp.moves = s.inp.moves := by
  unfold drawUnless; split <;> rfl

/-- A stated value draws nothing. -/
theorem drawUnless_pos {p : Prop} [Decidable p] (h : p) (s : State) : drawUnless p s = s := if_pos h

/-- The other inputs stay when a free value is drawn. -/
theorem drawUnless_neg {p : Prop} [Decidable p] (h : ¬ p) (s : State) :
    drawUnless p s = { s with inp := { s.inp with drawn := s.inp.drawn + 1 } } := if_neg h

theorem countUp_eq {c : Word32} (h : c.toNat + 1 < 2 ^ 32) (d : Nat) : countUp c d = BitVec.ofNat 32 (c.toNat + 1) := if_pos h

theorem countUp_top {c : Word32} (h : ¬ c.toNat + 1 < 2 ^ 32) (d : Nat) : countUp c d = Config.freeCount d := if_neg h

theorem countDown_eq {c : Word32} (h : 1 ≤ c.toNat) (d : Nat) : countDown c d = BitVec.ofNat 32 (c.toNat - 1) := if_pos h

theorem countDown_zero {c : Word32} (h : ¬ 1 ≤ c.toNat) (d : Nat) : countDown c d = Config.freeCount d := if_neg h

/-- A counter that stays inside its 32 bits is one higher. -/
theorem countUp_toNat {c : Word32} (h : c.toNat + 1 < 2 ^ 32) (d : Nat) : (countUp c d).toNat = c.toNat + 1 := by
  rw [countUp_eq h, BitVec.toNat_ofNat, Nat.mod_eq_of_lt h]

/-- The index stepped back to, from 1 up. -/
theorem stepBack_toNat {s : State} (h : 1 ≤ s.blk.idx.toNat) : (stepBack s).toNat = s.blk.idx.toNat - 1 := by
  have := s.blk.idx.isLt
  unfold stepBack
  rw [countDown_eq h, BitVec.toNat_ofNat, Nat.mod_eq_of_lt (by omega)]

/-! ### record -/

@[simp] theorem record_par (x : Transaction) (s : State) : (record x s).par = s.par := rfl

@[simp] theorem record_blk (x : Transaction) (s : State) : (record x s).blk = s.blk := rfl

@[simp] theorem record_env (x : Transaction) (s : State) : (record x s).env =
      { s.env with trace := s.env.trace ++ [x] } := rfl

@[simp] theorem record_inp (x : Transaction) (s : State) : (record x s).inp = s.inp := rfl

/-! ### release -/

@[simp] theorem release_par (a : Addr) (s : State) : (release a s).par = s.par := rfl

@[simp] theorem release_blk (a : Addr) (s : State) : (release a s).blk = s.blk := rfl

@[simp] theorem release_env (a : Addr) (s : State) : (release a s).env =
      { s.env with
        live := s.env.live.filter (fun x => decide (x.base ≠ a))
        trace := s.env.trace ++ [.release a] } := rfl

@[simp] theorem release_inp (a : Addr) (s : State) : (release a s).inp = s.inp := rfl

/-! ### memWrite -/

@[simp] theorem memWrite_par (addr : Nat) (v : BitVec 64) (s : State) : (memWrite addr v s).par = s.par := rfl

@[simp] theorem memWrite_blk (addr : Nat) (v : BitVec 64) (s : State) : (memWrite addr v s).blk = s.blk := rfl

@[simp] theorem memWrite_env (addr : Nat) (v : BitVec 64) (s : State) : (memWrite addr v s).env =
      { s.env with
        mem := s.env.mem.write64 addr v
        trace := s.env.trace ++ [.memWrite addr v] } := rfl

@[simp] theorem memWrite_inp (addr : Nat) (v : BitVec 64) (s : State) : (memWrite addr v s).inp = s.inp := rfl

/-! ### regWrite -/

@[simp] theorem regWrite_par (off v : Word32) (s : State) : (regWrite off v s).par = s.par := rfl

@[simp] theorem regWrite_blk (off v : Word32) (s : State) : (regWrite off v s).blk = s.blk := rfl

@[simp] theorem regWrite_env (off v : Word32) (s : State) : (regWrite off v s).env =
      { s.env with trace := s.env.trace ++ [.regWrite off v] } := rfl

@[simp] theorem regWrite_inp (off v : Word32) (s : State) : (regWrite off v s).inp = s.inp := rfl

/-! ### emit -/

@[simp] theorem emit_par (e : Event) (s : State) : (emit e s).par = s.par := rfl

@[simp] theorem emit_blk (e : Event) (s : State) : (emit e s).blk = s.blk := rfl

@[simp] theorem emit_env (e : Event) (s : State) : (emit e s).env =
      { s.env with
        events := s.env.events ++ [e]
        trace := s.env.trace ++ [.emit e] } := rfl

@[simp] theorem emit_inp (e : Event) (s : State) : (emit e s).inp = s.inp := rfl

/-! ### waitInterval -/

@[simp] theorem waitInterval_par (s : State) : (waitInterval s).par = s.par := rfl

@[simp] theorem waitInterval_blk (s : State) : (waitInterval s).blk = s.blk := rfl

@[simp] theorem waitInterval_env (s : State) : (waitInterval s).env =
      { s.env with waited := s.env.waited + 1 } := rfl

@[simp] theorem waitInterval_inp (s : State) : (waitInterval s).inp = s.inp := rfl

/-! ### finish -/

@[simp] theorem finish_par (r : Result) (s : State) : (finish r s).par = s.par := rfl

@[simp] theorem finish_blk (r : Result) (s : State) : (finish r s).blk =
      { s.blk with result := r, busy := false, seq := seqIdle } := rfl

@[simp] theorem finish_env (r : Result) (s : State) : (finish r s).env = s.env := rfl

@[simp] theorem finish_inp (r : Result) (s : State) : (finish r s).inp = s.inp := rfl

/-! ### accept -/

@[simp] theorem accept_par (w : CmdWord) (c : SeqCode) (s : State) : (accept w c s).par = s.par := rfl

@[simp] theorem accept_blk (w : CmdWord) (c : SeqCode) (s : State) : (accept w c s).blk =
      { s.blk with cmdreg := w, busy := true, result := .none, seq := c } := rfl

@[simp] theorem accept_env (w : CmdWord) (c : SeqCode) (s : State) : (accept w c s).env = s.env := rfl

@[simp] theorem accept_inp (w : CmdWord) (c : SeqCode) (s : State) : (accept w c s).inp = s.inp := rfl

/-! ### refuse -/

@[simp] theorem refuse_par (s : State) : (refuse s).par = s.par := rfl

@[simp] theorem refuse_blk (s : State) : (refuse s).blk = { s.blk with result := .refused } := rfl

@[simp] theorem refuse_env (s : State) : (refuse s).env = s.env := rfl

@[simp] theorem refuse_inp (s : State) : (refuse s).inp = s.inp := rfl

/-! ### withMoves -/

@[simp] theorem withMoves_par (ms : List Move) (s : State) : (withMoves ms s).par = s.par := rfl

@[simp] theorem withMoves_blk (ms : List Move) (s : State) : (withMoves ms s).blk = s.blk := rfl

@[simp] theorem withMoves_env (ms : List Move) (s : State) : (withMoves ms s).env = s.env := rfl

@[simp] theorem withMoves_inp (ms : List Move) (s : State) : (withMoves ms s).inp = { s.inp with moves := ms } := rfl

/-! ### resetMove -/

@[simp] theorem resetMove_par (s : State) : (resetMove s).par = s.par := rfl

@[simp] theorem resetMove_blk (s : State) : (resetMove s).blk = Block.reset := rfl

@[simp] theorem resetMove_env (s : State) : (resetMove s).env = s.env := rfl

@[simp] theorem resetMove_inp (s : State) : (resetMove s).inp = s.inp := rfl

/-! ### Answers of the allocator and the device -/

@[simp] theorem takeAllocAnswer_par (s : State) : (takeAllocAnswer s).par = s.par := by
  unfold takeAllocAnswer; split <;> rfl

@[simp] theorem takeAllocAnswer_blk (s : State) : (takeAllocAnswer s).blk = s.blk := by
  unfold takeAllocAnswer; split <;> rfl

@[simp] theorem takeAllocAnswer_env (s : State) : (takeAllocAnswer s).env = s.env := by
  unfold takeAllocAnswer; split <;> rfl

@[simp] theorem takeAllocAnswer_moves (s : State) : (takeAllocAnswer s).inp.moves = s.inp.moves := by
  unfold takeAllocAnswer; split <;> rfl

@[simp] theorem takeAllocAnswer_readAnswers (s : State) : (takeAllocAnswer s).inp.readAnswers = s.inp.readAnswers := by
  unfold takeAllocAnswer; split <;> rfl

@[simp] theorem takeReadAnswer_par (s : State) : (takeReadAnswer s).par = s.par := by
  unfold takeReadAnswer; split <;> rfl

@[simp] theorem takeReadAnswer_blk (s : State) : (takeReadAnswer s).blk = s.blk := by
  unfold takeReadAnswer; split <;> rfl

@[simp] theorem takeReadAnswer_env (s : State) : (takeReadAnswer s).env = s.env := by
  unfold takeReadAnswer; split <;> rfl

@[simp] theorem takeReadAnswer_moves (s : State) : (takeReadAnswer s).inp.moves = s.inp.moves := by
  unfold takeReadAnswer; split <;> rfl

@[simp] theorem takeReadAnswer_allocAnswers (s : State) : (takeReadAnswer s).inp.allocAnswers = s.inp.allocAnswers := by
  unfold takeReadAnswer; split <;> rfl

@[simp] theorem allocEffect_par (n : Nat) (d : Dir) (r : Option Addr) (s : State) : (allocEffect n d r s).par = s.par := by
  cases r <;> rfl

@[simp] theorem allocEffect_blk (n : Nat) (d : Dir) (r : Option Addr) (s : State) : (allocEffect n d r s).blk = s.blk := by
  cases r <;> rfl

@[simp] theorem allocEffect_inp (n : Nat) (d : Dir) (r : Option Addr) (s : State) : (allocEffect n d r s).inp = s.inp := by
  cases r <;> rfl

@[simp] theorem allocEffect_events (n : Nat) (d : Dir) (r : Option Addr) (s : State) :
    (allocEffect n d r s).env.events = s.env.events := by cases r <;> rfl

@[simp] theorem allocEffect_trace (n : Nat) (d : Dir) (r : Option Addr) (s : State) :
    (allocEffect n d r s).env.trace = s.env.trace := by cases r <;> rfl

@[simp] theorem allocEffect_waited (n : Nat) (d : Dir) (r : Option Addr) (s : State) :
    (allocEffect n d r s).env.waited = s.env.waited := by cases r <;> rfl

/-! ### alloc -/

@[simp] theorem alloc_par (n al : Nat) (d : Dir) (s : State) : (alloc n al d s).par = s.par := by simp [alloc]

@[simp] theorem alloc_blk (n al : Nat) (d : Dir) (s : State) : (alloc n al d s).blk = s.blk := by simp [alloc]

@[simp] theorem alloc_inp (n al : Nat) (d : Dir) (s : State) : (alloc n al d s).inp = (takeAllocAnswer s).inp := by simp [alloc]

@[simp] theorem alloc_events (n al : Nat) (d : Dir) (s : State) : (alloc n al d s).env.events = s.env.events := by simp [alloc]

@[simp] theorem alloc_waited (n al : Nat) (d : Dir) (s : State) : (alloc n al d s).env.waited = s.env.waited := by simp [alloc]

@[simp] theorem alloc_trace (n al : Nat) (d : Dir) (s : State) :
    (alloc n al d s).env.trace = s.env.trace ++ [.alloc n al d (allocAnswer s)] := by simp [alloc]

theorem alloc_env_some {s : State} {a : Addr} (h : allocAnswer s = some a) (n al : Nat) (d : Dir) :
    (alloc n al d s).env = { s.env with
      live := s.env.live ++ [⟨a, n, d⟩]
      mem := s.env.mem.zeroFill a.toNat (min (a.toNat + n) Config.busTop)
      trace := s.env.trace ++ [.alloc n al d (some a)] } := by
  simp [alloc, h, allocEffect]

theorem alloc_env_none {s : State} (h : allocAnswer s = none) (n al : Nat) (d : Dir) :
    (alloc n al d s).env = { s.env with trace := s.env.trace ++ [.alloc n al d none] } := by
  simp [alloc, h, allocEffect]

/-- The whole state after a request that is granted. -/
theorem alloc_eq_some {s : State} {a : Addr} (h : allocAnswer s = some a) (n al : Nat) (d : Dir) :
    alloc n al d s = { s with
      env := { s.env with
        live := s.env.live ++ [⟨a, n, d⟩]
        mem := s.env.mem.zeroFill a.toNat (min (a.toNat + n) Config.busTop)
        trace := s.env.trace ++ [.alloc n al d (some a)] }
      inp := (takeAllocAnswer s).inp } := by
  have h1 := alloc_env_some h n al d
  have h2 := alloc_par n al d s
  have h3 := alloc_blk n al d s
  have h4 := alloc_inp n al d s
  generalize alloc n al d s = u at *
  cases u
  simp_all

/-- The whole state after a request that is not granted. -/
theorem alloc_eq_none {s : State} (h : allocAnswer s = none) (n al : Nat) (d : Dir) :
    alloc n al d s = { s with
      env := { s.env with trace := s.env.trace ++ [.alloc n al d none] }
      inp := (takeAllocAnswer s).inp } := by
  have h1 := alloc_env_none h n al d
  have h2 := alloc_par n al d s
  have h3 := alloc_blk n al d s
  have h4 := alloc_inp n al d s
  generalize alloc n al d s = u at *
  cases u
  simp_all

/-- What memory reads as after a request that is granted: the bytes of the allocation that lie in the address space are 0
(20_memory R85 c). -/
theorem read_granted {m : Memory} (hm : m.wf) (a : Addr) (n x : Nat) :
    (m.zeroFill a.toNat (min (a.toNat + n) Config.busTop)).read x =
      if a.toNat ≤ x ∧ x < a.toNat + n ∧ x < Config.busTop then some 0#8 else m.read x := by
  rw [Memory.read_zeroFill hm]
  exact if_congr (by omega) rfl rfl

/-! ### regRead -/

@[simp] theorem regRead_par (off : Word32) (s : State) : (regRead off s).par = s.par := by simp [regRead]

@[simp] theorem regRead_blk (off : Word32) (s : State) : (regRead off s).blk = s.blk := by simp [regRead]

@[simp] theorem regRead_env (off : Word32) (s : State) :
    (regRead off s).env = { s.env with trace := s.env.trace ++ [.regRead off (readAnswer s)] } := by simp [regRead]

@[simp] theorem regRead_inp (off : Word32) (s : State) : (regRead off s).inp = (takeReadAnswer s).inp := by simp [regRead]

/-- The whole state after a register read. -/
theorem regRead_eq (off : Word32) (s : State) :
    regRead off s = { s with
      env := { s.env with trace := s.env.trace ++ [.regRead off (readAnswer s)] }
      inp := (takeReadAnswer s).inp } := by
  have h1 := regRead_env off s
  have h2 := regRead_par off s
  have h3 := regRead_blk off s
  have h4 := regRead_inp off s
  generalize regRead off s = u at *
  cases u
  simp_all

/-! ### DMA writes -/

@[simp] theorem dmaMove_par (a : Addr) (b : Byte) (s : State) : (dmaMove a b s).par = s.par := by
  unfold dmaMove; split <;> rfl

@[simp] theorem dmaMove_blk (a : Addr) (b : Byte) (s : State) : (dmaMove a b s).blk = s.blk := by
  unfold dmaMove; split <;> rfl

@[simp] theorem dmaMove_inp (a : Addr) (b : Byte) (s : State) : (dmaMove a b s).inp = s.inp := by
  unfold dmaMove; split <;> rfl

@[simp] theorem dmaMove_live (a : Addr) (b : Byte) (s : State) : (dmaMove a b s).env.live = s.env.live := by
  unfold dmaMove; split <;> rfl

@[simp] theorem dmaMove_events (a : Addr) (b : Byte) (s : State) : (dmaMove a b s).env.events = s.env.events := by
  unfold dmaMove; split <;> rfl

@[simp] theorem dmaMove_trace (a : Addr) (b : Byte) (s : State) : (dmaMove a b s).env.trace = s.env.trace := by
  unfold dmaMove; split <;> rfl

@[simp] theorem dmaMove_waited (a : Addr) (b : Byte) (s : State) : (dmaMove a b s).env.waited = s.env.waited := by
  unfold dmaMove; split <;> rfl

/-! ### Answers do not depend on the moves -/

@[simp] theorem allocAnswer_withMoves (ms : List Move) (s : State) : allocAnswer (withMoves ms s) = allocAnswer s := rfl

@[simp] theorem readAnswer_withMoves (ms : List Move) (s : State) : readAnswer (withMoves ms s) = readAnswer s := rfl

end Sys2Proof.Machine
end

