-- ==== Sys2Proof/Laws/Exec.lean ====
section
/-! SUPPORT. Each meaning whose form has a branch, one equation for each branch: what `exec` answers there. -/

namespace Sys2Proof.Machine

theorem exec_new_ready {s : State} (hb : s.blk.busy = false) (role : Role) (size : Nat) :
    exec (.new role size) s =
      .next (if newAccepted size s then accept (encodeCommand (.new role size)) seqNAlloc s else refuse s) := by
  unfold exec execNew
  rw [hb]
  rfl

theorem exec_init_accepted {s : State} (hb : s.blk.busy = false) (hf : initAccepted s) :
    exec .init s = .next { accept (encodeCommand .init) seqBAlloc s with
      blk := { (accept (encodeCommand .init) seqBAlloc s).blk with idx := 0#32 } } := by
  unfold exec execInit
  rw [hb, if_pos hf]
  rfl

theorem exec_init_refused {s : State} (hb : s.blk.busy = false) (hf : ¬ initAccepted s) :
    exec .init s = .next (refuse s) := by
  unfold exec execInit
  rw [hb, if_neg hf]
  rfl

theorem exec_nAlloc_some {s : State} {a : Addr} (h : allocAnswer s = some a) :
    exec .nAlloc s = .next { s with
      blk := { s.blk with
        tblBase := a, size := cmdSize s.blk.cmdreg, role := roleOfCode (cmdRole s.blk.cmdreg), fsm := .constructed, result := .ok
        busy := false, seq := seqIdle }
      env := { s.env with
        live := s.env.live ++ [⟨a, tableBytes (cmdSize s.blk.cmdreg) s.par.slotSize, .both⟩]
        mem := s.env.mem.zeroFill a.toNat
          (min (a.toNat + tableBytes (cmdSize s.blk.cmdreg) s.par.slotSize) Config.busTop)
        trace := s.env.trace ++
          [.alloc (tableBytes (cmdSize s.blk.cmdreg) s.par.slotSize) Config.tableAlign .both (some a)] }
      inp := (takeAllocAnswer s).inp } := by
  simp only [exec, execNAlloc, h, alloc_eq_some h, finish]

theorem exec_nAlloc_none {s : State} (h : allocAnswer s = none) :
    exec .nAlloc s = .next { s with
      blk := { s.blk with result := .noMemory, busy := false, seq := seqIdle }
      env := { s.env with trace := s.env.trace ++
        [.alloc (tableBytes (cmdSize s.blk.cmdreg) s.par.slotSize) Config.tableAlign .both none] }
      inp := (takeAllocAnswer s).inp } := by
  simp only [exec, execNAlloc, h, alloc_eq_none h, finish]

theorem exec_bAlloc_some {s : State} {a : Addr} (h : allocAnswer s = some a) :
    exec .bAlloc s = .next { s with
      blk := { s.blk with buf := sparseSet s.blk.buf s.blk.idx.toNat a, seq := seqBStamp }
      env := { s.env with
        live := s.env.live ++ [⟨a, Config.pageSize, .both⟩]
        mem := s.env.mem.zeroFill a.toNat (min (a.toNat + Config.pageSize) Config.busTop)
        trace := s.env.trace ++ [.alloc Config.pageSize Config.bufAlign .both (some a)] }
      inp := (takeAllocAnswer s).inp } := by
  simp only [exec, execBAlloc, h, alloc_eq_some h, setSeq, bufSet]

theorem exec_bAlloc_mem {s t : State} {a : Addr} (h : allocAnswer s = some a) (ht : exec .bAlloc s = .next t) :
    t.env.mem = s.env.mem.zeroFill a.toNat (min (a.toNat + Config.pageSize) Config.busTop) := by
  rw [exec_bAlloc_some h] at ht
  rw [← Host.Outcome.next.inj ht]

theorem exec_bAlloc_none {s : State} (h : allocAnswer s = none) :
    exec .bAlloc s = .next { s with
      blk := { s.blk with seq := if s.blk.idx = 0#32 then seqUDone else seqUClear }
      env := { s.env with trace := s.env.trace ++ [.alloc Config.pageSize Config.bufAlign .both none] }
      inp := (takeAllocAnswer s).inp } := by
  simp only [exec, execBAlloc, h, alloc_eq_none h, setSeq]
  split <;> rfl

theorem exec_bStamp_some {s : State} {a : Addr} (h : bufGet s s.blk.idx.toNat = some a)
    (hf : addrFits (slotAddr s s.blk.idx.toNat)) :
    exec .bStamp s = .next (setSeq seqBEmit (memWrite (slotAddr s s.blk.idx.toNat) a s)) := by
  simp only [exec, execBStamp, h, if_pos hf]

/-- B_EMIT in every state. -/
theorem exec_bEmit_eq (s : State) :
    exec .bEmit s = .next { s with
      blk := { s.blk with
        idx := countUp s.blk.idx s.inp.drawn
        fsm := if s.blk.idx.toNat + 1 < s.blk.size.toNat then s.blk.fsm else .bound
        seq :=
          if s.blk.idx.toNat + 1 < s.blk.size.toNat then seqBAlloc
          else if s.blk.role = .receive then seqPBal else seqTNop }
      env := { s.env with
        events := s.env.events ++ [.slotBound s.blk.idx s.blk.role]
        trace := s.env.trace ++ [.emit (.slotBound s.blk.idx s.blk.role)] }
      inp := (drawUnless (s.blk.idx.toNat + 1 < 2 ^ 32) s).inp } := by
  simp only [exec, execBEmit, emit, record, drawUnless_par, drawUnless_blk, drawUnless_env, setSeq]
  by_cases h : s.blk.idx.toNat + 1 < s.blk.size.toNat
  · simp only [if_pos h]
  · simp only [if_neg h]
    cases s.blk.role <;> rfl

theorem exec_bEmit_more {s : State} (h : s.blk.idx.toNat + 1 < s.blk.size.toNat) :
    exec .bEmit s = .next { s with
      blk := { s.blk with idx := BitVec.ofNat 32 (s.blk.idx.toNat + 1), seq := seqBAlloc }
      env := { s.env with
        events := s.env.events ++ [.slotBound s.blk.idx s.blk.role]
        trace := s.env.trace ++ [.emit (.slotBound s.blk.idx s.blk.role)] } } := by
  have := s.blk.size.isLt
  have h2 : s.blk.idx.toNat + 1 < 2 ^ 32 := by omega
  rw [exec_bEmit_eq, countUp_eq h2, drawUnless_pos h2]
  simp only [if_pos h]

theorem exec_bEmit_last {s : State} (h : s.blk.idx.toNat + 1 = s.blk.size.toNat) :
    exec .bEmit s = .next { s with
      blk := { s.blk with
        idx := s.blk.size, fsm := .bound, seq := if s.blk.role = .receive then seqPBal else seqTNop }
      env := { s.env with
        events := s.env.events ++ [.slotBound s.blk.idx s.blk.role]
        trace := s.env.trace ++ [.emit (.slotBound s.blk.idx s.blk.role)] } } := by
  have := s.blk.size.isLt
  have h2 : s.blk.idx.toNat + 1 < 2 ^ 32 := by omega
  have hs : BitVec.ofNat 32 (s.blk.idx.toNat + 1) = s.blk.size := by rw [h, BitVec.ofNat_toNat, BitVec.setWidth_eq]
  rw [exec_bEmit_eq, countUp_eq h2, drawUnless_pos h2, hs]
  simp only [if_neg (show ¬ s.blk.idx.toNat + 1 < s.blk.size.toNat by omega)]

/-- U_CLEAR in every state in which the field it clears lies in the bus address space. -/
theorem exec_uClear_fits {s : State} (hf : addrFits (slotAddr s (stepBack s).toNat)) :
    exec .uClear s = .next (setSeq seqUFree (memWrite (slotAddr s (stepBack s).toNat) 0#64
      { s with
        blk := { s.blk with idx := stepBack s }
        inp := (drawUnless (1 ≤ s.blk.idx.toNat) s).inp })) := by
  simp only [exec, execUClear, if_pos hf, drawUnless_par, drawUnless_blk, drawUnless_env]

theorem exec_uClear_some {s : State} (h : 1 ≤ s.blk.idx.toNat) (hf : addrFits (slotAddr s (s.blk.idx.toNat - 1))) :
    exec .uClear s = .next (setSeq seqUFree (memWrite (slotAddr s (s.blk.idx.toNat - 1)) 0#64
      { s with blk := { s.blk with idx := BitVec.ofNat 32 (s.blk.idx.toNat - 1) } })) := by
  rw [exec_uClear_fits (by rwa [stepBack_toNat h]), stepBack_toNat h, drawUnless_pos h]
  unfold stepBack
  rw [countDown_eq h]

theorem exec_uFree_some {s : State} {a : Addr} (h : bufGet s s.blk.idx.toNat = some a) :
    exec .uFree s = .next { s with
      blk := { s.blk with
        buf := sparseErase s.blk.buf s.blk.idx.toNat (s.blk.idx.toNat + 1)
        seq := if s.blk.idx = 0#32 then seqUDone else seqUClear }
      env := { s.env with
        live := s.env.live.filter (fun x => decide (x.base ≠ a))
        trace := s.env.trace ++ [.release a] } } := by
  simp only [exec, execUFree, h, setSeq, bufClear, release, record]
  split <;> rfl

/-- W_POLL in every state. -/
theorem exec_wPoll_eq (s : State) :
    exec .wPoll s = .next { s with
      blk :=
        if acked s.par (readAnswer s) = true then
          { s.blk with
            att := countUp s.blk.att (takeReadAnswer s).inp.drawn, fsm := .enabled, result := .ok, busy := false, seq := seqIdle }
        else { s.blk with att := countUp s.blk.att (takeReadAnswer s).inp.drawn, seq := seqWWait }
      env := { s.env with trace := s.env.trace ++ [.regRead s.par.offQctl (readAnswer s)] }
      inp := (drawUnless (s.blk.att.toNat + 1 < 2 ^ 32) (takeReadAnswer s)).inp } := by
  simp only [exec, execWPoll, regRead_eq, drawUnless_par, drawUnless_blk, drawUnless_env, finish, setSeq]
  unfold drawUnless
  repeat' split
  all_goals rfl

theorem exec_wPoll_acked {s : State} (h : s.blk.att.toNat + 1 < 2 ^ 32) (ha : acked s.par (readAnswer s) = true) :
    exec .wPoll s = .next { s with
      blk := { s.blk with
        att := BitVec.ofNat 32 (s.blk.att.toNat + 1), fsm := .enabled, result := .ok, busy := false, seq := seqIdle }
      env := { s.env with trace := s.env.trace ++ [.regRead s.par.offQctl (readAnswer s)] }
      inp := (takeReadAnswer s).inp } := by
  rw [exec_wPoll_eq, countUp_eq h, drawUnless_pos h, if_pos ha]

theorem exec_wPoll_pending {s : State} (h : s.blk.att.toNat + 1 < 2 ^ 32) (ha : acked s.par (readAnswer s) = false) :
    exec .wPoll s = .next { s with
      blk := { s.blk with att := BitVec.ofNat 32 (s.blk.att.toNat + 1), seq := seqWWait }
      env := { s.env with trace := s.env.trace ++ [.regRead s.par.offQctl (readAnswer s)] }
      inp := (takeReadAnswer s).inp } := by
  rw [exec_wPoll_eq, countUp_eq h, drawUnless_pos h, if_neg (by rw [ha]; decide)]

theorem exec_wWait_eq (s : State) :
    exec .wWait s = .next { s with
      blk := { s.blk with seq := if s.blk.att.toNat < Config.maxAttempts then seqWPoll else seqWTmo }
      env := { s.env with waited := s.env.waited + Config.pollInterval } } := by
  simp only [exec, execWWait, setSeq, waitInterval]
  split <;> rfl

/-- The acknowledgment test of the instance: the masked value is 0 (30_encoding R110). -/
theorem acked_iff (p : Config.Params) (v : Word32) : acked p v = true ↔ v &&& p.ackMask = 0#32 := by
  simp [acked, ackedWith, Config.ackDoneValue]

/-! ### Inversions: what a next state of an instruction with branches tells -/

theorem exec_new_inv {role : Role} {size : Nat} {s t : State} (h : exec (.new role size) s = .next t) :
    s.blk.busy = false ∧
      t = if newAccepted size s then accept (encodeCommand (.new role size)) seqNAlloc s else refuse s := by
  cases hb : s.blk.busy with
  | true => simp [exec, execNew, hb] at h
  | false =>
    rw [exec_new_ready hb] at h
    exact ⟨rfl, (Host.Outcome.next.inj h).symm⟩

theorem exec_init_inv {s t : State} (h : exec .init s = .next t) :
    s.blk.busy = false ∧
      ((initAccepted s ∧ t = { accept (encodeCommand .init) seqBAlloc s with
          blk := { (accept (encodeCommand .init) seqBAlloc s).blk with idx := 0#32 } }) ∨
        (¬ initAccepted s ∧ t = refuse s)) := by
  cases hb : s.blk.busy with
  | true => simp [exec, execInit, hb] at h
  | false =>
    by_cases hf : initAccepted s
    · rw [exec_init_accepted hb hf] at h
      exact ⟨rfl, .inl ⟨hf, (Host.Outcome.next.inj h).symm⟩⟩
    · rw [exec_init_refused hb hf] at h
      exact ⟨rfl, .inr ⟨hf, (Host.Outcome.next.inj h).symm⟩⟩

theorem exec_bStamp_inv {s t : State} (h : exec .bStamp s = .next t) :
    ∃ a, bufGet s s.blk.idx.toNat = some a ∧ addrFits (slotAddr s s.blk.idx.toNat) ∧
      t = setSeq seqBEmit (memWrite (slotAddr s s.blk.idx.toNat) a s) := by
  simp only [exec, execBStamp] at h
  split at h
  · cases h
  · rename_i a ha
    split at h
    · rename_i hf
      exact ⟨a, ha, hf, (Host.Outcome.next.inj h).symm⟩
    · cases h

theorem exec_bEmit_inv {s t : State} (h : exec .bEmit s = .next t) :
    t = { s with
      blk := { s.blk with
        idx := countUp s.blk.idx s.inp.drawn
        fsm := if s.blk.idx.toNat + 1 < s.blk.size.toNat then s.blk.fsm else .bound
        seq :=
          if s.blk.idx.toNat + 1 < s.blk.size.toNat then seqBAlloc
          else if s.blk.role = .receive then seqPBal else seqTNop }
      env := { s.env with
        events := s.env.events ++ [.slotBound s.blk.idx s.blk.role]
        trace := s.env.trace ++ [.emit (.slotBound s.blk.idx s.blk.role)] }
      inp := (drawUnless (s.blk.idx.toNat + 1 < 2 ^ 32) s).inp } := by
  rw [exec_bEmit_eq] at h
  exact (Host.Outcome.next.inj h).symm

theorem exec_wPoll_inv {s t : State} (h : exec .wPoll s = .next t) :
    t = { s with
      blk :=
        if acked s.par (readAnswer s) = true then
          { s.blk with
            att := countUp s.blk.att (takeReadAnswer s).inp.drawn, fsm := .enabled, result := .ok, busy := false, seq := seqIdle }
        else { s.blk with att := countUp s.blk.att (takeReadAnswer s).inp.drawn, seq := seqWWait }
      env := { s.env with trace := s.env.trace ++ [.regRead s.par.offQctl (readAnswer s)] }
      inp := (drawUnless (s.blk.att.toNat + 1 < 2 ^ 32) (takeReadAnswer s)).inp } := by
  rw [exec_wPoll_eq] at h
  exact (Host.Outcome.next.inj h).symm

theorem exec_uClear_inv {s t : State} (h : exec .uClear s = .next t) :
    addrFits (slotAddr s (stepBack s).toNat) ∧
      t = setSeq seqUFree (memWrite (slotAddr s (stepBack s).toNat) 0#64
        { s with
          blk := { s.blk with idx := stepBack s }
          inp := (drawUnless (1 ≤ s.blk.idx.toNat) s).inp }) := by
  by_cases hf : addrFits (slotAddr s (stepBack s).toNat)
  · rw [exec_uClear_fits hf] at h
    exact ⟨hf, (Host.Outcome.next.inj h).symm⟩
  · simp only [exec, execUClear, if_neg hf] at h
    cases h

theorem exec_uFree_inv {s t : State} (h : exec .uFree s = .next t) :
    ∃ a, bufGet s s.blk.idx.toNat = some a ∧ t = { s with
      blk := { s.blk with
        buf := sparseErase s.blk.buf s.blk.idx.toNat (s.blk.idx.toNat + 1)
        seq := if s.blk.idx = 0#32 then seqUDone else seqUClear }
      env := { s.env with
        live := s.env.live.filter (fun x => decide (x.base ≠ a))
        trace := s.env.trace ++ [.release a] } } := by
  cases ha : bufGet s s.blk.idx.toNat with
  | none => simp [exec, execUFree, ha] at h
  | some a =>
    rw [exec_uFree_some ha] at h
    exact ⟨a, rfl, (Host.Outcome.next.inj h).symm⟩

end Sys2Proof.Machine
end

