-- ==== Sys2Proof/Laws/PerInstr.lean ====
section
/-! SUPPORT. The family TableRow, one lemma for each constructor: the word that the encoder writes for a well-formed instruction is a word of
that instruction's row of spec/opcode_table.json (mask and match), it fits the row's width, and the decoder reads it back. -/

namespace Sys2Proof.Laws.TableRow

/-- A row of spec/opcode_table.json: width in bits, mask, match. -/
structure Row where
  /-- The row's `width`. -/
  width : Nat
  /-- The row's `mask`. -/
  mask : Nat
  /-- The row's `match`. -/
  pattern : Nat

/-- The row of an instruction. -/
def row : Instr → Row
  | .new _ _ => ⟨64, 0x00000000FFFFFEFF, 0x0000000000000001⟩
  | .init => ⟨64, 0xFFFFFFFFFFFFFFFF, 0x0000000000000002⟩
  | .nAlloc => ⟨5, 0x1F, 0x01⟩
  | .bAlloc => ⟨5, 0x1F, 0x02⟩
  | .bStamp => ⟨5, 0x1F, 0x03⟩
  | .bEmit => ⟨5, 0x1F, 0x04⟩
  | .uClear => ⟨5, 0x1F, 0x05⟩
  | .uFree => ⟨5, 0x1F, 0x06⟩
  | .uDone => ⟨5, 0x1F, 0x07⟩
  | .tNop => ⟨5, 0x1F, 0x08⟩
  | .pBal => ⟨5, 0x1F, 0x09⟩
  | .pBah => ⟨5, 0x1F, 0x0A⟩
  | .pLen => ⟨5, 0x1F, 0x0B⟩
  | .pCtlr => ⟨5, 0x1F, 0x0C⟩
  | .pCtlw => ⟨5, 0x1F, 0x0D⟩
  | .pEn => ⟨5, 0x1F, 0x0E⟩
  | .wPoll => ⟨5, 0x1F, 0x0F⟩
  | .wWait => ⟨5, 0x1F, 0x10⟩
  | .wTmo => ⟨5, 0x1F, 0x11⟩

/-- The number of an encoded word. -/
def number : Encoded → Nat
  | .command w => w.toNat
  | .micro c => c.toNat

/-- A row's width in whole bytes, in bits. -/
def wholeBytes (r : Row) : Nat := (r.width + 7) / 8 * 8

/-- The instruction's word is a word of its row, and the decoder reads it back. -/
def Statement (i : Instr) : Prop :=
  i.WellFormed →
    number (encode i) < 2 ^ (row i).width ∧ number (encode i) &&& (row i).mask = (row i).pattern ∧
      decodeTableWord (wholeBytes (row i)) (number (encode i)) = some i

/-- The number of a NEW word. -/
theorem number_new (role : Role) {size : Nat} (hsize : size < 2 ^ 32) :
    number (encode (.new role size)) = size * 2 ^ 32 + (role.code.toNat * 2 ^ 8 + 1) := by
  simp only [number, encode, commandWord_toNat, BitVec.toNat_ofNat]
  omega

theorem code_le (role : Role) : role.code.toNat ≤ 1 := by cases role <;> decide

/-- The low half of a NEW word, under the mask. -/
theorem low_half (size n : Nat) (hn : n < 2 ^ 32) :
    (size * 2 ^ 32 + n) &&& 0x00000000FFFFFEFF = n &&& 0x00000000FFFFFEFF := by
  have h : (size * 2 ^ 32 + n) &&& (2 ^ 32 - 1) = n := by
    rw [Nat.and_two_pow_sub_one_eq_mod]
    omega
  have hm : (0x00000000FFFFFEFF : Nat) = (2 ^ 32 - 1) &&& 0x00000000FFFFFEFF := by decide
  rw [hm, ← Nat.and_assoc, h, ← hm]

theorem decode_new (role : Role) {size : Nat} (hsize : size < 2 ^ 32) :
    decodeCommand (BitVec.ofNat 64 (size * 2 ^ 32 + (role.code.toNat * 2 ^ 8 + 1))) = .ok (.new role size) := by
  have hrole := code_le role
  have hn : (BitVec.ofNat 64 (size * 2 ^ 32 + (role.code.toNat * 2 ^ 8 + 1))).toNat =
      size * 2 ^ 32 + (role.code.toNat * 2 ^ 8 + 1) := by
    rw [BitVec.toNat_ofNat]
    omega
  have h1 : (size * 2 ^ 32 + (role.code.toNat * 2 ^ 8 + 1)) / 2 ^ 8 % 2 = role.code.toNat := by omega
  have h2 : (size * 2 ^ 32 + (role.code.toNat * 2 ^ 8 + 1)) / 2 ^ 32 = size := by omega
  rw [decodeCommand_eq, hn, if_pos (by omega), if_pos (by omega), h1, h2]
  cases role
  · rw [if_neg (by decide)]
  · rw [if_pos (by decide)]

theorem decodeTableWord_wide {n : Nat} (h : n < 2 ^ 64) :
    decodeTableWord 64 n = (decodeCommand (BitVec.ofNat 64 n)).toOption := by
  have ht : tableWord 64 n = .ok (.command (BitVec.ofNat 64 n)) := by
    unfold tableWord
    rw [if_neg (by decide), if_pos h]
  unfold decodeTableWord
  rw [ht]
  rfl

theorem new (role : Role) (size : Nat) : Statement (.new role size) := by
  intro hsize
  have hrole := code_le role
  have hnum := number_new role hsize
  refine ⟨?_, ?_, ?_⟩
  · have : size < 2 ^ 32 := hsize
    rw [hnum]
    simp only [row]
    omega
  · rw [hnum]
    simp only [row]
    rw [low_half _ _ (by omega)]
    cases role <;> decide
  · have hw : wholeBytes (row (.new role size)) = 64 := by simp only [wholeBytes, row]
    have hlt : size * 2 ^ 32 + (role.code.toNat * 2 ^ 8 + 1) < 2 ^ 64 := by
      have : size < 2 ^ 32 := hsize
      omega
    rw [hw, hnum, decodeTableWord_wide hlt, decode_new role hsize]
    rfl

theorem init : Statement .init := fun _ => ⟨by decide, by decide, by decide⟩
theorem nAlloc : Statement .nAlloc := fun _ => ⟨by decide, by decide, by decide⟩
theorem bAlloc : Statement .bAlloc := fun _ => ⟨by decide, by decide, by decide⟩
theorem bStamp : Statement .bStamp := fun _ => ⟨by decide, by decide, by decide⟩
theorem bEmit : Statement .bEmit := fun _ => ⟨by decide, by decide, by decide⟩
theorem uClear : Statement .uClear := fun _ => ⟨by decide, by decide, by decide⟩
theorem uFree : Statement .uFree := fun _ => ⟨by decide, by decide, by decide⟩
theorem uDone : Statement .uDone := fun _ => ⟨by decide, by decide, by decide⟩
theorem tNop : Statement .tNop := fun _ => ⟨by decide, by decide, by decide⟩
theorem pBal : Statement .pBal := fun _ => ⟨by decide, by decide, by decide⟩
theorem pBah : Statement .pBah := fun _ => ⟨by decide, by decide, by decide⟩
theorem pLen : Statement .pLen := fun _ => ⟨by decide, by decide, by decide⟩
theorem pCtlr : Statement .pCtlr := fun _ => ⟨by decide, by decide, by decide⟩
theorem pCtlw : Statement .pCtlw := fun _ => ⟨by decide, by decide, by decide⟩
theorem pEn : Statement .pEn := fun _ => ⟨by decide, by decide, by decide⟩
theorem wPoll : Statement .wPoll := fun _ => ⟨by decide, by decide, by decide⟩
theorem wWait : Statement .wWait := fun _ => ⟨by decide, by decide, by decide⟩
theorem wTmo : Statement .wTmo := fun _ => ⟨by decide, by decide, by decide⟩

end Sys2Proof.Laws.TableRow
end

