-- ==== Sys2Proof/Laws/Step.lean ====
section
/-! SUPPORT. What a step can do, said once (the inversion of `step`), and how runs of steps compose. -/

namespace Sys2Proof.Machine

theorem withMoves_self (s : State) : withMoves s.inp.moves s = s := rfl

/-- The SEQ code that names a micro-operation is that micro-operation's code. -/
theorem seq_of_decodeSeq {c : SeqCode} {i : Instr} (h : decodeSeq c = .ok i) : encode i = .micro c := by
  have key : ∀ c : SeqCode, (decodeSeq c).toOption.all (fun i => decide (encode i = .micro c)) = true := by decide
  simpa [h, Except.toOption] using key c

/-- A SEQ code that names nothing because it is IDLE is 0. -/
theorem seq_of_idle {c : SeqCode} (h : decodeSeq c = .error .idle) : c = seqIdle := by
  revert c
  decide +revert

/-- A command word names a command. -/
theorem decodeCommand_cases {w : CmdWord} {i : Instr} (h : decodeCommand w = .ok i) :
    i = .new (roleOfCode (cmdRole w)) (cmdSize w).toNat ∨ i = .init := by
  unfold decodeCommand at h
  split at h
  · split at h
    · exact .inl (Except.ok.inj h).symm
    · cases h
  · split at h
    · split at h
      · split at h
        · exact .inr (Except.ok.inj h).symm
        · cases h
      · cases h
    · cases h

/-- The controller's step that answers a next state: a micro-operation, or nothing in IDLE. -/
theorem controllerMove_cases {s t : State} (h : controllerMove s = .next t) :
    (∃ i, decodeSeq s.blk.seq = .ok i ∧ exec i s = .next t) ∨ (s.blk.seq = seqIdle ∧ t = s) := by
  unfold controllerMove fetch at h
  split at h
  · rename_i i hi
    exact .inl ⟨i, hi, h⟩
  · rename_i hi
    exact .inr ⟨seq_of_idle hi, (Host.Outcome.next.inj h).symm⟩
  · cases h

/-- Everything a step that answers a next state can be: the controller's micro-operation, an idle controller, a submission, a reset,
a DMA write. `ms` are the moves left. -/
theorem step_cases {s t : State} (h : step s = .next t) :
    ∃ ms,
      (∃ i, decodeSeq s.blk.seq = .ok i ∧ exec i (withMoves ms s) = .next t ∧ Safety.resetNext s = false) ∨
      (s.blk.seq = seqIdle ∧ t = withMoves ms s ∧ Safety.resetNext s = false) ∨
      (s.blk.busy = false ∧ Safety.resetNext s = false ∧ ∃ w, s.inp.moves = .submit w :: ms ∧
        ((∃ i, decodeCommand w = .ok i ∧ exec i (withMoves ms s) = .next t) ∨
          ((∀ i, decodeCommand w ≠ .ok i) ∧ t = refuse (withMoves ms s)))) ∨
      (s.inp.moves = .reset :: ms ∧ t = resetMove (withMoves ms s)) ∨
      (Safety.resetNext s = false ∧ ∃ a b, s.inp.moves = .dma a b :: ms ∧ t = dmaMove a b (withMoves ms s)) := by
  unfold step nextMove at h
  unfold Safety.resetNext
  split at h
  · rename_i hm
    refine ⟨[], ?_⟩
    rw [show s = withMoves [] s by rw [← hm, withMoves_self]] at h
    rcases controllerMove_cases h with ⟨i, hi, he⟩ | ⟨hi, he⟩
    · exact .inl ⟨i, hi, he, by simp [hm]⟩
    · exact .inr (.inl ⟨hi, he, by simp [hm]⟩)
  · rename_i rest hm
    refine ⟨rest, ?_⟩
    rcases controllerMove_cases h with ⟨i, hi, he⟩ | ⟨hi, he⟩
    · exact .inl ⟨i, hi, he, by simp [hm]⟩
    · exact .inr (.inl ⟨hi, he, by simp [hm]⟩)
  · rename_i w rest hm
    split at h
    · refine ⟨s.inp.moves, ?_⟩
      rw [withMoves_self]
      rcases controllerMove_cases h with ⟨i, hi, he⟩ | ⟨hi, he⟩
      · exact .inl ⟨i, hi, he, by simp [hm]⟩
      · exact .inr (.inl ⟨hi, he, by simp [hm]⟩)
    · rename_i hb
      refine ⟨rest, .inr (.inr (.inl ⟨by simpa using hb, by simp [hm], w, hm, ?_⟩))⟩
      unfold submitMove at h
      split at h
      · rename_i i hi
        exact .inl ⟨i, hi, h⟩
      · rename_i e he
        exact .inr ⟨fun i hi => by simp [hi] at he, (Host.Outcome.next.inj h).symm⟩
  · rename_i rest hm
    exact ⟨rest, .inr (.inr (.inr (.inl ⟨hm, (Host.Outcome.next.inj h).symm⟩)))⟩
  · rename_i a b rest hm
    exact ⟨rest, .inr (.inr (.inr (.inr ⟨by simp [hm], a, b, hm, (Host.Outcome.next.inj h).symm⟩)))⟩

/-- While no other agent moves and SEQ names a micro-operation, a step is that micro-operation. -/
theorem step_undisturbed {s : State} (hm : Safety.Undisturbed s) {i : Instr} (hi : decodeSeq s.blk.seq = .ok i) :
    step s = exec i s := by
  unfold Safety.Undisturbed at hm
  simp [step, nextMove, hm, controllerMove, fetch, hi]

/-! ### Runs -/

theorem run_zero (s : State) : Host.Core.run core 0 s = .next s := rfl

/-- A run whose first step is known. -/
theorem run_next {M : Host.Core} {s t : M.State} (h : M.step s = .next t) (k : Nat) : M.run (k + 1) s = M.run k t := by
  rw [Host.Core.run, h]

/-- A run that answers a next state has a first step that does. -/
theorem run_next_inv {M : Host.Core} {s t : M.State} {k : Nat} (h : M.run (k + 1) s = .next t) :
    ∃ u, M.step s = .next u ∧ M.run k u = .next t := by
  rw [Host.Core.run] at h
  cases hs : M.step s with
  | next u => exact ⟨u, rfl, by rwa [hs] at h⟩
  | fault r => rw [hs] at h; cases h
  | refused r => rw [hs] at h; cases h

/-- Runs compose. -/
theorem run_append {M : Host.Core} {s t : M.State} {k : Nat} (h : M.run k s = .next t) (n : Nat) :
    M.run (k + n) s = M.run n t := by
  induction k generalizing s with
  | zero =>
    have : s = t := Host.Outcome.next.inj h
    rw [Nat.zero_add, this]
  | succ k ih =>
    obtain ⟨u, hu, hk⟩ := run_next_inv h
    rw [Nat.succ_add, run_next hu, ih hk]

/-- A run of this machine whose first step is known. -/
theorem run_succ {s t : State} (h : step s = .next t) (k : Nat) : Host.Core.run core (k + 1) s = Host.Core.run core k t :=
  run_next (M := core) h k

/-- Runs of this machine compose. -/
theorem run_add {s t : State} {k : Nat} (h : Host.Core.run core k s = .next t) (n : Nat) :
    Host.Core.run core (k + n) s = Host.Core.run core n t :=
  run_append (M := core) h n

/-- A run of one step of this machine. -/
theorem run_one {s t : State} (h : step s = .next t) : Host.Core.run core 1 s = .next t := run_succ h 0

/-- A run of this machine followed by one step. -/
theorem run_then_step {s t u : State} {k : Nat} (h : Host.Core.run core k s = .next t) (hu : step t = .next u) :
    Host.Core.run core (k + 1) s = .next u := (run_add h 1).trans (run_one hu)

/-- A run of this machine followed by another. -/
theorem run_then_run {s t u : State} {k n : Nat} (h : Host.Core.run core k s = .next t)
    (hu : Host.Core.run core n t = .next u) : Host.Core.run core (k + n) s = .next u := (run_add h n).trans hu

end Sys2Proof.Machine
end

