-- ==== Sys2Proof/Laws/Values.lean ====
section
/-! SUPPORT. Laws of the assembled values: what a mask that keeps the high bits does to a number, and bytes of a 64-bit value
(00_scope R23, R24; 20_memory R71). -/

namespace Sys2Proof.Machine

/-- A mask that keeps the bits from `k` up rounds down to a multiple of `2^k`. -/
theorem and_high_mask {x m k : Nat} (hx : x < 2 ^ 32) (hm : m = 2 ^ 32 - 2 ^ k) (hk : k ≤ 32) : x &&& m = x / 2 ^ k * 2 ^ k := by
  have hshift : 2 ^ 32 - 2 ^ k = (2 ^ (32 - k) - 1) <<< k := by
    rw [Nat.shiftLeft_eq, Nat.sub_mul, ← Nat.pow_add, Nat.sub_add_cancel hk, Nat.one_mul]
  rw [hm, hshift]
  apply Nat.eq_of_testBit_eq
  intro i
  rw [Nat.testBit_and, Nat.testBit_shiftLeft, ← Nat.shiftLeft_eq (x / 2 ^ k), Nat.testBit_shiftLeft,
    Nat.testBit_two_pow_sub_one, ← Nat.shiftRight_eq_div_pow, Nat.testBit_shiftRight]
  by_cases hi : k ≤ i
  · rw [show k + (i - k) = i by omega]
    by_cases h32 : i < 32
    · have : i - k < 32 - k := by omega
      simp [hi, this]
    · have : x.testBit i = false :=
        Nat.testBit_lt_two_pow (lt_of_lt_of_le hx (Nat.pow_le_pow_right (by decide) (by omega)))
      simp [this]
  · simp [hi]

/-- A byte of a 64-bit value, in arithmetic. -/
theorem byteOf_eq (v : BitVec 64) (k : Nat) : byteOf v k = BitVec.ofNat 8 (v.toNat / 2 ^ (8 * k)) := by
  apply BitVec.eq_of_toNat_eq
  simp [byteOf, Nat.shiftRight_eq_div_pow]

@[simp] theorem byteOf_zero (k : Nat) : byteOf 0#64 k = 0#8 := by simp [byteOf]

/-- The eight bytes of a value determine it. -/
theorem byteOf_injective {a b : BitVec 64} (h : ∀ k, k < 8 → byteOf a k = byteOf b k) : a = b := by
  apply BitVec.eq_of_getLsbD_eq
  intro i hi
  have := congrArg (fun v => v.getLsbD (i % 8)) (h (i / 8) (by omega))
  have h8 : i % 8 < 8 := Nat.mod_lt _ (by decide)
  simp only [byteOf, BitVec.getLsbD_extractLsb', h8, decide_true, Bool.true_and] at this
  rwa [show 8 * (i / 8) + i % 8 = i by omega] at this

end Sys2Proof.Machine
end

