-- ==== Sys2Proof/Laws/Ring.lean ====
section
/-! SUPPORT. Laws of the ring: entries of BUF, where slots lie, what an 8-byte store into a slot leaves alone, and on which parts of
State each property of Safety depends. -/

namespace Sys2Proof.Safety

open Sys2Proof.Machine

/-! ### Entries of BUF -/

theorem HoldsExactly.congr {s t : State} {n m : Nat} (h : HoldsExactly s n) (hb : t.blk.buf = s.blk.buf) (hn : m = n) :
    HoldsExactly t m := by
  subst hn
  intro i
  unfold bufGet
  rw [hb]
  exact h i

theorem HoldsExactly.get {s : State} {n i : Nat} (h : HoldsExactly s n) (hi : i < n) : ∃ a, bufGet s i = some a :=
  Option.isSome_iff_exists.mp ((h i).mpr hi)

theorem HoldsExactly.get_zero {s : State} (h : HoldsExactly s 0) (i : Nat) : bufGet s i = none := by
  simpa using h i

/-- Setting the next entry makes it one more. -/
theorem HoldsExactly.set {s t : State} {n : Nat} {a : Addr} (h : HoldsExactly s n) (ht : t.blk.buf = sparseSet s.blk.buf n a) :
    HoldsExactly t (n + 1) := by
  intro j
  have := h j
  unfold bufGet at this ⊢
  rw [ht, sparseGet_set]
  split
  · simp
    omega
  · rw [this]
    omega

/-- Clearing the last entry makes it one less. -/
theorem HoldsExactly.clear {s t : State} {n : Nat} (h : HoldsExactly s (n + 1))
    (ht : t.blk.buf = sparseErase s.blk.buf n (n + 1)) : HoldsExactly t n := by
  intro j
  have := h j
  unfold bufGet at this ⊢
  rw [ht, sparseGet_erase]
  split
  · simp
    omega
  · rw [this]
    omega

/-! ### Where slots lie -/

/-- A part of a slot lies inside the table. -/
theorem slot_inside {s : State} {i n o m : Nat} (hi : i < n) (ho : o + m ≤ s.par.slotSize) :
    i * s.par.slotSize + o + m ≤ n * s.par.slotSize := by
  have : (i + 1) * s.par.slotSize ≤ n * s.par.slotSize := Nat.mul_le_mul_right _ hi
  rw [Nat.succ_mul] at this
  omega

/-- Two slots do not overlap. -/
theorem slots_apart {s : State} {i j : Nat} (h : i ≠ j) :
    i * s.par.slotSize + s.par.slotSize ≤ j * s.par.slotSize ∨ j * s.par.slotSize + s.par.slotSize ≤ i * s.par.slotSize := by
  rcases Nat.lt_or_ge i j with hlt | hge
  · left
    have := Nat.mul_le_mul_right s.par.slotSize (show i + 1 ≤ j from hlt)
    rwa [Nat.succ_mul] at this
  · right
    have := Nat.mul_le_mul_right s.par.slotSize (show j + 1 ≤ i by omega)
    rwa [Nat.succ_mul] at this

/-- The address field of a slot of an owned table lies in the bus address space. -/
theorem TableOwned.fits {s : State} (h : TableOwned s) {i : Nat} (hi : i < s.blk.size.toNat) : addrFits (slotAddr s i) := by
  have h1 := slot_inside (s := s) hi s.par.addrOff_le
  have h2 := h.2.2.1
  unfold tableBytes at h2
  simp only [addrFits, slotAddr, slotAddrOf, Config.addrBytes]
  omega

/-- An address field reads as one value only. -/
theorem FieldReads.unique {s : State} {i : Nat} {v w : BitVec 64} (hv : FieldReads s i v) (hw : FieldReads s i w) : v = w := by
  apply byteOf_injective
  intro k hk
  have := hv k hk
  rw [hw k hk] at this
  exact (Option.some.inj this).symm

/-- What a store of `v` into the address field of slot `n` does to the ring: that field reads `v`, every other field, every other byte of
a slot and every byte of a buffer reads as before. -/
theorem write_slot {s t : State} {n : Nat} {v : BitVec 64} (hc : s.env.mem.wf) (hT : TableOwned s) (ho : Owned s)
    (hn : n < s.blk.size.toNat) (hm : t.env.mem = s.env.mem.write64 (slotAddr s n) v) (hp : t.par = s.par)
    (hb : t.blk.tblBase = s.blk.tblBase) :
    FieldReads t n v ∧ (∀ i w, i ≠ n → (FieldReads t i w ↔ FieldReads s i w)) ∧
      (∀ i o, o < s.par.slotSize → (o < s.par.addrOff ∨ s.par.addrOff + 8 ≤ o) →
        t.env.mem.read (s.blk.tblBase.toNat + i * s.par.slotSize + o) =
          s.env.mem.read (s.blk.tblBase.toNat + i * s.par.slotSize + o)) ∧
      (∀ i a o, bufGet s i = some a → o < 4096 → t.env.mem.read (a.toNat + o) = s.env.mem.read (a.toNat + o)) := by
  have ha : ∀ i, slotAddr t i = slotAddr s i := fun i => by unfold slotAddr; rw [hb, hp]
  have hread : ∀ x, t.env.mem.read x =
      if slotAddr s n ≤ x ∧ x < slotAddr s n + 8 then some (byteOf v (x - slotAddr s n)) else s.env.mem.read x :=
    fun x => by rw [hm, Memory.read_write64 hc (hT.fits hn)]
  have hao := s.par.addrOff_le
  refine ⟨fun k hk => ?_, fun i w hi => ?_, fun i o ho' hor => ?_, fun i a o hbuf ho' => ?_⟩
  · rw [ha, hread, if_pos (by omega)]
    congr 2
    omega
  · unfold FieldReads
    have : ∀ k, k < 8 → t.env.mem.read (slotAddr t i + k) = s.env.mem.read (slotAddr s i + k) := by
      intro k hk
      rw [ha, hread, if_neg]
      have := slots_apart (s := s) hi
      simp only [slotAddr, slotAddrOf]
      omega
    exact forall_congr' fun k => forall_congr' fun hk => by rw [this k hk]
  · rw [hread, if_neg]
    simp only [slotAddr, slotAddrOf]
    by_cases h : i = n
    · subst h
      omega
    · have := slots_apart (s := s) h
      omega
  · rw [hread, if_neg]
    have hA := (ho.buffer i a hbuf).2.2.2.2
    have := slot_inside (s := s) hn s.par.addrOff_le
    unfold Apart tableBytes at hA
    simp only [Config.pageSize] at hA
    simp only [slotAddr, slotAddrOf]
    omega

/-! ### What the properties depend on -/

theorem phase_idle {s : State} (h : s.blk.seq = seqIdle) : Phase s ↔ Resting s := by
  unfold Phase
  rw [h]
  rfl

/-- In the lifecycle, BUSY = 0 means IDLE and at rest. -/
theorem phase_resting {s : State} (h : Phase s) (hb : s.blk.busy = false) : s.blk.seq = seqIdle ∧ Resting s := by
  unfold Phase at h
  split at h <;> simp_all [Running, Binding]
  rename_i hi
  exact seq_of_idle hi

theorem Owned.congr {s t : State} (h : Owned s) (hp : t.par = s.par) (hb : t.blk.tblBase = s.blk.tblBase)
    (hs : t.blk.size = s.blk.size) (hbuf : t.blk.buf = s.blk.buf) (hl : t.env.live = s.env.live)
    (hf : t.blk.fsm ≠ .empty → s.blk.fsm ≠ .empty) : Owned t := by
  have hT : TableOwned s → TableOwned t := by
    unfold TableOwned
    rw [hb, hs, hp, hl]
    exact id
  have hB : ∀ a, BufferOwned s a → BufferOwned t a := by
    intro a
    unfold BufferOwned
    rw [hb, hs, hp, hl]
    exact id
  have hg : ∀ i, bufGet t i = bufGet s i := fun i => by unfold bufGet; rw [hbuf]
  refine ⟨fun he => hT (h.table (hf he)), fun i a hi => hB a (h.buffer i a ((hg i).symm.trans hi)), fun i j a b hi hj => ?_⟩
  exact h.distinct i j a b ((hg i).symm.trans hi) ((hg j).symm.trans hj)

theorem TableHolds.congr {s t : State} (h : TableHolds s) (hp : t.par = s.par) (hb : t.blk.tblBase = s.blk.tblBase)
    (hs : t.blk.size = s.blk.size) (hbuf : t.blk.buf = s.blk.buf) (hm : t.env.mem = s.env.mem)
    (hn : stampedCount t = stampedCount s) : TableHolds t := by
  have hg : ∀ i, bufGet t i = bufGet s i := fun i => by unfold bufGet; rw [hbuf]
  have ha : ∀ i, slotAddr t i = slotAddr s i := fun i => by unfold slotAddr; rw [hb, hp]
  have hr : ∀ i v, FieldReads t i v ↔ FieldReads s i v := fun i v => by unfold FieldReads; rw [ha, hm]
  refine ⟨fun i a b => ?_, fun i a b => ?_, fun i o a b c => ?_, fun i a o b c => ?_⟩
  · obtain ⟨x, hx, hy⟩ := h.stamped i (hn ▸ a) (hs ▸ b)
    exact ⟨x, (hg i).trans hx, (hr _ _).mpr hy⟩
  · exact (hr _ _).mpr (h.clear i (hn ▸ a) (hs ▸ b))
  · rw [hm, hb, hp]
    exact h.rest i o (hs ▸ a) (hp ▸ b) (hp ▸ c)
  · rw [hm]
    exact h.pages i a o ((hg i).symm.trans b) c

/-- A device that has not been enabled after more transactions had not been before them. -/
theorem deviceEnabled_mono {s t : State} {l : List Transaction} (hp : t.par = s.par) (ht : t.env.trace = s.env.trace ++ l)
    (h : deviceEnabled t = false) : deviceEnabled s = false := by
  unfold deviceEnabled at *
  rw [ht, hp, List.any_append, Bool.or_eq_false_iff] at h
  exact h.1

end Sys2Proof.Safety
end

