-- ==== Sys2Proof/Tests/Slice0.lean ====
section
/-! SUPPORT. The author's tests: expected values written out from spec/95_test_vectors.md (the vector is named in each comment), and for
every obligation with hypotheses a named witness that meets them. -/

namespace Sys2Proof.Tests

open Sys2Proof.Machine Sys2Proof.Safety

/-! ### Form, encoding, decoding -/

/-- 30_encoding R99: `size` is 32 bits wide; every instruction without an operand is well-formed. -/
theorem test_wellFormed_size : ¬ (Instr.new .receive (2 ^ 32)).WellFormed ∧ (Instr.new .receive (2 ^ 32 - 1)).WellFormed ∧
    Instr.init.WellFormed ∧ Instr.wTmo.WellFormed := by decide

/-- 95 part 2, table 'Encode'. -/
theorem test_decode_commands :
    decode (.command 0x0000010000000001#64) = .ok (.new .receive 256) ∧
    decode (.command 0x0000010000000101#64) = .ok (.new .transmit 256) ∧
    decode (.command 0x0000000200000001#64) = .ok (.new .receive 2) ∧
    decode (.command 0xFFFFFFFF00000101#64) = .ok (.new .transmit 4294967295) ∧
    decode (.command 0x0000000000000002#64) = .ok .init := by decide

/-- 30_encoding R104, codes 0x01 to 0x09, bit by bit. -/
theorem test_decode_micro_low :
    decode (.micro 0b00001#5) = .ok .nAlloc ∧ decode (.micro 0b00010#5) = .ok .bAlloc ∧
    decode (.micro 0b00011#5) = .ok .bStamp ∧ decode (.micro 0b00100#5) = .ok .bEmit ∧
    decode (.micro 0b00101#5) = .ok .uClear ∧ decode (.micro 0b00110#5) = .ok .uFree ∧
    decode (.micro 0b00111#5) = .ok .uDone ∧ decode (.micro 0b01000#5) = .ok .tNop ∧
    decode (.micro 0b01001#5) = .ok .pBal := by decide

/-- 30_encoding R104, codes 0x0A to 0x11, bit by bit. -/
theorem test_decode_micro_high :
    decode (.micro 0b01010#5) = .ok .pBah ∧ decode (.micro 0b01011#5) = .ok .pLen ∧
    decode (.micro 0b01100#5) = .ok .pCtlr ∧ decode (.micro 0b01101#5) = .ok .pCtlw ∧
    decode (.micro 0b01110#5) = .ok .pEn ∧ decode (.micro 0b01111#5) = .ok .wPoll ∧
    decode (.micro 0b10000#5) = .ok .wWait ∧ decode (.micro 0b10001#5) = .ok .wTmo := by decide

/-- 95 part 2, table 'Encode', the other way. -/
theorem test_encode_commands :
    encode (.new .receive 3) = .command 0x0000000300000001#64 ∧ encode (.new .transmit 4) = .command 0x0000000400000101#64 ∧
    encode .init = .command 0x0000000000000002#64 := by decide

/-- 95 E4 to E8, E11, E12; 30_encoding R104: words that are no instruction, each with its reason. -/
theorem test_decode_rejects :
    decode (.command 0x0000000000000000#64) = .error .reservedOpcode ∧
    decode (.command 0x0000000200000003#64) = .error .reservedOpcode ∧
    decode (.command 0x00000002000000FF#64) = .error .reservedOpcode ∧
    decode (.command 0x0000000200000201#64) = .error .reservedBits ∧
    decode (.command 0x0000000280000001#64) = .error .reservedBits ∧
    decode (.command 0x0000000000000102#64) = .error .initOperand ∧
    decode (.command 0x0000000100000002#64) = .error .initOperand ∧
    decode (.micro 0x00#5) = .error .idle ∧ decode (.micro 0x12#5) = .error .unusedCode ∧
    decode (.micro 0x1F#5) = .error .unusedCode := by decide

/-- spec/opcode_table.json: words of the rows, numbered as the table numbers them. -/
theorem test_tableWord :
    decodeTableWord 64 0x0000000200000101 = some (.new .transmit 2) ∧ decodeTableWord 64 2 = some .init ∧
    decodeTableWord 8 0x0E = some .pEn ∧ decodeTableWord 8 0x20 = none ∧ decodeTableWord 64 (2 ^ 64) = none := by decide

/-- 30_encoding R114, R115; 95 part 2 column 'text'. -/
theorem test_assemble :
    assembleLine "NEW RX, 256".toList = .ok (some (.new .receive 256)) ∧
    assembleLine "NEW TX ; default".toList = .ok (some (.new .transmit 256)) ∧
    assembleLine "NEW TX, 0x10".toList = .ok (some (.new .transmit 16)) ∧
    assembleLine "INIT".toList = .ok (some .init) ∧ assembleLine "; none".toList = .ok none ∧
    assembleLine "NEW RX, 4294967296".toList = .error .sizeTooWide := by decide

/-- R114, decimal and `0x` hexadecimal; what is no number of these forms (the underscore: log entry 16). -/
theorem test_asmNumber :
    asmNumber ['0', 'x', 'F', 'f'] = some 255 ∧ asmNumber ['9', '0'] = some 90 ∧ asmNumber ['0', 'x'] = none ∧
    asmNumber ['A'] = none ∧ asmNumber ['1', '_', '0'] = none ∧ asmNumber ['0', 'x', 'g'] = none := by decide

/-! ### Values -/

/-- 95 part 5, table BAL and BAH. -/
theorem test_values_base :
    balValue 0x0000000123456000#64 = 0x23456000#32 ∧ bahValue 0x0000000123456000#64 = 0x00000001#32 ∧
    balValue 0x0000000289ABCDEF#64 = 0x89ABCDE0#32 ∧ bahValue 0xFFFFFFFFFFFFF000#64 = 0xFFFFFFFF#32 ∧
    balValue 0x000000010000000F#64 = 0#32 := by decide

/-- 95 part 5, table LEN. -/
theorem test_values_len :
    lenValue 256#32 16 = 0x1000#32 ∧ lenValue 3#32 16 = 0x20#32 ∧ lenValue 1#32 16 = 0#32 ∧ lenValue 3#32 32 = 0x60#32 ∧
    lenValue 0x10000000#32 16 = 0#32 ∧ lenValue 0x10000002#32 16 = 0x20#32 ∧ lenValue 0xFFFFFFFF#32 16 = 0xFFFFFFE0#32 ∧
    lenValue 0x0FFFFFFE#32 16 = 0xFFFFFFE0#32 := by decide

/-- 95 part 5, table RXCTL. -/
theorem test_values_ctl :
    ctlValue 0x0400047F#32 4#7 = 0x04000404#32 ∧ ctlValue 0xDEADBE7F#32 4#7 = 0xDEADBE04#32 ∧
    ctlValue 0xFFFFFFFF#32 0#7 = 0xFFFFFF80#32 ∧ ctlValue 0#32 127#7 = 0x7F#32 ∧ ctlValue 0x80#32 2#7 = 0x82#32 := by decide

/-- 95 part 6, table `acked`, both columns; the instance uses the first (00_scope R26). -/
theorem test_values_acked :
    ackedWith 0x02000000#32 false 0#32 = true ∧ ackedWith 0x02000000#32 false 0x02000000#32 = false ∧
    ackedWith 0x02000000#32 false 0xFFFFFFFF#32 = false ∧ ackedWith 0x02000000#32 false 0xFDFFFFFF#32 = true ∧
    ackedWith 0x02000000#32 true 0xFFFFFFFF#32 = true ∧ ackedWith 0x02000000#32 true 0x01000000#32 = false := by decide

/-- 95 part 4, tables 'slot address' and 'stamp bytes'. -/
theorem test_values_slots :
    slotAddrOf 0x0000000100001000#64 16 0 255 = 0x0000000100001FF0 ∧ slotAddrOf 0x0000000100001000#64 32 8 3 = 0x0000000100001068 ∧
    slotAddrOf 0x00000000FFFFF000#64 16 0 256 = 0x0000000100000000 ∧
    leBytes 0xFEDCBA9876543000#64 = [0x00#8, 0x30#8, 0x54#8, 0x76#8, 0x98#8, 0xBA#8, 0xDC#8, 0xFE#8] := by decide

/-- 95 parts 4 and 6: packed records. -/
theorem test_values_records :
    (Event.slotBound 1#32 .receive).pack = 0x1000000000000001#64 ∧ (Event.slotBound 3#32 .transmit).pack = 0x1000000100000003#64 ∧
    Event.enableTimeout.pack = 0x2000000000000000#64 := by decide

/-! ### Small states. `ring` is a receive ring of two slots at 0x1000 with the reference parameters of 95 part 0. -/

/-- What a next state is tested for; anything else fails. -/
def nextIs (o : Host.Outcome State Fault Refusal) (p : State → Bool) : Bool :=
  match o with
  | .next t => p t
  | _ => false

/-- A fault of the given kind. -/
def faultIs (o : Host.Outcome State Fault Refusal) (f : Fault) : Bool :=
  match o with
  | .fault g => decide (g = f)
  | _ => false

/-- Reset, with the reference parameters. -/
def start : State := { State.reset with par := Inhabited.default }

/-- A block with BUSY = 1 at a SEQ code. -/
def running (c : SeqCode) (s : State) : State := { s with blk := { s.blk with seq := c, busy := true } }

/-- A constructed receive ring of two slots. -/
def ring : State :=
  { start with
    blk := { Block.reset with fsm := .constructed, size := 2#32, tblBase := 0x1000#64, cmdreg := 2#64 }
    env := { Env.start with live := [⟨0x1000#64, 32, .both⟩], mem := ⟨[], [(0x1000, 0x1020)]⟩ } }

/-- The ring with a buffer at 0x2000 for slot 0 and one at 0x3000 for slot 1, both stamped. -/
def full : State :=
  { ring with
    blk := { ring.blk with fsm := .bound, idx := 2#32, buf := [(0, 0x2000#64), (1, 0x3000#64)] }
    env := { ring.env with
      live := [⟨0x1000#64, 32, .both⟩, ⟨0x2000#64, 4096, .both⟩, ⟨0x3000#64, 4096, .both⟩]
      mem := ⟨[(0x1001, 0x20#8), (0x1011, 0x30#8)], [(0x1000, 0x1001), (0x1002, 0x1011), (0x1012, 0x1020), (0x2000, 0x4000)]⟩ } }

/-- The first `n` buffers are bound, IDX = `i`. -/
def bound (n : Nat) (i : Word32) : State :=
  { full with blk := { full.blk with fsm := .constructed, idx := i, buf := full.blk.buf.take n } }

/-- With the device's next answer. -/
def reads (v : Word32) (s : State) : State := { s with inp := { s.inp with readAnswers := [v] } }

/-- With the allocator's next answer. -/
def grants (r : Option Addr) (s : State) : State := { s with inp := { s.inp with allocAnswers := [r] } }

/-- With the other agents' moves. -/
def moving (ms : List Move) (s : State) : State := { s with inp := { s.inp with moves := ms } }

/-! ### The host: submission and reset -/

/-- 95 E1, E10. -/
theorem test_submit_accepted :
    nextIs (step (moving [.submit 0x0000000200000001#64] start)) (fun t =>
      t.blk == { start.blk with cmdreg := 0x0000000200000001#64, busy := true, result := .none, seq := 0x01#5 }) = true ∧
    nextIs (step (moving [.submit 2#64] ring)) (fun t =>
      t.blk == { ring.blk with cmdreg := 2#64, busy := true, result := .none, idx := 0#32, seq := 0x02#5 }) = true := by decide

/-- 95 E2, E3, E4, E7, E9, E11. -/
theorem test_submit_refused :
    ([(2#64, start), (1#64, start), (0#64, start), (0x0000000200000201#64, start), (0x0000000200000001#64, ring),
      (0x0000000000000102#64, ring)] : List (CmdWord × State)).all (fun x =>
      nextIs (step (moving [.submit x.1] x.2)) (fun t => t.blk == { x.2.blk with result := .refused })) = true := by decide

/-- 95 E18, E19: the largest accepted size is N_MAX. -/
theorem test_new_size_range :
    nextIs (exec (.new .receive 257) { start with par := { nMax := 256 } }) (fun t => t.blk.result == .refused) = true ∧
    nextIs (exec (.new .receive 4294967295) start) (fun t => t.blk.cmdreg == 0xFFFFFFFF00000001#64) = true := by decide

/-- 95 E13, E14: INIT again is refused, and the lifecycle state stays. -/
theorem test_init_refused :
    nextIs (exec .init full) (fun t => t.blk == { full.blk with result := .refused }) = true ∧
    nextIs (exec .init { full with blk := { full.blk with fsm := .enabled } }) (fun t =>
      t.blk.fsm == .enabled && t.blk.result == .refused) = true := by decide

/-- 95 E17: during a run a submission waits. -/
theorem test_submit_waits :
    nextIs (step (moving [.submit 2#64] (running 0x09#5 full))) (fun t =>
      t.inp.moves == [.submit 2#64] && t.blk.seq == 0x0A#5) = true := by decide

/-- 95 part 8, 'Reset in mid-run': the block is reset, the environment is not. -/
theorem test_reset_midrun :
    nextIs (step (moving [.reset] (running 0x10#5 full))) (fun t => t.blk == Block.reset && t.env == full.env) = true := by decide

/-- 10_state R62, 70_reset R183: a DMA write happens after the enable command only. -/
theorem test_dma :
    nextIs (step (moving [.dma 0x1008#64 7#8] full)) (fun t => t.env == full.env) = true ∧
    nextIs (step (moving [.dma 0x1008#64 7#8]
      { full with env := { full.env with trace := [.regWrite full.par.offQctl 0x02000000#32] } })) (fun t =>
      t.env.mem.read 0x1008 == some 7#8) = true := by decide

/-! ### Construction and binding -/

/-- 95 V2, V5. -/
theorem test_nAlloc_answers :
    nextIs (exec .nAlloc (grants (some 0x0000000100001000#64) (running 0x01#5
      { start with blk := { start.blk with cmdreg := 0x0000000200000001#64 } }))) (fun t =>
        t.blk.tblBase == 0x0000000100001000#64 && t.blk.size == 2#32 && t.blk.role == .receive && t.blk.fsm == .constructed &&
        t.blk.result == .ok && !t.blk.busy && t.env.trace == [.alloc 32 4096 .both (some 0x0000000100001000#64)] &&
        t.env.mem.read 0x000000010000101F == some 0#8 && t.env.mem.read 0x0000000100001020 == none) = true ∧
    nextIs (exec .nAlloc (grants none (running 0x01#5
      { start with blk := { start.blk with cmdreg := 0x0000010000000001#64 } }))) (fun t =>
        t.blk.result == .noMemory && t.blk.fsm == .empty && t.blk.size == 0#32 && t.env.live == []) = true := by decide

/-- 95 V6: the slot size is a parameter. -/
theorem test_nAlloc_slotSize :
    nextIs (exec .nAlloc (grants (some 0x5000#64)
      { start with par := { slotSize := 32 }, blk := { start.blk with cmdreg := 0x0000000300000101#64 } })) (fun t =>
        t.blk.role == .transmit && t.env.trace == [.alloc 96 4096 .both (some 0x5000#64)]) = true := by decide

/-- 95 part 4, '`B_ALLOC` on failure', and P1 step 1. -/
theorem test_bAlloc :
    nextIs (exec .bAlloc (grants none (bound 0 0#32))) (fun t => t.blk.seq == 0x07#5) = true ∧
    nextIs (exec .bAlloc (grants none (bound 2 2#32))) (fun t => t.blk.seq == 0x05#5 && t.blk.idx == 2#32) = true ∧
    nextIs (exec .bAlloc (grants (some 0x2000#64) (bound 0 0#32))) (fun t =>
      t.blk.buf == [(0, 0x2000#64)] && t.blk.seq == 0x03#5) = true := by decide

/-- 95 part 4, 'stamp bytes': slot 1 gets `00 30 00 00 00 00 00 00`. -/
theorem test_bStamp :
    nextIs (exec .bStamp { (bound 2 1#32) with env := ring.env }) (fun t =>
      t.env.mem.read 0x1010 == some 0#8 && t.env.mem.read 0x1011 == some 0x30#8 && t.env.mem.read 0x1000 == some 0#8 &&
      t.env.trace == [.memWrite 0x1010 0x3000#64]) = true ∧
    faultIs (exec .bStamp (bound 0 0#32)) (.bufEmpty 0) = true := by decide

/-- 95 part 4, '`B_EMIT` decisions', rows 1 and 2. -/
theorem test_bEmit_receive :
    nextIs (exec .bEmit (bound 1 0#32)) (fun t =>
      t.blk.idx == 1#32 && t.blk.fsm == .constructed && t.blk.seq == 0x02#5 && t.env.events == [.slotBound 0#32 .receive]) = true ∧
    nextIs (exec .bEmit (bound 2 1#32)) (fun t =>
      t.blk.idx == 2#32 && t.blk.fsm == .bound && t.blk.seq == 0x09#5) = true := by decide

/-- 95 part 4, '`B_EMIT` decisions', row 4. -/
theorem test_bEmit_transmit :
    nextIs (exec .bEmit { ring with blk := { ring.blk with role := .transmit, size := 4#32, idx := 3#32 } }) (fun t =>
      t.blk.idx == 4#32 && t.blk.fsm == .bound && t.blk.seq == 0x08#5 && t.env.events == [.slotBound 3#32 .transmit]) = true := by
  decide

/-- 95 part 4, 'Unwind', and P5 step 8. -/
theorem test_uClear :
    nextIs (exec .uClear (bound 2 2#32)) (fun t =>
      t.blk.idx == 1#32 && t.blk.seq == 0x06#5 && t.env.mem.read 0x1011 == some 0#8 && t.env.mem.read 0x1001 == some 0x20#8 &&
      t.env.trace == [.memWrite 0x1010 0#64]) = true := by decide

/-- 95 part 4, 'Unwind', and P5 steps 9 and 11. -/
theorem test_uFree :
    nextIs (exec .uFree (bound 2 1#32)) (fun t =>
      t.blk.buf == [(0, 0x2000#64)] && t.blk.seq == 0x05#5 && t.env.trace == [.release 0x3000#64] && t.env.live.length == 2) = true ∧
    nextIs (exec .uFree (bound 1 0#32)) (fun t => t.blk.buf == [] && t.blk.seq == 0x07#5) = true := by decide

/-- P5 step 12. -/
theorem test_uDone :
    nextIs (exec .uDone (running 0x07#5 ring)) (fun t => t.blk == { ring.blk with result := .noMemory }) = true := by decide

/-- 95 part 7. -/
theorem test_tNop :
    nextIs (exec .tNop (running 0x08#5 { full with blk := { full.blk with role := .transmit } })) (fun t =>
      t.blk.result == .ok && !t.blk.busy && t.blk.seq == 0#5 && t.blk.fsm == .bound && !t.blk.prog && t.env == full.env) = true := by
  decide

/-! ### Receive programming and the wait -/

/-- P6: BAL, BAH and LEN of a ring of three slots at 0x0000000289ABC000. -/
theorem test_program_base :
    let s := { full with blk := { full.blk with size := 3#32, tblBase := 0x0000000289ABC000#64 } }
    nextIs (exec .pBal s) (fun t => t.blk.seq == 0x0A#5 && t.env.trace == [.regWrite 0x00#32 0x89ABC000#32]) = true ∧
    nextIs (exec .pBah s) (fun t => t.blk.seq == 0x0B#5 && t.env.trace == [.regWrite 0x04#32 0x00000002#32]) = true ∧
    nextIs (exec .pLen s) (fun t => t.blk.seq == 0x0C#5 && t.env.trace == [.regWrite 0x08#32 0x00000020#32]) = true := by decide

/-- P1 steps 10 and 11. -/
theorem test_program_ctl :
    nextIs (exec .pCtlr (reads 0x0400047F#32 full)) (fun t =>
      t.blk.ctltmp == 0x0400047F#32 && t.blk.seq == 0x0D#5 && t.env.trace == [.regRead 0x0C#32 0x0400047F#32] &&
      t.inp.readAnswers == []) = true ∧
    nextIs (exec .pCtlw { full with blk := { full.blk with ctltmp := 0x0400047F#32 } }) (fun t =>
      t.env.trace == [.regWrite 0x0C#32 0x04000404#32] && t.blk.seq == 0x0E#5) = true := by decide

/-- 95 part 5, `P_EN`. -/
theorem test_program_enable :
    nextIs (exec .pEn { full with blk := { full.blk with att := 7#32 } }) (fun t =>
      t.blk.prog && t.blk.att == 0#32 && t.blk.seq == 0x0F#5 && t.blk.fsm == .bound &&
      t.env.trace == [.regWrite 0x28#32 0x02000000#32]) = true := by decide

/-- P1 steps 13 and 15. -/
theorem test_wPoll :
    nextIs (exec .wPoll (reads 0x02000000#32 (running 0x0F#5 full))) (fun t =>
      t.blk.att == 1#32 && t.blk.seq == 0x10#5 && t.blk.busy && t.blk.fsm == .bound) = true ∧
    nextIs (exec .wPoll (reads 0#32 (running 0x0F#5 full))) (fun t =>
      t.blk.att == 1#32 && t.blk.seq == 0#5 && !t.blk.busy && t.blk.fsm == .enabled && t.blk.result == .ok) = true := by decide

/-- 95 part 6, '`W_WAIT` branch'. -/
theorem test_wWait :
    ([(1#32, 0x0F#5), (999#32, 0x0F#5), (1000#32, 0x11#5)] : List (Word32 × SeqCode)).all (fun x =>
      nextIs (exec .wWait { full with blk := { full.blk with att := x.1 } }) (fun t =>
        t.blk.seq == x.2 && t.env.waited == 1 && t.env.trace == [])) = true := by decide

/-- P3 step 2013. -/
theorem test_wTmo :
    nextIs (exec .wTmo (running 0x11#5 full)) (fun t =>
      t.blk.result == .timedOut && !t.blk.busy && t.blk.fsm == .bound && t.env.events == [.enableTimeout]) = true := by decide

/-- 10_state R55, 30_encoding R103: what the host reads of `full`; BUF beyond SIZE is not readable. -/
theorem test_hostView :
    hostView full = ⟨2, 0, 0, 2, 0x1000, 2, 0, 0, 0, 0⟩ ∧ (hostReadBuf full 1).toOption = some 0x3000#64 ∧
    (hostReadBuf full 2).toOption = none := by decide

/-- `withFetchWord`: the next step runs the word's instruction (log entry 13). -/
theorem test_withFetchWord :
    nextIs (step (State.reset.withFetchWord 8 0x0E)) (fun t => t.blk.prog && t.blk.seq == 0x0F#5) = true ∧
    nextIs (step (State.reset.withFetchWord 64 2)) (fun t => t.blk.result == .refused) = true := by decide

/-! ### Witnesses: for each obligation with hypotheses, states and operands that meet all of them, at the boundary values of each clause -/

/-- Every step of these tests answers a next state. -/
abbrev steps (s : State) : Prop := ∃ t, step s = .next t

theorem test_witness_DecodeOfEncodeIsTheInstruction :
    (Instr.new .transmit (2 ^ 32 - 1)).WellFormed ∧ (Instr.new .receive 0).WellFormed ∧ Instr.init.WellFormed ∧
      Instr.wTmo.WellFormed := by decide

theorem test_witness_EncodeOfDecodeIsTheWord :
    decode (.command 0xFFFFFFFF00000101#64) = .ok (.new .transmit 4294967295) ∧ decode (.command 2#64) = .ok .init ∧
      decode (.micro 0x11#5) = .ok .wTmo := by decide

theorem test_witness_ReservedWordsAreNoInstruction :
    ((0#64 : CmdWord).toNat % 2 ^ 8 ≠ 1 ∧ (0#64 : CmdWord).toNat % 2 ^ 8 ≠ 2) ∧
    ((0xFF#64 : CmdWord).toNat % 2 ^ 8 ≠ 1 ∧ (0xFF#64 : CmdWord).toNat % 2 ^ 8 ≠ 2) ∧
    ((0x201#64 : CmdWord).toNat % 2 ^ 8 = 1 ∧ (0x201#64 : CmdWord).toNat / 2 ^ 9 % 2 ^ 23 ≠ 0) ∧
    ((0x80000002#64 : CmdWord).toNat % 2 ^ 8 = 2 ∧ (0x80000002#64 : CmdWord).toNat / 2 ^ 9 % 2 ^ 23 ≠ 0) ∧
    ((0x102#64 : CmdWord).toNat % 2 ^ 8 = 2 ∧ (0x102#64 : CmdWord).toNat / 2 ^ 9 % 2 ^ 23 = 0 ∧
      (0x102#64 : CmdWord).toNat / 2 ^ 8 ≠ 0) ∧
    ((0x100000002#64 : CmdWord).toNat % 2 ^ 8 = 2 ∧ (0x100000002#64 : CmdWord).toNat / 2 ^ 9 % 2 ^ 23 = 0 ∧
      (0x100000002#64 : CmdWord).toNat / 2 ^ 8 ≠ 0) ∧
    (0x00#5 : SeqCode).toNat = 0 ∧ 0x12 ≤ (0x12#5 : SeqCode).toNat ∧ 0x12 ≤ (0x1F#5 : SeqCode).toNat := by decide

theorem test_witness_StepRunsTheMicroOperation :
    (start.inp.moves = [] ∧ start.blk.seq.toNat = 0) ∧
    ((moving [.quiet] (running 0x12#5 full)).inp.moves = [.quiet] ∧ 0x12 ≤ (running 0x12#5 full).blk.seq.toNat) ∧
    ((moving [.submit 2#64] (running 0x11#5 full)).inp.moves = [.submit 2#64] ∧ (running 0x11#5 full).blk.busy = true ∧
      decode (.micro (running 0x11#5 full).blk.seq) = .ok .wTmo) := by decide

theorem test_witness_StepRunsTheSubmittedCommand :
    (moving [.submit 2#64] ring).inp.moves = [.submit 2#64] ∧ ring.blk.busy = false ∧ decode (.command 2#64) = .ok .init := by decide

theorem test_witness_PortIsNotReadyDuringARun :
    ((moving [.submit 2#64] (running 0x09#5 full)).inp.moves = [.submit 2#64] ∧ (running 0x09#5 full).blk.busy = true) ∧
      steps (moving [.submit 2#64] (running 0x09#5 full)) := ⟨by decide, _, rfl⟩

theorem test_witness_SubmissionIsAccepted :
    (start.blk.busy = false ∧ start.blk.fsm = .empty ∧ ring.blk.busy = false ∧ ring.blk.fsm = .constructed) ∧
    ((moving [.submit 0x0000000100000001#64] start).inp.moves = [.submit 0x0000000100000001#64] ∧
      (0x0000000100000001#64 : CmdWord).toNat % 2 ^ 8 = 1 ∧ (0x0000000100000001#64 : CmdWord).toNat / 2 ^ 9 % 2 ^ 23 = 0 ∧
      1 ≤ (0x0000000100000001#64 : CmdWord).toNat / 2 ^ 32 ∧
      (0x0000000100000001#64 : CmdWord).toNat / 2 ^ 32 ≤ start.par.nMax) ∧
    ((0xFFFFFFFF00000101#64 : CmdWord).toNat % 2 ^ 8 = 1 ∧ (0xFFFFFFFF00000101#64 : CmdWord).toNat / 2 ^ 9 % 2 ^ 23 = 0 ∧
      (0xFFFFFFFF00000101#64 : CmdWord).toNat / 2 ^ 32 = start.par.nMax) ∧
    ((2#64 : CmdWord).toNat % 2 ^ 8 = 2 ∧ (2#64 : CmdWord).toNat / 2 ^ 8 = 0) :=
  ⟨by decide, ⟨rfl, by decide⟩, by decide, by decide⟩

theorem test_witness_SubmissionIsRefused :
    ∀ x ∈ ([(1#64, start), (2#64, start), (0x0000000200000001#64, ring), (0x102#64, ring)] : List (CmdWord × State)),
      (moving [.submit x.1] x.2).inp.moves = [.submit x.1] ∧ x.2.blk.busy = false ∧
      ¬ (x.1.toNat % 2 ^ 8 = 1 ∧ x.1.toNat / 2 ^ 9 % 2 ^ 23 = 0 ∧ x.2.blk.fsm = .empty ∧
          1 ≤ x.1.toNat / 2 ^ 32 ∧ x.1.toNat / 2 ^ 32 ≤ x.2.par.nMax) ∧
      ¬ (x.1.toNat % 2 ^ 8 = 2 ∧ x.1.toNat / 2 ^ 8 = 0 ∧ x.2.blk.fsm = .constructed) := by decide

theorem test_witness_CommandsComplete :
    start.blk.busy = false ∧ start.blk.fsm = .empty ∧ 1 ≤ start.par.nMax ∧ start.par.nMax ≤ start.par.nMax ∧
    ¬ (start.blk.fsm = .empty ∧ 1 ≤ 0 ∧ 0 ≤ start.par.nMax) ∧
    ¬ (start.blk.fsm = .empty ∧ 1 ≤ start.par.nMax + 1 ∧ start.par.nMax + 1 ≤ start.par.nMax) ∧
    ring.blk.busy = false ∧ ring.blk.fsm = .constructed ∧ start.blk.fsm ≠ .constructed := by decide

theorem test_canonical_ring : Canonical ring ∧ Canonical full ∧ Canonical start :=
  ⟨⟨by decide, by decide⟩, ⟨by decide, by decide⟩, ⟨by decide, by decide⟩⟩

theorem test_witness_TableIsAllocated :
    allocAnswer (grants (some 0x5000#64) start) = some 0x5000#64 ∧ allocAnswer (grants none start) = none ∧
      Canonical (grants (some 0x5000#64) start) ∧
      (0x5000#64 : Addr).toNat + start.blk.cmdreg.toNat / 2 ^ 32 * start.par.slotSize ≤ 2 ^ 64 :=
  ⟨by decide, by decide, test_canonical_ring.2.2, by decide⟩

theorem test_witness_BufferIsAllocated :
    allocAnswer (grants (some 0x5000#64) ring) = some 0x5000#64 ∧ allocAnswer (grants none (bound 0 0#32)) = none ∧
      allocAnswer (grants none (bound 2 2#32)) = none ∧ Canonical (grants (some 0x5000#64) ring) ∧
      (0xFFFFFFFFFFFFF000#64 : Addr).toNat + 4096 = 2 ^ 64 :=
  ⟨by decide, by decide, by decide, test_canonical_ring.1, by decide⟩

/-- A ring whose last address field ends at the top of the bus address space. -/
def atTop (i : Word32) : State :=
  { bound 2 i with
    par := { slotSize := 4096, addrOff := 4088 }
    blk := { (bound 2 i).blk with tblBase := 0xFFFFFFFFFFFFF000#64 } }

theorem test_witness_BufferAddressIsStamped :
    bufGet (atTop 0#32) (atTop 0#32).blk.idx.toNat = some 0x2000#64 ∧
      (atTop 0#32).blk.tblBase.toNat + (atTop 0#32).blk.idx.toNat * (atTop 0#32).par.slotSize + (atTop 0#32).par.addrOff + 8 =
        2 ^ 64 ∧
      Canonical (atTop 0#32) := ⟨by decide, by decide, by decide, by decide⟩

theorem test_witness_SlotIsReported :
    ((bound 1 0#32).blk.idx.toNat + 1 < 2 ^ 32 ∧ (bound 1 0#32).blk.idx.toNat + 1 < (bound 1 0#32).blk.size.toNat) ∧
    ((bound 2 1#32).blk.idx.toNat + 1 < 2 ^ 32 ∧ ¬ (bound 2 1#32).blk.idx.toNat + 1 < (bound 2 1#32).blk.size.toNat) ∧
    (bound 2 0xFFFFFFFE#32).blk.idx.toNat + 1 < 2 ^ 32 := by decide

theorem test_witness_AddressFieldIsCleared :
    1 ≤ (atTop 1#32).blk.idx.toNat ∧
      (atTop 1#32).blk.tblBase.toNat + ((atTop 1#32).blk.idx.toNat - 1) * (atTop 1#32).par.slotSize + (atTop 1#32).par.addrOff + 8 =
        2 ^ 64 ∧
      Canonical (atTop 1#32) := ⟨by decide, by decide, by decide, by decide⟩

theorem test_witness_BufferIsReleased :
    bufGet (bound 1 0#32) (bound 1 0#32).blk.idx.toNat = some 0x2000#64 ∧
      bufGet (bound 2 1#32) (bound 2 1#32).blk.idx.toNat = some 0x3000#64 := by decide

theorem test_witness_EmptyEntryIsNeverRead :
    bufGet (bound 0 0#32) (bound 0 0#32).blk.idx.toNat = none ∧ bufGet full 2 = none ∧
      (1 < full.blk.size.toNat ∧ bufGet full 1 = some 0x3000#64) ∧
      (let s : State := { full with blk := { full.blk with size := 1#32 } }
       s.blk.size.toNat ≤ 1 ∧ bufGet s 1 = some 0x3000#64) := by decide

theorem test_witness_CounterOutsideItsRangeIsFree :
    (bound 2 0xFFFFFFFF#32).blk.idx.toNat = 2 ^ 32 - 1 ∧ (bound 0 0#32).blk.idx.toNat = 0 ∧
    ({ full with blk := { full.blk with att := 0xFFFFFFFF#32 } } : State).blk.att.toNat = 2 ^ 32 - 1 ∧
    (bound 0 0#32).blk.tblBase.toNat + (Config.freeCount (bound 0 0#32).inp.drawn).toNat * (bound 0 0#32).par.slotSize +
      (bound 0 0#32).par.addrOff + 8 ≤ 2 ^ 64 ∧ Canonical (bound 0 0#32) := by
  refine ⟨by decide, by decide, by decide, ?_, by decide, by decide⟩
  have h1 := (Config.freeCount (bound 0 0#32).inp.drawn).isLt
  have h2 : (bound 0 0#32).blk.tblBase.toNat = 0x1000 := by decide
  have h3 : (bound 0 0#32).par.slotSize = 16 := by decide
  have h4 : (bound 0 0#32).par.addrOff = 0 := by decide
  rw [h2, h3, h4]
  omega

theorem test_witness_FieldOutsideTheBusFaults :
    (bufGet (atTop 1#32) (atTop 1#32).blk.idx.toNat = some 0x3000#64 ∧
      2 ^ 64 < slotAddr (atTop 1#32) (atTop 1#32).blk.idx.toNat + 8) ∧
    2 ^ 64 < slotAddr (atTop 2#32) (stepBack (atTop 2#32)).toNat + 8 := by decide

theorem test_witness_RegisterSequenceIsInOrder :
    Undisturbed (running 0x09#5 full) ∧ (running 0x09#5 full).blk.seq = 0x09#5 := ⟨rfl, rfl⟩

theorem test_witness_EnableIsPolled :
    full.par.ackMask.toNat = 2 ^ 25 ∧ full.blk.att.toNat + 1 < 2 ^ 32 ∧ (readAnswer (reads 0#32 full)).getLsbD 25 = false ∧
      (readAnswer (reads 0x02000000#32 full)).getLsbD 25 = true ∧
      ({ full with blk := { full.blk with att := 0xFFFFFFFE#32 } } : State).blk.att.toNat + 1 < 2 ^ 32 := by decide

/-- The ring at its first poll, with the device's answers. -/
def waiting (l : List Word32) : State := { running 0x0F#5 full with inp := { Inputs.none with readAnswers := l } }

/-- The last poll acknowledges: 999 answers do not, the 1000th does (95 W3). -/
theorem test_witness_WaitEndsAtTheAcknowledgment :
    let before := List.replicate 999 0x02000000#32
    let s := waiting (before ++ 0#32 :: [])
    Undisturbed s ∧ s.blk.seq = 0x0F#5 ∧ s.blk.att = 0#32 ∧ s.inp.readAnswers = before ++ 0#32 :: [] ∧
      (∀ u ∈ before, u &&& s.par.ackMask ≠ 0#32) ∧ 0#32 &&& s.par.ackMask = 0#32 ∧ before.length < 1000 := by
  intro before s
  refine ⟨rfl, rfl, rfl, rfl, fun u hu => ?_, by decide,
    lt_of_eq_of_lt List.length_replicate (by decide)⟩
  rw [List.eq_of_mem_replicate hu]
  decide

/-- 95 W6: a thousand answers that do not acknowledge, and one more that is never read. -/
theorem test_witness_WaitTimesOutAfterAThousandPolls :
    let answers := List.replicate 1000 0x02000000#32
    let s := waiting (answers ++ [0#32])
    Undisturbed s ∧ s.blk.seq = 0x0F#5 ∧ s.blk.att = 0#32 ∧ s.inp.readAnswers = answers ++ [0#32] ∧ answers.length = 1000 ∧
      (∀ u ∈ answers, u &&& s.par.ackMask ≠ 0#32) := by
  intro answers s
  refine ⟨rfl, rfl, rfl, rfl, List.length_replicate, fun u hu => ?_⟩
  rw [List.eq_of_mem_replicate hu]
  decide

theorem test_witness_WaitAlwaysEnds :
    Undisturbed (waiting []) ∧ (waiting []).blk.seq = 0x0F#5 ∧ (waiting []).blk.att.toNat < 1000 := ⟨rfl, rfl, by decide⟩

/-! The ring of these tests is in the lifecycle. -/

theorem holds_bound_0 (i : Word32) : HoldsExactly (bound 0 i) 0 := by
  intro j
  simp [bufGet, bound, full, ring, sparseGet]

theorem holds_bound_1 (i : Word32) : HoldsExactly (bound 1 i) 1 := by
  intro j
  match j with
  | 0 => simp [bufGet, bound, full, ring, sparseGet]
  | j + 1 => simp [bufGet, bound, full, ring, sparseGet]

theorem holds_bound_2 (i : Word32) : HoldsExactly (bound 2 i) 2 := by
  intro j
  match j with
  | 0 => simp [bufGet, bound, full, ring, sparseGet]
  | 1 => simp [bufGet, bound, full, ring, sparseGet]
  | j + 2 => simp [bufGet, bound, full, ring, sparseGet]

theorem bufGet_full {i : Nat} {a : Addr} (h : bufGet full i = some a) : (i = 0 ∧ a = 0x2000#64) ∨ (i = 1 ∧ a = 0x3000#64) := by
  match i with
  | 0 => exact .inl ⟨rfl, (Option.some.inj h).symm⟩
  | 1 => exact .inr ⟨rfl, (Option.some.inj h).symm⟩
  | i + 2 => simp [bufGet, full, ring, sparseGet] at h

theorem owned_full : Owned full := by
  refine ⟨fun _ => ⟨by decide, by decide, by decide, by decide⟩, fun i a h => ?_, fun i j a b hi hj hne => ?_⟩
  · rcases bufGet_full h with ⟨-, rfl⟩ | ⟨-, rfl⟩ <;> exact ⟨by decide, by decide, by decide, by decide, by unfold Apart; decide⟩
  · rcases bufGet_full hi with ⟨rfl, rfl⟩ | ⟨rfl, rfl⟩ <;> rcases bufGet_full hj with ⟨rfl, rfl⟩ | ⟨rfl, rfl⟩
    · exact absurd rfl hne
    · exact .inl (by decide)
    · exact .inr (by decide)
    · exact absurd rfl hne

/-- A ring of these tests with fewer entries of BUF is owned as well. -/
theorem owned_bound (n : Nat) (i : Word32) : Owned (bound n i) := by
  have hsub : ∀ j a, bufGet (bound n i) j = some a → bufGet full j = some a := by
    intro j a h
    match n with
    | 0 => simp [bufGet, bound, full, ring, sparseGet] at h
    | 1 =>
      match j with
      | 0 => exact h
      | j + 1 => simp [bufGet, bound, full, ring, sparseGet] at h
    | n + 2 =>
      have : (bound (n + 2) i).blk.buf = full.blk.buf := by simp [bound, full]
      unfold bufGet at h ⊢
      rwa [this] at h
  exact ⟨fun _ => owned_full.table (by decide), fun j a h => owned_full.buffer j a (hsub j a h),
    fun j k a b hj hk => owned_full.distinct j k a b (hsub j a hj) (hsub k b hk)⟩

/-- The bytes of the two buffers of `full` read 0. -/
theorem pages_full {x : Nat} (h1 : 0x2000 ≤ x) (h2 : x < 0x4000) : full.env.mem.read x = some 0#8 := by
  have hc : sparseGet full.env.mem.cells x = none := by
    simp only [full, sparseGet]
    rw [if_neg (by omega), if_neg (by omega)]
  have hz : runsMem full.env.mem.zeros x = true :=
    runsMem_iff.mpr ⟨(0x2000, 0x4000), by simp [full], h1, h2⟩
  simp only [Memory.read, Memory.unlisted, hc, hz, if_true]

theorem fields_full : ∀ i, i < 2 → ∀ k, k < 8 →
    full.env.mem.read (slotAddr full i + k) = some (byteOf (if i = 0 then 0x2000#64 else 0x3000#64) k) := by decide

theorem rest_full : ∀ i, i < 2 → ∀ o, o < 16 → (o < 0 ∨ 0 + 8 ≤ o) → full.env.mem.read (0x1000 + i * 16 + o) = some 0#8 := by decide

theorem holds_full : TableHolds full := by
  refine ⟨fun i h1 h2 => ?_, fun i h1 h2 => ?_, fun i o h1 h2 h3 => rest_full i h1 o h2 h3, fun i a o h ho => ?_⟩
  · match i, h2 with
    | 0, _ => exact ⟨0x2000#64, rfl, fun k hk => fields_full 0 (by decide) k hk⟩
    | 1, _ => exact ⟨0x3000#64, rfl, fun k hk => fields_full 1 (by decide) k hk⟩
    | i + 2, h2 =>
      have : i + 2 < 2 := h2
      omega
  · have h1 : 2 ≤ i := h1
    have h2 : i < 2 := h2
    omega
  · have ho : o < 4096 := ho
    rcases bufGet_full h with ⟨-, rfl⟩ | ⟨-, rfl⟩
    · exact pages_full (show 0x2000 ≤ 0x2000 + o by omega) (show 0x2000 + o < 0x4000 by omega)
    · exact pages_full (show 0x2000 ≤ 0x3000 + o by omega) (show 0x3000 + o < 0x4000 by omega)

theorem sized_ring : Sized ring := by
  unfold Sized
  decide

theorem phase_ring : Phase ring := ⟨rfl, sized_ring, rfl, rfl, holds_bound_0 0#32⟩

/-- The ring at the end of an unwind. -/
theorem test_witness_AllocationFailureIsReported :
    (running 0x07#5 ring).blk.seq = 0x07#5 ∧ Phase (running 0x07#5 ring) :=
  ⟨rfl, ⟨⟨rfl, rfl⟩, rfl, sized_ring, rfl⟩, rfl, holds_bound_0 0#32⟩

theorem full_full : Full full := ⟨sized_ring, rfl, holds_bound_2 2#32⟩

/-- A running receive ring that is bound, at a programming step. -/
theorem phase_programming : Phase (running 0x09#5 full) := ⟨⟨rfl, rfl⟩, rfl, full_full, rfl, rfl⟩

/-- A running receive ring at a poll. -/
def polling (v : Word32) : State := reads v (running 0x0F#5 { full with blk := { full.blk with prog := true } })

theorem phase_polling (v : Word32) : Phase (polling v) := ⟨⟨rfl, rfl⟩, rfl, full_full, rfl, rfl⟩

/-- A bound transmit ring about to end INIT. -/
def transmitting : State := running 0x08#5 { full with blk := { full.blk with role := .transmit } }

theorem phase_transmitting : Phase transmitting := ⟨⟨rfl, rfl⟩, rfl, full_full, rfl, rfl⟩

/-- A constructed ring whose INIT has been accepted, with the allocator's answers. -/
def binding (l : List (Option Addr)) : State :=
  { running 0x02#5 ring with inp := { Inputs.none with allocAnswers := l } }

theorem phase_binding (l : List (Option Addr)) : Phase (binding l) :=
  ⟨⟨⟨rfl, rfl⟩, rfl, sized_ring, rfl⟩, show 0 < 2 by decide, holds_bound_0 0#32⟩

theorem owned_ring : Owned ring := by
  refine ⟨fun _ => ⟨by decide, by decide, by decide, by decide⟩, fun i a h => ?_, fun i j a b h => ?_⟩ <;>
    exact absurd (h.symm.trans ((holds_bound_0 0#32).get_zero i)) (by simp)

theorem owned_binding (l : List (Option Addr)) : Owned (binding l) := owned_ring.congr rfl rfl rfl rfl rfl id

/-- Two answers that an allocator meeting 20_memory R85 may give. -/
theorem meets_pages : AnswerMeets 4096 4096 ring.env.live 0x2000#64 ∧ AnswerMeets 4096 4096 ring.env.live 0x3000#64 := by
  refine ⟨⟨by decide, by decide, by decide, fun x hx => ?_⟩, ⟨by decide, by decide, by decide, fun x hx => ?_⟩⟩ <;>
    cases List.mem_singleton.mp hx <;> exact .inr (by decide)

theorem test_witness_BindingBindsEverySlot :
    let pages := [0x2000#64, 0x3000#64]
    let s := binding (pages.map some ++ [])
    Undisturbed s ∧ Canonical s ∧ Phase s ∧ Owned s ∧ s.blk.seq = 0x02#5 ∧ s.blk.idx = 0#32 ∧
      pages.length = s.blk.size.toNat ∧ s.inp.allocAnswers = pages.map some ++ [] ∧
      (∀ a ∈ pages, AnswerMeets 4096 4096 s.env.live a) ∧ pages.Pairwise (fun a b => Apart a.toNat 4096 b.toNat 4096) := by
  refine ⟨rfl, test_canonical_ring.1, phase_binding _, owned_binding _, rfl, rfl, rfl, rfl, ?_, ?_⟩
  · exact List.forall_mem_cons.mpr ⟨meets_pages.1, List.forall_mem_cons.mpr ⟨meets_pages.2, by simp⟩⟩
  · exact List.pairwise_pair.mpr (.inl (by decide))

/-- The second page is not granted. -/
theorem test_witness_FailedBindingIsUndone :
    let pages := [0x2000#64]
    let s := binding (pages.map some ++ none :: [])
    Undisturbed s ∧ Canonical s ∧ Phase s ∧ Owned s ∧ s.blk.seq = 0x02#5 ∧ s.blk.idx = 0#32 ∧
      pages.length < s.blk.size.toNat ∧ s.inp.allocAnswers = pages.map some ++ none :: [] ∧
      (∀ a ∈ pages, AnswerMeets 4096 4096 s.env.live a) ∧ pages.Pairwise (fun a b => Apart a.toNat 4096 b.toNat 4096) ∧
      (∀ x ∈ s.env.live, 0 < x.len) := by
  refine ⟨rfl, test_canonical_ring.1, phase_binding _, owned_binding _, rfl, rfl, by decide, rfl, ?_, by simp, by decide⟩
  exact List.forall_mem_cons.mpr ⟨meets_pages.1, by simp⟩

theorem test_witness_ResetRestoresTheBlock : (moving [.reset] full).inp.moves = .reset :: [] := rfl

/-- Before the enable command, and after it, at the top of memory. -/
theorem test_witness_DeviceWritesOnceEnabled :
    let s := moving [.dma 0xFFFFFFFFFFFFFFFF#64 7#8] full
    let t := regWrite full.par.offQctl 0#32 s
    (s.inp.moves = [.dma 0xFFFFFFFFFFFFFFFF#64 7#8] ∧ ∀ v, .regWrite s.par.offQctl v ∉ s.env.trace) ∧
    (t.inp.moves = [.dma 0xFFFFFFFFFFFFFFFF#64 7#8] ∧ Canonical t ∧ ∃ v, .regWrite t.par.offQctl v ∈ t.env.trace) :=
  ⟨⟨rfl, fun _ h => by cases h⟩, rfl, ⟨by decide, by decide⟩, 0#32, .head _⟩

/-- 10_state R39, R44, R54 and 30_encoding R104: a ring at its timeout, as the host reads it. -/
theorem test_hostView_timeout :
    (hostView { full with blk := { full.blk with fsm := .bound, role := .transmit, result := .timedOut, seq := 0x11#5, busy := true } }) =
      ⟨2, 0x11, 1, 2, 0x1000, full.blk.idx.toNat, 0, 1, full.blk.prog.toNat, 3⟩ := by decide

/-- Each instruction answers a next state somewhere. -/
theorem test_witness_RegistersKeepTheirValue :
    (∀ i ∈ [Instr.new .receive 2, .nAlloc, .bAlloc, .uDone, .tNop, .pBal, .pBah, .pLen, .pCtlr, .pCtlw, .pEn, .wWait, .wTmo],
      ∃ t, exec i start = .next t) ∧
    (∃ t, exec .init ring = .next t) ∧ (∃ t, exec .bStamp (bound 1 0#32) = .next t) ∧ (∃ t, exec .bEmit (bound 1 0#32) = .next t) ∧
    (∃ t, exec .uClear (bound 1 1#32) = .next t) ∧ (∃ t, exec .uFree (bound 1 0#32) = .next t) ∧
    (∃ t, exec .wPoll (polling 0#32) = .next t) := by
  refine ⟨?_, ⟨_, rfl⟩, ⟨_, rfl⟩, ⟨_, rfl⟩, ⟨_, rfl⟩, ⟨_, rfl⟩, ⟨_, rfl⟩⟩
  simp only [List.forall_mem_cons]
  exact ⟨⟨_, rfl⟩, ⟨_, rfl⟩, ⟨_, rfl⟩, ⟨_, rfl⟩, ⟨_, rfl⟩, ⟨_, rfl⟩, ⟨_, rfl⟩, ⟨_, rfl⟩, ⟨_, rfl⟩, ⟨_, rfl⟩, ⟨_, rfl⟩, ⟨_, rfl⟩,
    ⟨_, rfl⟩, by simp⟩

/-- The first byte below and above what is stored, and a form that stores nothing. -/
theorem test_witness_MemoryKeepsItsBytes :
    Canonical (bound 2 1#32) ∧
    (¬ (slotAddr (bound 2 1#32) (bound 2 1#32).blk.idx.toNat ≤ 0x100F ∧
        0x100F < slotAddr (bound 2 1#32) (bound 2 1#32).blk.idx.toNat + 8) ∧ ∃ t, exec .bStamp (bound 2 1#32) = .next t) ∧
    (¬ (slotAddr (bound 2 1#32) (stepBack (bound 2 1#32)).toNat ≤ 0x1008 ∧
        0x1008 < slotAddr (bound 2 1#32) (stepBack (bound 2 1#32)).toNat + 8) ∧ ∃ t, exec .uClear (bound 2 1#32) = .next t) ∧
    (¬ ((0x5000#64 : Addr).toNat ≤ 0x6000 ∧ 0x6000 < (0x5000#64 : Addr).toNat + 4096) ∧
      ∃ t, exec .bAlloc (grants (some 0x5000#64) ring) = .next t) ∧
    (∃ t, exec .nAlloc (grants (some 0x5000#64) start) = .next t) ∧ (∃ t, exec .pBal full = .next t) :=
  ⟨test_canonical_ring.2.1, ⟨by decide, _, rfl⟩, ⟨by decide, _, rfl⟩, ⟨by decide, _, rfl⟩, ⟨_, rfl⟩, ⟨_, rfl⟩⟩

/-- Each micro-operation answers a next state (above); a run starts from IDLE by a submission. -/
theorem test_witness_SequencerFollowsItsTable :
    0x12 ≤ (0x12#5 : SeqCode).toNat ∧ (moving [.submit 2#64] ring).blk.seq.toNat = 0 ∧
      ∃ t, step (moving [.submit 2#64] ring) = .next t ∧ t.blk.seq.toNat ≠ 0 := ⟨by decide, rfl, _, rfl, by decide⟩

theorem test_witness_OneTransactionPerStep : steps (running 0x11#5 full) ∧ steps start ∧ steps (moving [.reset] full) :=
  ⟨⟨_, rfl⟩, ⟨_, rfl⟩, ⟨_, rfl⟩⟩

theorem test_witness_StepKeepsCanonicalForm :
    Canonical (running 0x03#5 (bound 1 0#32)) ∧ steps (running 0x03#5 (bound 1 0#32)) := ⟨⟨by decide, by decide⟩, _, rfl⟩

theorem test_witness_BusyMeansSequencing :
    BusyIffSequencing (running 0x09#5 full) ∧ steps (running 0x09#5 full) ∧ BusyIffSequencing start ∧ steps start :=
  ⟨by unfold BusyIffSequencing; decide, ⟨_, rfl⟩, by unfold BusyIffSequencing; decide, ⟨_, rfl⟩⟩

/-- At the boundary: the last poll. -/
theorem test_witness_AttemptsStayBounded :
    let s := { polling 0x02000000#32 with blk := { (polling 0#32).blk with att := 999#32 } }
    AttemptsBounded s ∧ steps s := ⟨by unfold AttemptsBounded; decide, _, rfl⟩

theorem test_witness_StepKeepsLifecycle : Phase (polling 0#32) ∧ steps (polling 0#32) ∧ Phase ring ∧ steps ring :=
  ⟨phase_polling _, ⟨_, rfl⟩, phase_ring, _, rfl⟩

theorem meets_binding : AllocatorMeets (binding [some 0x2000#64]) := by
  intro a ha
  cases Option.some.inj (show some 0x2000#64 = some a from ha)
  exact ⟨fun h => absurd h (by decide), fun _ => meets_pages.1⟩

theorem test_witness_StepKeepsOwnership :
    Phase (binding [some 0x2000#64]) ∧ Owned (binding [some 0x2000#64]) ∧ AllocatorMeets (binding [some 0x2000#64]) ∧
      steps (binding [some 0x2000#64]) := ⟨phase_binding _, owned_binding _, meets_binding, _, rfl⟩

theorem fields_ring : ∀ i, i < 2 → ∀ k, k < 8 → ring.env.mem.read (slotAddr ring i + k) = some (byteOf 0#64 k) := by decide

theorem rest_ring : ∀ i, i < 2 → ∀ o, o < 16 → (o < 0 ∨ 0 + 8 ≤ o) → ring.env.mem.read (0x1000 + i * 16 + o) = some 0#8 := by decide

theorem stamped_binding (l : List (Option Addr)) : Stamped (binding l) := by
  intro _ _
  refine ⟨fun i h1 _ => absurd h1 (Nat.not_lt_zero i), fun i _ h2 => fields_ring i h2, fun i o h1 h2 h3 => rest_ring i h1 o h2 h3,
    fun i a o h _ => absurd (h.symm.trans ((holds_bound_0 0#32).get_zero i)) (by simp)⟩

theorem test_witness_StepKeepsTableContents :
    let s := binding [some 0x2000#64]
    Canonical s ∧ Phase s ∧ Owned s ∧ Stamped s ∧ AllocatorMeets s ∧ steps s :=
  ⟨test_canonical_ring.1, phase_binding _, owned_binding _, stamped_binding _, meets_binding, _, rfl⟩

theorem test_witness_LifecycleNeverStops :
    Phase (running 0x09#5 full) ∧ Owned (running 0x09#5 full) ∧ AttemptsBounded (running 0x09#5 full) :=
  ⟨phase_programming, owned_full.congr rfl rfl rfl rfl rfl id, by unfold AttemptsBounded; decide⟩

theorem test_witness_BoundRingIsStamped :
    let s := running 0x09#5 full
    Phase s ∧ Owned s ∧ Stamped s ∧ s.blk.fsm = .bound ∧ deviceEnabled s = false ∧ 1 < s.blk.size.toNat :=
  ⟨phase_programming, owned_full.congr rfl rfl rfl rfl rfl id, fun _ _ => holds_full.congr rfl rfl rfl rfl rfl rfl, rfl, by decide,
    by decide⟩

/-- The ring in the unwind: slot 0 cleared, its buffer about to be released. -/
def unwinding : State :=
  { running 0x06#5 (bound 1 0#32) with env := { full.env with mem := ⟨[], [(0x1000, 0x1020), (0x2000, 0x4000)]⟩ } }

theorem pages_unwinding {x : Nat} (h1 : 0x2000 ≤ x) (h2 : x < 0x4000) : unwinding.env.mem.read x = some 0#8 := by
  have hz : runsMem unwinding.env.mem.zeros x = true :=
    runsMem_iff.mpr ⟨(0x2000, 0x4000), by simp [unwinding], h1, h2⟩
  have hc : sparseGet unwinding.env.mem.cells x = none := rfl
  simp only [Memory.read, Memory.unlisted, hc, hz, if_true]

theorem fields_unwinding : ∀ i, i < 2 → ∀ k, k < 8 →
    unwinding.env.mem.read (slotAddr unwinding i + k) = some (byteOf 0#64 k) := by decide

theorem rest_unwinding : ∀ i, i < 2 → ∀ o, o < 16 → (o < 0 ∨ 0 + 8 ≤ o) →
    unwinding.env.mem.read (0x1000 + i * 16 + o) = some 0#8 := by decide

theorem stamped_unwinding : Stamped unwinding := by
  intro _ _
  refine ⟨fun i h1 _ => absurd h1 (Nat.not_lt_zero i), fun i _ h2 => fields_unwinding i h2,
    fun i o h1 h2 h3 => rest_unwinding i h1 o h2 h3, fun i a o h ho => ?_⟩
  have ho : o < 4096 := ho
  match i with
  | 0 =>
    cases Option.some.inj (show some 0x2000#64 = some a from h)
    exact pages_unwinding (show 0x2000 ≤ 0x2000 + o by omega) (show 0x2000 + o < 0x4000 by omega)
  | i + 1 => exact absurd (((holds_bound_1 0#32) (i + 1)).mp (Option.isSome_iff_exists.mpr ⟨a, h⟩)) (by omega)

theorem test_witness_ReleasedBufferIsNotStamped :
    Phase unwinding ∧ Owned unwinding ∧ Stamped unwinding ∧ deviceEnabled unwinding = false ∧ unwinding.blk.seq = 0x06#5 ∧
      bufGet unwinding unwinding.blk.idx.toNat = some 0x2000#64 ∧ 1 < unwinding.blk.size.toNat :=
  ⟨⟨⟨⟨rfl, rfl⟩, rfl, sized_ring, rfl⟩, by decide, holds_bound_1 0#32⟩, (owned_bound 1 0#32).congr rfl rfl rfl rfl rfl id,
    stamped_unwinding, by decide, rfl, rfl, by decide⟩

/-- A NEW that has been accepted. -/
def constructing : State :=
  grants (some 0x1000#64) (running 0x01#5 { start with blk := { start.blk with cmdreg := 0x0000000200000001#64 } })

theorem phase_constructing : Phase constructing :=
  ⟨⟨rfl, rfl⟩, rfl, ⟨rfl, rfl, rfl, rfl, rfl, holds_bound_0 0#32⟩, by unfold NewLatched; decide⟩

/-- The last slot about to be reported. -/
theorem phase_lastSlot : Phase (running 0x04#5 (bound 2 1#32)) :=
  ⟨⟨⟨rfl, rfl⟩, rfl, sized_ring, rfl⟩, by decide, holds_bound_2 1#32⟩

/-- One state for each of the four transitions, and a reset. -/
theorem test_witness_FsmTransitionsAreFour :
    (Phase constructing ∧ steps constructing) ∧
    (Phase (running 0x04#5 (bound 2 1#32)) ∧ steps (running 0x04#5 (bound 2 1#32))) ∧
    (Phase (polling 0#32) ∧ steps (polling 0#32)) ∧ (Phase (moving [.reset] ring) ∧ steps (moving [.reset] ring)) :=
  ⟨⟨phase_constructing, _, rfl⟩, ⟨phase_lastSlot, _, rfl⟩, ⟨phase_polling _, _, rfl⟩, ⟨phase_ring, _, rfl⟩⟩

theorem test_witness_RingIsNeverResized :
    let s := moving [.submit 0x0000000500000101#64] ring
    Phase s ∧ s.blk.fsm ≠ .empty ∧ resetNext s = false ∧ steps s := ⟨phase_ring, by decide, rfl, _, rfl⟩

theorem test_witness_TransmitRingTouchesNoRegister :
    Phase transmitting ∧ transmitting.blk.role = .transmit ∧ steps transmitting := ⟨phase_transmitting, rfl, _, rfl⟩

theorem test_witness_RunsEndWithAResult :
    Phase (polling 0#32) ∧ resetNext (polling 0#32) = false ∧ (polling 0#32).blk.busy = true ∧
      ∃ t, step (polling 0#32) = .next t ∧ t.blk.busy = false := ⟨phase_polling _, rfl, rfl, _, rfl, rfl⟩

theorem test_witness_EveryRunEnds :
    let s := binding []
    Phase s ∧ Owned s ∧ AttemptsBounded s ∧ Undisturbed s ∧ s.blk.busy = true :=
  ⟨phase_binding _, owned_binding _, by unfold AttemptsBounded; decide, rfl, rfl⟩

end Sys2Proof.Tests
end

/-! PROOFS. The transaction that each instruction and each step makes, and what it leaves in the event log (00_scope R11, 10_state R65). -/

namespace Sys2Proof.Machine

/-! ### What a step records -/

/-- The record that a transaction hands to the event sink (20_memory R90). -/
def eventOf : Transaction → Option Event
  | .emit e => some e
  | _ => none

/-- From `s` to `t` at most one transaction is made, the one that `o` names, and the event log grows by its record. -/
def Records (o : Option Transaction) (s t : State) : Prop :=
  t.env.trace = s.env.trace ++ o.toList ∧ t.env.events = s.env.events ++ (o.bind eventOf).toList

theorem records_none_iff {s t : State} :
    Records none s t ↔ t.env.trace = s.env.trace ∧ t.env.events = s.env.events := by
  simp [Records]

theorem records_some_iff {x : Transaction} {s t : State} :
    Records (some x) s t ↔
      t.env.trace = s.env.trace ++ [x] ∧ t.env.events = s.env.events ++ (eventOf x).toList := Iff.rfl

/-- A transaction that is no Emit leaves the event log as it is. -/
theorem records_some_of_events_eq {x : Transaction} {s t : State} (hx : eventOf x = none)
    (htrace : t.env.trace = s.env.trace ++ [x]) (hevents : t.env.events = s.env.events) : Records (some x) s t :=
  records_some_iff.mpr ⟨htrace, by simp [hx, hevents]⟩

@[simp] theorem records_withMoves {o : Option Transaction} {ms : List Move} {s t : State} :
    Records o (withMoves ms s) t ↔ Records o s t := Iff.rfl

/-! ### The instructions -/

/-- The external transaction of an instruction, with its operands (30_encoding R104). B_STAMP and U_FREE need an entry of BUF that holds a
value; in a state without one they fault. -/
def transactionOf (s : State) : Instr → Option Transaction
  | .new _ _ | .init | .uDone | .tNop | .wWait => none
  | .nAlloc => some (.alloc (tableBytes (cmdSize s.blk.cmdreg) s.par.slotSize) Config.tableAlign .both (allocAnswer s))
  | .bAlloc => some (.alloc Config.pageSize Config.bufAlign .both (allocAnswer s))
  | .bStamp => (bufGet s s.blk.idx.toNat).map (.memWrite (slotAddr s s.blk.idx.toNat))
  | .bEmit => some (.emit (.slotBound s.blk.idx s.blk.role))
  | .uClear => some (.memWrite (slotAddr s (stepBack s).toNat) 0#64)
  | .uFree => (bufGet s s.blk.idx.toNat).map .release
  | .pBal => some (.regWrite s.par.offBal (balValue s.blk.tblBase))
  | .pBah => some (.regWrite s.par.offBah (bahValue s.blk.tblBase))
  | .pLen => some (.regWrite s.par.offLen (lenValue s.blk.size s.par.slotSize))
  | .pCtlr => some (.regRead s.par.offRxctl (readAnswer s))
  | .pCtlw => some (.regWrite s.par.offRxctl (ctlValue s.blk.ctltmp s.par.bsizeClass))
  | .pEn => some (.regWrite s.par.offQctl s.par.enCmd)
  | .wPoll => some (.regRead s.par.offQctl (readAnswer s))
  | .wTmo => some (.emit .enableTimeout)

/-- Every instruction that answers a next state makes exactly the transaction of its row. -/
theorem exec_records {i : Instr} {s t : State} (h : exec i s = .next t) : Records (transactionOf s i) s t := by
  cases i with
  | new role size =>
    obtain ⟨-, rfl⟩ := exec_new_inv h
    exact records_none_iff.mpr (by split <;> exact ⟨rfl, rfl⟩)
  | init =>
    obtain ⟨-, ⟨-, rfl⟩ | ⟨-, rfl⟩⟩ := exec_init_inv h <;> exact records_none_iff.mpr ⟨rfl, rfl⟩
  | nAlloc =>
    cases ha : allocAnswer s with
    | some a =>
      cases (exec_nAlloc_some ha).symm.trans h
      exact records_some_of_events_eq rfl (by simp [ha]) rfl
    | none =>
      cases (exec_nAlloc_none ha).symm.trans h
      exact records_some_of_events_eq rfl (by simp [ha]) rfl
  | bAlloc =>
    cases ha : allocAnswer s with
    | some a =>
      cases (exec_bAlloc_some ha).symm.trans h
      exact records_some_of_events_eq rfl (by simp [ha]) rfl
    | none =>
      cases (exec_bAlloc_none ha).symm.trans h
      exact records_some_of_events_eq rfl (by simp [ha]) rfl
  | bStamp =>
    obtain ⟨a, ha, -, rfl⟩ := exec_bStamp_inv h
    simp only [transactionOf, ha, Option.map_some]
    exact records_some_of_events_eq rfl rfl rfl
  | uFree =>
    obtain ⟨a, ha, rfl⟩ := exec_uFree_inv h
    simp only [transactionOf, ha, Option.map_some]
    exact records_some_of_events_eq rfl rfl rfl
  | uClear =>
    obtain ⟨-, rfl⟩ := exec_uClear_inv h
    exact records_some_of_events_eq rfl rfl rfl
  | bEmit =>
    cases exec_bEmit_inv h
    exact records_some_iff.mpr ⟨rfl, rfl⟩
  | wTmo =>
    cases h
    exact records_some_iff.mpr ⟨rfl, rfl⟩
  | wPoll =>
    cases exec_wPoll_inv h
    exact records_some_of_events_eq rfl rfl rfl
  | pCtlr =>
    cases h
    exact records_some_of_events_eq rfl (by simp) (by simp)
  | wWait =>
    cases (exec_wWait_eq s).symm.trans h
    exact records_none_iff.mpr ⟨rfl, rfl⟩
  | uDone | tNop =>
    cases h
    exact records_none_iff.mpr ⟨rfl, rfl⟩
  | pBal | pBah | pLen | pCtlw | pEn =>
    cases h
    exact records_some_of_events_eq rfl rfl rfl

/-! ### The step -/

/-- A step makes the transaction of the instruction it runs, or none: an idle controller, a refused submission, a reset and a DMA write of
the device are no transactions of the block. -/
theorem step_records {s t : State} (h : step s = .next t) : ∃ o, Records o s t := by
  obtain ⟨ms, ⟨i, -, hexec, -⟩ | ⟨-, rfl, -⟩ | ⟨-, -, w, -, ⟨i, -, hexec⟩ | ⟨-, rfl⟩⟩ | ⟨-, rfl⟩ | ⟨-, a, b, -, rfl⟩⟩ :=
    step_cases h
  · exact ⟨_, records_withMoves.mp (exec_records hexec)⟩
  · exact ⟨none, records_none_iff.mpr ⟨rfl, rfl⟩⟩
  · exact ⟨_, records_withMoves.mp (exec_records hexec)⟩
  · exact ⟨none, records_none_iff.mpr ⟨rfl, rfl⟩⟩
  · exact ⟨none, records_none_iff.mpr ⟨rfl, rfl⟩⟩
  · exact ⟨none, records_none_iff.mpr ⟨by simp, by simp⟩⟩

/-- Settles O45: the step records no transaction or one, by `step_records`. -/
theorem oneTransactionPerStep : Obligations.OneTransactionPerStep := by
  unfold Obligations.OneTransactionPerStep
  intro s t h
  obtain ⟨o, ho⟩ := step_records h
  cases o with
  | none => exact .inl (records_none_iff.mp ho)
  | some x =>
    obtain ⟨htrace, hevents⟩ := records_some_iff.mp ho
    exact .inr ⟨x, htrace, by cases x <;> exact hevents⟩

end Sys2Proof.Machine

/-! PROOFS. What each instruction and each step does to the block: the registers after an instruction as one function, and the changes
of the block that a step can make (10_state R38). -/

namespace Sys2Proof.Machine

/-! ### The block after an instruction -/

/-- The block after an instruction that answers a next state. -/
def blkAfter (s : State) : Instr → Block
  | .new role size =>
    if newAccepted size s then (accept (encodeCommand (.new role size)) seqNAlloc s).blk else (refuse s).blk
  | .init =>
    if initAccepted s then { (accept (encodeCommand .init) seqBAlloc s).blk with idx := 0#32 } else (refuse s).blk
  | .nAlloc =>
    match allocAnswer s with
    | some a =>
      { s.blk with
        tblBase := a, size := cmdSize s.blk.cmdreg, role := roleOfCode (cmdRole s.blk.cmdreg), fsm := .constructed, result := .ok
        busy := false, seq := seqIdle }
    | none => (finish .noMemory s).blk
  | .bAlloc =>
    match allocAnswer s with
    | some a => { s.blk with buf := sparseSet s.blk.buf s.blk.idx.toNat a, seq := seqBStamp }
    | none => { s.blk with seq := if s.blk.idx = 0#32 then seqUDone else seqUClear }
  | .bStamp => { s.blk with seq := seqBEmit }
  | .bEmit =>
    { s.blk with
      idx := countUp s.blk.idx s.inp.drawn
      fsm := if s.blk.idx.toNat + 1 < s.blk.size.toNat then s.blk.fsm else .bound
      seq :=
        if s.blk.idx.toNat + 1 < s.blk.size.toNat then seqBAlloc
        else if s.blk.role = .receive then seqPBal else seqTNop }
  | .uClear => { s.blk with idx := stepBack s, seq := seqUFree }
  | .uFree =>
    { s.blk with
      buf := sparseErase s.blk.buf s.blk.idx.toNat (s.blk.idx.toNat + 1)
      seq := if s.blk.idx = 0#32 then seqUDone else seqUClear }
  | .uDone => (finish .noMemory s).blk
  | .tNop => (finish .ok s).blk
  | .pBal => { s.blk with seq := seqPBah }
  | .pBah => { s.blk with seq := seqPLen }
  | .pLen => { s.blk with seq := seqPCtlr }
  | .pCtlr => { s.blk with ctltmp := readAnswer s, seq := seqPCtlw }
  | .pCtlw => { s.blk with seq := seqPEn }
  | .pEn => { s.blk with prog := true, att := 0#32, seq := seqWPoll }
  | .wPoll =>
    if acked s.par (readAnswer s) = true then
      { s.blk with
        att := countUp s.blk.att (takeReadAnswer s).inp.drawn, fsm := .enabled, result := .ok, busy := false, seq := seqIdle }
    else { s.blk with att := countUp s.blk.att (takeReadAnswer s).inp.drawn, seq := seqWWait }
  | .wWait => { s.blk with seq := if s.blk.att.toNat < Config.maxAttempts then seqWPoll else seqWTmo }
  | .wTmo => (finish .timedOut s).blk

/-- Every instruction that answers a next state keeps the parameters and leaves the block that `blkAfter` gives. -/
theorem exec_par_blk {i : Instr} {s t : State} (h : exec i s = .next t) : t.par = s.par ∧ t.blk = blkAfter s i := by
  cases i with
  | new role size =>
    obtain ⟨-, rfl⟩ := exec_new_inv h
    exact ⟨by split <;> rfl, apply_ite State.blk _ _ _⟩
  | init =>
    obtain ⟨-, ⟨hacc, rfl⟩ | ⟨hacc, rfl⟩⟩ := exec_init_inv h <;> simp [blkAfter, hacc]
  | nAlloc =>
    cases ha : allocAnswer s with
    | some a =>
      cases (exec_nAlloc_some ha).symm.trans h
      simp [blkAfter, ha]
    | none =>
      cases (exec_nAlloc_none ha).symm.trans h
      simp [blkAfter, ha]
  | bAlloc =>
    cases ha : allocAnswer s with
    | some a =>
      cases (exec_bAlloc_some ha).symm.trans h
      simp [blkAfter, ha]
    | none =>
      cases (exec_bAlloc_none ha).symm.trans h
      simp [blkAfter, ha]
  | bStamp =>
    obtain ⟨a, -, -, rfl⟩ := exec_bStamp_inv h
    exact ⟨rfl, rfl⟩
  | bEmit =>
    cases exec_bEmit_inv h
    exact ⟨rfl, rfl⟩
  | uClear =>
    obtain ⟨-, rfl⟩ := exec_uClear_inv h
    exact ⟨rfl, rfl⟩
  | uFree =>
    obtain ⟨a, -, rfl⟩ := exec_uFree_inv h
    exact ⟨rfl, rfl⟩
  | pCtlr =>
    cases h
    simp [blkAfter]
  | wPoll =>
    cases exec_wPoll_inv h
    exact ⟨rfl, rfl⟩
  | wWait =>
    cases (exec_wWait_eq s).symm.trans h
    exact ⟨rfl, rfl⟩
  | uDone | tNop | pBal | pBah | pLen | pCtlw | pEn | wTmo =>
    cases h
    exact ⟨rfl, rfl⟩

theorem takeReadAnswer_withMoves (ms : List Move) (s : State) :
    takeReadAnswer (withMoves ms s) = withMoves ms (takeReadAnswer s) := by
  cases hr : s.inp.readAnswers <;> simp [takeReadAnswer, withMoves, hr]

/-- The moves still to come have no part in what an instruction does to the block. -/
@[simp] theorem blkAfter_withMoves (ms : List Move) (s : State) (i : Instr) : blkAfter (withMoves ms s) i = blkAfter s i := by
  cases i with
  | wPoll => simp [blkAfter, takeReadAnswer_withMoves]
  | _ => rfl

/-- Settles O42: each register of `blkAfter` is the old one except in the instructions named. -/
theorem registersKeepTheirValue : Obligations.RegistersKeepTheirValue := by
  unfold Obligations.RegistersKeepTheirValue
  intro i s t h
  obtain ⟨hpar, hblk⟩ := exec_par_blk h
  refine ⟨hpar, ?_⟩
  rw [hblk]
  cases i with
  | new role size | init | nAlloc | bAlloc | wPoll => simp only [blkAfter]; split <;> simp
  | _ => simp [blkAfter]

/-! ### The block after a step -/

/-- The changes a step from `s` to `t` can make to the block. -/
inductive BlockStep (s t : State) : Prop
  /-- The controller runs the micro-operation that SEQ names. -/
  | micro (i : Instr) (hseq : decodeSeq s.blk.seq = .ok i) (hblk : t.blk = blkAfter s i)
  /-- The controller is idle, or the device writes memory. -/
  | stays (hblk : t.blk = s.blk)
  /-- A submission is not taken. -/
  | refused (hready : s.blk.busy = false) (hblk : t.blk = (refuse s).blk)
  /-- A NEW is accepted. -/
  | new (role : Role) (size : Nat) (hready : s.blk.busy = false) (hacc : newAccepted size s)
      (hblk : t.blk = (accept (encodeCommand (.new role size)) seqNAlloc s).blk)
  /-- An INIT is accepted. -/
  | init (hready : s.blk.busy = false) (hacc : initAccepted s)
      (hblk : t.blk = { (accept (encodeCommand .init) seqBAlloc s).blk with idx := 0#32 })
  /-- Reset is applied. -/
  | reset (hreset : Safety.resetNext s = true) (hblk : t.blk = Block.reset)

/-- A command that answers a next state is accepted or refused. -/
theorem blockStep_of_command {w : CmdWord} {i : Instr} {s t : State} (hready : s.blk.busy = false)
    (hw : decodeCommand w = .ok i) (hblk : t.blk = blkAfter s i) : BlockStep s t := by
  obtain rfl | rfl := decodeCommand_cases hw
  · by_cases hacc : newAccepted (cmdSize w).toNat s
    · exact .new _ _ hready hacc (hblk.trans (if_pos hacc))
    · exact .refused hready (hblk.trans (if_neg hacc))
  · by_cases hacc : initAccepted s
    · exact .init hready hacc (hblk.trans (if_pos hacc))
    · exact .refused hready (hblk.trans (if_neg hacc))

/-- A step keeps the parameters and makes one of the changes of `BlockStep`. -/
theorem step_par_blockStep {s t : State} (h : step s = .next t) : t.par = s.par ∧ BlockStep s t := by
  obtain ⟨ms, ⟨i, hi, hexec, -⟩ | ⟨-, rfl, -⟩ | ⟨hready, -, w, -, ⟨i, hw, hexec⟩ | ⟨-, rfl⟩⟩ | ⟨hm, rfl⟩ |
    ⟨-, a, b, -, rfl⟩⟩ := step_cases h
  · obtain ⟨hpar, hblk⟩ := exec_par_blk hexec
    exact ⟨hpar, .micro i hi (by simpa using hblk)⟩
  · exact ⟨rfl, .stays rfl⟩
  · obtain ⟨hpar, hblk⟩ := exec_par_blk hexec
    exact ⟨hpar, blockStep_of_command hready hw (by simpa using hblk)⟩
  · exact ⟨rfl, .refused hready rfl⟩
  · exact ⟨rfl, .reset (by simp [Safety.resetNext, hm]) rfl⟩
  · exact ⟨by simp, .stays (by simp)⟩

end Sys2Proof.Machine

/-! PROOFS. Whose move it is: one equation for each head of the list of moves and for each kind of SEQ code (00_scope R11, 10_state R41),
and what follows for the device's DMA writes and the host's reads. -/

namespace Sys2Proof.Machine

/-! ### SEQ codes -/

/-- The codes from 0x12 up are unused (30_encoding R113). -/
theorem decodeSeq_unused {c : SeqCode} (h : 0x12 ≤ c.toNat) : decodeSeq c = .error .unusedCode := by
  revert c
  decide

theorem ne_seqIdle_of_decodeSeq {c : SeqCode} {i : Instr} (h : decodeSeq c = .ok i) : c ≠ seqIdle := by
  rintro rfl
  cases h

/-! ### The controller's move -/

theorem controllerMove_of_decodeSeq {s : State} {i : Instr} (h : decodeSeq s.blk.seq = .ok i) :
    controllerMove s = exec i s := by
  simp [controllerMove, fetch, h]

theorem controllerMove_of_idle {s : State} (h : s.blk.seq = seqIdle) : controllerMove s = .next s := by
  simp [controllerMove, fetch, h, decodeSeq]

theorem controllerMove_of_unused {s : State} (h : 0x12 ≤ s.blk.seq.toNat) :
    controllerMove s = .fault (.unusedSeq s.blk.seq) := by
  simp [controllerMove, fetch, decodeSeq_unused h]

/-! ### The step for each head of the moves -/

section
variable {s : State} {rest : List Move}

theorem step_of_nil (hm : s.inp.moves = []) : step s = controllerMove s := by
  simp [step, nextMove, hm]

theorem step_of_quiet (hm : s.inp.moves = .quiet :: rest) : step s = controllerMove (withMoves rest s) := by
  simp [step, nextMove, hm]

theorem step_of_submit_busy {w : CmdWord} (hm : s.inp.moves = .submit w :: rest) (hb : s.blk.busy = true) :
    step s = controllerMove s := by
  simp [step, nextMove, hm, hb]

theorem step_of_submit_ready {w : CmdWord} (hm : s.inp.moves = .submit w :: rest) (hb : s.blk.busy = false) :
    step s = submitMove w (withMoves rest s) := by
  simp [step, nextMove, hm, hb]

theorem step_of_reset (hm : s.inp.moves = .reset :: rest) : step s = .next (resetMove (withMoves rest s)) := by
  simp [step, nextMove, hm]

theorem step_of_dma {a : Addr} {b : Byte} (hm : s.inp.moves = .dma a b :: rest) :
    step s = .next (dmaMove a b (withMoves rest s)) := by
  simp [step, nextMove, hm]

end

/-- Settles O6: in each of the three cases the step is the controller's move, in a state with the same block. -/
theorem stepRunsTheMicroOperation : Obligations.StepRunsTheMicroOperation := by
  unfold Obligations.StepRunsTheMicroOperation
  intro s s' hturn
  have hstep : step s = controllerMove s' ∧ s'.blk = s.blk := by
    rcases hturn with ⟨hm, rfl⟩ | ⟨rest, hm, rfl⟩ | ⟨w, rest, hm, hb, rfl⟩
    · exact ⟨step_of_nil hm, rfl⟩
    · exact ⟨step_of_quiet hm, rfl⟩
    · exact ⟨step_of_submit_busy hm hb, rfl⟩
  obtain ⟨hstep, hblk⟩ := hstep
  rw [hstep, ← hblk]
  exact ⟨fun _ hi => controllerMove_of_decodeSeq hi, fun h0 => controllerMove_of_idle (BitVec.eq_of_toNat_eq h0),
    controllerMove_of_unused⟩

/-! ### The device -/

/-- Settles O41: the step is the DMA move, and the record of transactions decides whether it writes. -/
theorem deviceWritesOnceEnabled : Obligations.DeviceWritesOnceEnabled := by
  unfold Obligations.DeviceWritesOnceEnabled
  intro s a b rest hm
  have hstep := step_of_dma hm
  rw [dmaMove_eq] at hstep
  refine ⟨_, hstep, rfl, fun hnone => if_neg ?_, fun hcanon hsome x => ?_⟩
  · rw [deviceEnabled_iff]
    rintro ⟨v, hv⟩
    exact hnone v hv
  · have henabled : deviceEnabled (withMoves rest s) = true := (deviceEnabled_iff _).mpr hsome
    simp only [henabled, if_true, withMoves_env]
    exact Memory.read_writeByte hcanon.1 _ _ _

/-! ### The host's reads -/

theorem hostReadBuf_of_le {s : State} {i : Nat} (h : s.blk.size.toNat ≤ i) : hostReadBuf s i = .error (.bufEmpty i) :=
  if_neg (by omega)

theorem hostReadBuf_of_lt {s : State} {i : Nat} (h : i < s.blk.size.toNat) :
    hostReadBuf s i = (bufGet s i).elim (.error (.bufEmpty i)) .ok := by
  unfold hostReadBuf
  rw [if_pos h]
  cases bufGet s i <;> rfl

/-- Settles O19: every read of BUF looks at the entry before anything else, and the host's read at SIZE before that. -/
theorem emptyEntryIsNeverRead : Obligations.EmptyEntryIsNeverRead := by
  unfold Obligations.EmptyEntryIsNeverRead
  refine ⟨fun s hnone => ?_, fun s i hnone => ?_, fun s i a hi ha => ?_, fun s i hi => hostReadBuf_of_le hi⟩
  · simp [exec, execBStamp, execUFree, hnone]
  · by_cases hi : i < s.blk.size.toNat
    · rw [hostReadBuf_of_lt hi, hnone, Option.elim_none]
    · exact hostReadBuf_of_le (by omega)
  · rw [hostReadBuf_of_lt hi, ha, Option.elim_some]

/-- The codes of FSM (10_state R39). -/
theorem fsmCode_iff (f : Fsm) : (f.code = 0 ↔ f = .empty) ∧ (f.code = 1 ↔ f = .constructed) ∧ (f.code = 2 ↔ f = .bound) ∧
    (f.code = 3 ↔ f = .enabled) ∧ f.code < 4 := by
  cases f <;> decide

/-- The codes of RESULT (10_state R54). -/
theorem resultCode_iff (r : Result) : (r.code = 0 ↔ r = .none) ∧ (r.code = 1 ↔ r = .ok) ∧ (r.code = 2 ↔ r = .noMemory) ∧
    (r.code = 3 ↔ r = .timedOut) ∧ (r.code = 4 ↔ r = .refused) ∧ r.code < 5 := by
  cases r <;> decide

/-- Settles O40: the view takes the codes of FSM, RESULT, ROLE and the two flags, and the numbers of the other registers. -/
theorem hostReadsEveryRegister : Obligations.HostReadsEveryRegister := by
  unfold Obligations.HostReadsEveryRegister
  intro s
  obtain ⟨f0, f1, f2, f3, f4⟩ := fsmCode_iff s.blk.fsm
  obtain ⟨r0, r1, r2, r3, r4, r5⟩ := resultCode_iff s.blk.result
  have hrole : (hostView s).role = roleCode s.blk.role := rfl
  refine ⟨f0, f1, f2, f3, f4, r0, r1, r2, r3, r4, r5, ?_, Bool.cond_eq_ite .., Bool.cond_eq_ite .., rfl, rfl, rfl, rfl, rfl⟩
  rw [hrole]
  cases s.blk.role <;> rfl

end Sys2Proof.Machine

/-! PROOFS. Bus memory and the live set after an instruction: each changes by the instruction's transaction alone (10_state R62, R64). -/

namespace Sys2Proof.Machine

/-- Bus memory after a transaction: the allocator's zero-fill (20_memory R85 c) or an 8-byte write (R71). -/
def memAfter (m : Memory) : Option Transaction → Memory
  | some (.alloc bytes _ _ (some a)) => m.zeroFill a.toNat (min (a.toNat + bytes) Config.busTop)
  | some (.memWrite d v) => m.write64 d v
  | _ => m

/-- The live set after a transaction: one allocation more (20_memory R84), or those at a base less (R86). -/
def liveAfter (l : List Allocation) : Option Transaction → List Allocation
  | some (.alloc bytes _ dir (some a)) => l ++ [⟨a, bytes, dir⟩]
  | some (.release a) => l.filter (fun x => decide (x.base ≠ a))
  | _ => l

/-- From `s` to `t` bus memory and the live set change as the transaction `o` says. -/
def Applies (o : Option Transaction) (s t : State) : Prop :=
  t.env.mem = memAfter s.env.mem o ∧ t.env.live = liveAfter s.env.live o

/-- Every instruction that answers a next state changes bus memory and the live set by its transaction. -/
theorem exec_applies {i : Instr} {s t : State} (h : exec i s = .next t) : Applies (transactionOf s i) s t := by
  cases i with
  | new role size =>
    obtain ⟨-, rfl⟩ := exec_new_inv h
    split <;> exact ⟨rfl, rfl⟩
  | init =>
    obtain ⟨-, ⟨-, rfl⟩ | ⟨-, rfl⟩⟩ := exec_init_inv h <;> exact ⟨rfl, rfl⟩
  | nAlloc =>
    cases ha : allocAnswer s with
    | some a =>
      cases (exec_nAlloc_some ha).symm.trans h
      simp [Applies, transactionOf, ha, memAfter, liveAfter]
    | none =>
      cases (exec_nAlloc_none ha).symm.trans h
      simp [Applies, transactionOf, ha, memAfter, liveAfter]
  | bAlloc =>
    cases ha : allocAnswer s with
    | some a =>
      cases (exec_bAlloc_some ha).symm.trans h
      simp [Applies, transactionOf, ha, memAfter, liveAfter]
    | none =>
      cases (exec_bAlloc_none ha).symm.trans h
      simp [Applies, transactionOf, ha, memAfter, liveAfter]
  | bStamp =>
    obtain ⟨a, ha, -, rfl⟩ := exec_bStamp_inv h
    simp [Applies, transactionOf, ha, memAfter, liveAfter]
  | uFree =>
    obtain ⟨a, ha, rfl⟩ := exec_uFree_inv h
    simp [Applies, transactionOf, ha, memAfter, liveAfter]
  | uClear =>
    obtain ⟨-, rfl⟩ := exec_uClear_inv h
    exact ⟨rfl, rfl⟩
  | bEmit =>
    cases exec_bEmit_inv h
    exact ⟨rfl, rfl⟩
  | wPoll =>
    cases exec_wPoll_inv h
    exact ⟨rfl, rfl⟩
  | pCtlr =>
    cases h
    simp [Applies, transactionOf, memAfter, liveAfter]
  | wWait =>
    cases (exec_wWait_eq s).symm.trans h
    exact ⟨rfl, rfl⟩
  | uDone | tNop | pBal | pBah | pLen | pCtlw | pEn | wTmo =>
    cases h
    exact ⟨rfl, rfl⟩

/-- The table's length in bytes, from the latched command. -/
theorem tableBytes_cmdSize (w : CmdWord) (slotSize : Nat) : tableBytes (cmdSize w) slotSize = w.toNat / 2 ^ 32 * slotSize := by
  rw [tableBytes, cmdSize_toNat]

/-- A byte outside a granted allocation reads as before, and any byte does when nothing is granted. -/
theorem read_memAfter_alloc {m : Memory} (hm : m.wf) {bytes al : Nat} {dir : Dir} {r : Option Addr} {x : Nat}
    (hx : ∀ a, r = some a → ¬ (a.toNat ≤ x ∧ x < a.toNat + bytes)) :
    (memAfter m (some (.alloc bytes al dir r))).read x = m.read x := by
  cases r with
  | none => rfl
  | some a =>
    have := hx a rfl
    simp only [memAfter]
    rw [read_granted hm, if_neg (by omega)]

/-- A byte outside an 8-byte write reads as before. -/
theorem read_memAfter_memWrite {m : Memory} (hm : m.wf) {d x : Nat} (hd : addrFits d) (v : BitVec 64)
    (hx : ¬ (d ≤ x ∧ x < d + 8)) : (memAfter m (some (.memWrite d v))).read x = m.read x := by
  simp only [memAfter]
  rw [Memory.read_write64 hm hd, if_neg hx]

/-- Settles O43: memory changes by the instruction's transaction, which the four premises place. -/
theorem memoryKeepsItsBytes : Obligations.MemoryKeepsItsBytes := by
  unfold Obligations.MemoryKeepsItsBytes
  intro i s t x hcanon h hstamp hclear htable hpage
  obtain ⟨hmem, -⟩ := exec_applies h
  rw [hmem]
  cases i with
  | nAlloc => exact read_memAfter_alloc hcanon.1 (tableBytes_cmdSize _ _ ▸ htable rfl)
  | bAlloc => exact read_memAfter_alloc hcanon.1 (hpage rfl)
  | bStamp =>
    obtain ⟨a, ha, hfits, -⟩ := exec_bStamp_inv h
    rw [transactionOf, ha, Option.map_some]
    exact read_memAfter_memWrite hcanon.1 hfits a (hstamp rfl)
  | uClear => exact read_memAfter_memWrite hcanon.1 (exec_uClear_inv h).1 _ (hclear rfl)
  | uFree =>
    obtain ⟨a, ha, -⟩ := exec_uFree_inv h
    rw [transactionOf, ha]
    rfl
  | _ => rfl

end Sys2Proof.Machine

/-! PROOFS. The lifecycle: what `Phase` says for each micro-operation and at rest, that every step keeps it, and which transitions of FSM
it leaves (10_state R39, R40, R67). -/

namespace Sys2Proof.Safety

open Sys2Proof.Machine

/-! ### The phase of each micro-operation -/

/-- A run on a ring whose every slot has its buffer. -/
def BoundRun (s : State) (role : Role) (prog : Bool) : Prop :=
  Running s ∧ s.blk.fsm = .bound ∧ Full s ∧ s.blk.role = role ∧ s.blk.prog = prog

/-- What the lifecycle says of the state in which SEQ names a micro-operation. -/
def PhaseAt (s : State) : Instr → Prop
  | .nAlloc => Running s ∧ s.blk.fsm = .empty ∧ Blank s ∧ NewLatched s
  | .bAlloc => Binding s ∧ s.blk.idx.toNat < s.blk.size.toNat ∧ HoldsExactly s s.blk.idx.toNat
  | .bStamp | .bEmit | .uFree => Binding s ∧ s.blk.idx.toNat < s.blk.size.toNat ∧ HoldsExactly s (s.blk.idx.toNat + 1)
  | .uClear => Binding s ∧ 1 ≤ s.blk.idx.toNat ∧ s.blk.idx.toNat < s.blk.size.toNat ∧ HoldsExactly s s.blk.idx.toNat
  | .uDone => Binding s ∧ s.blk.idx = 0#32 ∧ HoldsExactly s 0
  | .tNop => BoundRun s .transmit false
  | .pBal | .pBah | .pLen | .pCtlr | .pCtlw | .pEn => BoundRun s .receive false
  | .wPoll | .wWait | .wTmo => BoundRun s .receive true
  | .new _ _ | .init => False

theorem phase_iff {s : State} {i : Instr} (hi : decodeSeq s.blk.seq = .ok i) : Phase s ↔ PhaseAt s i := by
  unfold Phase
  rw [hi]
  cases i <;> rfl

/-- The lifecycle speaks of the parameters and the block alone. -/
theorem Phase.congr {s t : State} (h : Phase s) (hpar : t.par = s.par) (hblk : t.blk = s.blk) : Phase t := by
  obtain ⟨par, blk, env, inp⟩ := t
  cases hpar
  cases hblk
  exact h

/-! ### At rest -/

/-- What the lifecycle says of a state between runs, by FSM (10_state R67). -/
def RestsIn (s : State) : Fsm → Prop
  | .empty => Blank s
  | .constructed => Sized s ∧ s.blk.prog = false ∧ s.blk.idx = 0#32 ∧ HoldsExactly s 0
  | .bound => Full s ∧ (s.blk.prog = true ↔ s.blk.role = .receive)
  | .enabled => Full s ∧ s.blk.role = .receive ∧ s.blk.prog = true

theorem resting_iff {s : State} {f : Fsm} (hf : s.blk.fsm = f) : Resting s ↔ s.blk.busy = false ∧ RestsIn s f := by
  subst hf
  unfold Resting
  cases s.blk.fsm <;> rfl

theorem phase_of_restsIn {s : State} {f : Fsm} (hidle : s.blk.seq = seqIdle) (hb : s.blk.busy = false)
    (hf : s.blk.fsm = f) (h : RestsIn s f) : Phase s :=
  (phase_idle hidle).mpr ((resting_iff hf).mpr ⟨hb, h⟩)

/-! ### The micro-operations keep the lifecycle -/

/-- Before its last slot is bound the ring is the same with one slot more; after it the ring is full. -/
theorem phase_after_bEmit {s : State} (h : PhaseAt s .bEmit) : Phase { s with blk := blkAfter s .bEmit } := by
  obtain ⟨⟨hrun, hfsm, hsized, hprog⟩, hlt, hbuf⟩ := h
  have hsize := s.blk.size.isLt
  have hidx : (countUp s.blk.idx s.inp.drawn).toNat = s.blk.idx.toNat + 1 := countUp_toNat (by omega) _
  by_cases hmore : s.blk.idx.toNat + 1 < s.blk.size.toNat
  · simp only [blkAfter, if_pos hmore]
    exact (phase_iff (i := .bAlloc) rfl).mpr ⟨⟨hrun, hfsm, hsized, hprog⟩, hidx ▸ hmore, hbuf.congr rfl hidx⟩
  · have hlast : (countUp s.blk.idx s.inp.drawn).toNat = s.blk.size.toNat := by omega
    have hfull : Full { s with blk := blkAfter s .bEmit } :=
      ⟨hsized, BitVec.eq_of_toNat_eq hlast, hbuf.congr rfl (hlast.symm.trans hidx)⟩
    simp only [blkAfter, if_neg hmore]
    cases s.blk.role with
    | receive => exact (phase_iff (i := .pBal) rfl).mpr ⟨hrun, rfl, hfull, rfl, hprog⟩
    | transmit => exact (phase_iff (i := .tNop) rfl).mpr ⟨hrun, rfl, hfull, rfl, hprog⟩

/-- The unwind goes on from the slots below IDX, or ends if there are none. -/
theorem phase_of_unwind {t : State} (hbind : Binding t) (hlt : t.blk.idx.toNat < t.blk.size.toNat)
    (hbuf : HoldsExactly t t.blk.idx.toNat) (hseq : t.blk.seq = if t.blk.idx = 0#32 then seqUDone else seqUClear) : Phase t := by
  by_cases h0 : t.blk.idx = 0#32
  · rw [if_pos h0] at hseq
    rw [h0] at hbuf
    exact (phase_iff (i := .uDone) (by rw [hseq]; rfl)).mpr ⟨hbind, h0, hbuf⟩
  · rw [if_neg h0] at hseq
    have hpos : 1 ≤ t.blk.idx.toNat := by
      rw [Nat.one_le_iff_ne_zero]
      exact fun hz => h0 (BitVec.eq_of_toNat_eq hz)
    exact (phase_iff (i := .uClear) (by rw [hseq]; rfl)).mpr ⟨hbind, hpos, hlt, hbuf⟩

theorem phase_after_bAlloc {s : State} (h : PhaseAt s .bAlloc) : Phase { s with blk := blkAfter s .bAlloc } := by
  obtain ⟨hbind, hlt, hbuf⟩ := h
  simp only [blkAfter]
  cases allocAnswer s with
  | some a => exact (phase_iff (i := .bStamp) rfl).mpr ⟨hbind, hlt, hbuf.set rfl⟩
  | none => exact phase_of_unwind hbind hlt hbuf rfl

theorem phase_after_uClear {s : State} (h : PhaseAt s .uClear) : Phase { s with blk := blkAfter s .uClear } := by
  obtain ⟨hbind, hpos, hlt, hbuf⟩ := h
  have hidx := stepBack_toNat hpos
  refine (phase_iff (i := .uFree) rfl).mpr ⟨hbind, ?_, hbuf.congr rfl ?_⟩
  · change (stepBack s).toNat < s.blk.size.toNat
    omega
  · change (stepBack s).toNat + 1 = s.blk.idx.toNat
    omega

theorem phase_after_nAlloc {s : State} (h : PhaseAt s .nAlloc) : Phase { s with blk := blkAfter s .nAlloc } := by
  obtain ⟨-, hfsm, hblank, hsized⟩ := h
  simp only [blkAfter]
  cases allocAnswer s with
  | some a =>
    obtain ⟨-, -, -, hidx, hprog, hbuf⟩ := hblank
    exact phase_of_restsIn rfl rfl rfl ⟨hsized, hprog, hidx, hbuf⟩
  | none => exact phase_of_restsIn rfl rfl hfsm hblank

theorem phase_after_wPoll {s : State} (h : PhaseAt s .wPoll) : Phase { s with blk := blkAfter s .wPoll } := by
  simp only [blkAfter]
  split
  · obtain ⟨-, -, hfull, hrole, hprog⟩ := h
    exact phase_of_restsIn rfl rfl rfl ⟨hfull, hrole, hprog⟩
  · exact (phase_iff (i := .wWait) rfl).mpr h

/-- Every micro-operation leads from its phase into the lifecycle. -/
theorem phase_blkAfter {s : State} {i : Instr} (h : PhaseAt s i) : Phase { s with blk := blkAfter s i } := by
  cases i with
  | new role size | init => exact h.elim
  | nAlloc => exact phase_after_nAlloc h
  | bAlloc => exact phase_after_bAlloc h
  | bStamp => exact (phase_iff (i := .bEmit) rfl).mpr h
  | bEmit => exact phase_after_bEmit h
  | uClear => exact phase_after_uClear h
  | uFree =>
    obtain ⟨hbind, hlt, hbuf⟩ := h
    exact phase_of_unwind hbind hlt (hbuf.clear rfl) rfl
  | uDone =>
    obtain ⟨⟨-, hfsm, hsized, hprog⟩, hidx, hbuf⟩ := h
    exact phase_of_restsIn rfl rfl hfsm ⟨hsized, hprog, hidx, hbuf⟩
  | tNop =>
    obtain ⟨-, hfsm, hfull, hrole, hprog⟩ := h
    exact phase_of_restsIn rfl rfl hfsm ⟨hfull, by simp [blkAfter, hrole, hprog]⟩
  | pBal => exact (phase_iff (i := .pBah) rfl).mpr h
  | pBah => exact (phase_iff (i := .pLen) rfl).mpr h
  | pLen => exact (phase_iff (i := .pCtlr) rfl).mpr h
  | pCtlr => exact (phase_iff (i := .pCtlw) rfl).mpr h
  | pCtlw => exact (phase_iff (i := .pEn) rfl).mpr h
  | pEn =>
    obtain ⟨hrun, hfsm, hfull, hrole, -⟩ := h
    exact (phase_iff (i := .wPoll) rfl).mpr ⟨hrun, hfsm, hfull, hrole, rfl⟩
  | wPoll => exact phase_after_wPoll h
  | wWait =>
    simp only [blkAfter]
    split
    · exact (phase_iff (i := .wPoll) rfl).mpr h
    · exact (phase_iff (i := .wTmo) rfl).mpr h
  | wTmo =>
    obtain ⟨-, hfsm, hfull, hrole, hprog⟩ := h
    exact phase_of_restsIn rfl rfl hfsm ⟨hfull, by simp [blkAfter, hrole, hprog]⟩

/-! ### The steps keep the lifecycle -/

/-- CMDREG holds the size of an accepted NEW. -/
theorem cmdSize_encodeCommand_new (role : Role) {size : Nat} (h : size < 2 ^ 32) :
    (cmdSize (encodeCommand (.new role size))).toNat = size := by
  have hrole : role.code.toNat ≤ 1 := Laws.TableRow.code_le role
  rw [cmdSize_toNat]
  simp only [encodeCommand, encode, commandWord_toNat, BitVec.toNat_ofNat]
  omega

theorem phase_after_refuse {s : State} (h : Phase s) (hready : s.blk.busy = false) :
    Phase { s with blk := (refuse s).blk } := by
  obtain ⟨hidle, hrest⟩ := phase_resting h hready
  exact (phase_idle (s := { s with blk := (refuse s).blk }) hidle).mpr hrest

theorem phase_after_new {s : State} {role : Role} {size : Nat} (h : Phase s) (hready : s.blk.busy = false) (hacc : newAccepted size s) :
    Phase { s with blk := (accept (encodeCommand (.new role size)) seqNAlloc s).blk } := by
  obtain ⟨hfsm, hpos, hmax⟩ := hacc
  obtain ⟨-, hblank⟩ := (resting_iff hfsm).mp (phase_resting h hready).2
  have hsize := cmdSize_encodeCommand_new role (lt_of_le_of_lt hmax s.par.nMax_lt)
  exact (phase_iff (i := .nAlloc) rfl).mpr ⟨⟨rfl, rfl⟩, hfsm, hblank, hsize.symm ▸ hpos, hsize.symm ▸ hmax⟩

theorem phase_after_init {s : State} (h : Phase s) (hready : s.blk.busy = false) (hacc : initAccepted s) :
    Phase { s with blk := { (accept (encodeCommand .init) seqBAlloc s).blk with idx := 0#32 } } := by
  obtain ⟨-, hsized, hprog, -, hbuf⟩ := (resting_iff hacc).mp (phase_resting h hready).2
  exact (phase_iff (i := .bAlloc) rfl).mpr ⟨⟨⟨rfl, rfl⟩, hacc, hsized, hprog⟩, hsized.1, hbuf⟩

theorem phase_after_reset (s : State) : Phase { s with blk := Block.reset } :=
  phase_of_restsIn (f := .empty) rfl rfl rfl
    ⟨rfl, rfl, rfl, rfl, rfl, by simp [HoldsExactly, bufGet, Block.reset, sparseGet]⟩

/-- Settles O49: each change of the block that a step can make leads from the lifecycle into it. -/
theorem stepKeepsLifecycle : Obligations.StepKeepsLifecycle := by
  unfold Obligations.StepKeepsLifecycle
  intro s t h hstep
  obtain ⟨hpar, hblk⟩ := step_par_blockStep hstep
  cases hblk with
  | micro i hi hblk => exact (phase_blkAfter ((phase_iff hi).mp h)).congr hpar hblk
  | stays hblk => exact h.congr hpar hblk
  | refused hready hblk =>
    exact (phase_after_refuse h hready).congr hpar hblk
  | new role size hready hacc hblk => exact (phase_after_new h hready hacc).congr hpar hblk
  | init hready hacc hblk => exact (phase_after_init h hready hacc).congr hpar hblk
  | reset _ hblk => exact (phase_after_reset s).congr hpar hblk

end Sys2Proof.Safety

/-! PROOFS. What follows from the changes of the block and from the lifecycle: BUSY and SEQ, the attempt count, the transitions of FSM, and
that no step stops (10_state R40, R42, R51; 60_exceptions R158). -/

namespace Sys2Proof.Safety

open Sys2Proof.Machine

/-! ### BUSY and SEQ -/

/-- A micro-operation leaves BUSY as it is, except that the one that idles the sequencer clears it. -/
theorem blkAfter_busy_iff {s : State} {i : Instr} (hi : decodeSeq s.blk.seq = .ok i) :
    (blkAfter s i).busy = true ↔ s.blk.busy = true ∧ (blkAfter s i).seq ≠ seqIdle := by
  cases i with
  | new role size | init => cases seq_of_decodeSeq hi
  | nAlloc => simp only [blkAfter]; cases allocAnswer s <;> simp
  | bAlloc =>
    simp only [blkAfter]
    cases allocAnswer s with
    | some a => simp
    | none => dsimp only; split <;> simp
  | bEmit =>
    simp only [blkAfter]
    split
    · simp
    · split <;> simp
  | uFree | wPoll | wWait => simp only [blkAfter]; split <;> simp
  | _ => simp [blkAfter]

/-- Settles O47: an accepted command raises BUSY and sets SEQ, a run's last step and reset clear both. -/
theorem busyMeansSequencing : Obligations.BusyMeansSequencing := by
  unfold Obligations.BusyMeansSequencing BusyIffSequencing
  refine ⟨by decide, fun s t h hstep => ?_⟩
  obtain ⟨-, hblk⟩ := step_par_blockStep hstep
  cases hblk with
  | micro i hi hblk =>
    have hbusy : s.blk.busy = true := h.mpr (ne_seqIdle_of_decodeSeq hi)
    rw [hblk, blkAfter_busy_iff hi]
    exact and_iff_right hbusy
  | stays hblk | refused _ hblk =>
    rw [hblk]
    exact h
  | new _ _ _ _ hblk | init _ _ hblk | reset _ hblk => simp [hblk, Block.reset]

/-! ### The attempt count -/

/-- Only P_EN and W_WAIT ask for a poll, and W_WAIT does so below MAX_ATTEMPTS only. -/
theorem blkAfter_seq_wPoll {s : State} {i : Instr} (hi : decodeSeq s.blk.seq = .ok i) (h : (blkAfter s i).seq = seqWPoll) :
    i = .pEn ∨ i = .wWait ∧ s.blk.att.toNat < Config.maxAttempts := by
  cases i with
  | new role size | init => cases seq_of_decodeSeq hi
  | pEn => exact .inl rfl
  | wWait =>
    refine .inr ⟨rfl, ?_⟩
    by_contra hlt
    simp [blkAfter, hlt] at h
  | nAlloc | uFree | wPoll =>
    simp only [blkAfter] at h
    split at h <;> simp at h
  | bAlloc | bEmit =>
    simp only [blkAfter] at h
    split at h
    · simp at h
    · split at h <;> simp at h
  | _ => simp [blkAfter] at h

/-- Only P_EN and W_POLL write ATT. -/
theorem blkAfter_att {s : State} {i : Instr} (hi : i ∉ [.pEn, .wPoll]) : (blkAfter s i).att = s.blk.att := by
  cases i with
  | new role size | init | nAlloc | bAlloc => simp only [blkAfter]; split <;> rfl
  | pEn | wPoll => simp at hi
  | _ => rfl

theorem attemptsBounded_blkAfter {s t : State} {i : Instr} (hi : decodeSeq s.blk.seq = .ok i) (h : AttemptsBounded s)
    (hblk : t.blk = blkAfter s i) : AttemptsBounded t := by
  unfold AttemptsBounded
  rw [hblk]
  obtain ⟨hle, hpoll⟩ := h
  by_cases hp : i ∈ [Instr.pEn, .wPoll]
  · obtain rfl | rfl : i = .pEn ∨ i = .wPoll := by simpa using hp
    · simp [blkAfter, Config.maxAttempts]
    · have hseq : s.blk.seq = seqWPoll := (Encoded.micro.inj (seq_of_decodeSeq hi)).symm
      have hlt : s.blk.att.toNat < 1000 := hpoll hseq
      have hatt : (countUp s.blk.att (takeReadAnswer s).inp.drawn).toNat = s.blk.att.toNat + 1 :=
        countUp_toNat (by omega) _
      simp only [blkAfter]
      split <;> exact ⟨hatt ▸ hlt, by simp⟩
  · rw [blkAfter_att hp]
    refine ⟨hle, fun hseq => ?_⟩
    obtain rfl | ⟨-, hlt⟩ := blkAfter_seq_wPoll hi hseq
    · simp at hp
    · exact hlt

/-- Settles O48: the count starts at 0, W_POLL raises it from below 1000, and another poll follows below 1000 only. -/
theorem attemptsStayBounded : Obligations.AttemptsStayBounded := by
  unfold Obligations.AttemptsStayBounded
  intro s t h hstep
  obtain ⟨-, hblk⟩ := step_par_blockStep hstep
  cases hblk with
  | micro i hi hblk => exact attemptsBounded_blkAfter hi h hblk
  | stays hblk | refused _ hblk =>
    unfold AttemptsBounded
    rw [hblk]
    exact h
  | new _ _ _ _ hblk | init _ _ hblk =>
    unfold AttemptsBounded
    rw [hblk]
    exact ⟨h.1, by simp⟩
  | reset _ hblk => simp [AttemptsBounded, hblk, Block.reset]

/-! ### The transitions of FSM -/

/-- Only N_ALLOC, B_EMIT and W_POLL write FSM. -/
theorem blkAfter_fsm {s : State} {i : Instr} (hi : i ∉ [.nAlloc, .bEmit, .wPoll]) : (blkAfter s i).fsm = s.blk.fsm := by
  cases i with
  | new role size | init | bAlloc => simp only [blkAfter]; split <;> rfl
  | nAlloc | bEmit | wPoll => simp at hi
  | _ => rfl

/-- Settles O56: N_ALLOC, B_EMIT and W_POLL each make their one transition from the FSM state of their phase. -/
theorem fsmTransitionsAreFour : Obligations.FsmTransitionsAreFour := by
  unfold Obligations.FsmTransitionsAreFour
  intro s t h hstep
  obtain ⟨-, hblk⟩ := step_par_blockStep hstep
  cases hblk with
  | stays hblk | refused _ hblk | new _ _ _ _ hblk | init _ _ hblk => exact .inl ((congrArg Block.fsm hblk).trans rfl)
  | reset hreset hblk => exact .inr (.inr (.inr (.inr ⟨congrArg Block.fsm hblk, hreset⟩)))
  | micro i hi hblk =>
    have hphase := (phase_iff hi).mp h
    rw [hblk]
    by_cases hw : i ∈ [Instr.nAlloc, .bEmit, .wPoll]
    · obtain rfl | rfl | rfl : i = .nAlloc ∨ i = .bEmit ∨ i = .wPoll := by simpa using hw
      · obtain ⟨-, hfsm, -⟩ := hphase
        simp only [blkAfter]
        cases allocAnswer s with
        | none => exact .inl rfl
        | some a => exact .inr (.inl ⟨hfsm, rfl, hi, rfl⟩)
      · obtain ⟨⟨-, hfsm, -⟩, hlt, -⟩ := hphase
        by_cases hmore : s.blk.idx.toNat + 1 < s.blk.size.toNat
        · exact .inl (if_pos hmore)
        · exact .inr (.inr (.inl ⟨hfsm, if_neg hmore, hi, by omega⟩))
      · obtain ⟨-, hfsm, -, hrole, -⟩ := hphase
        simp only [blkAfter]
        split
        case isTrue hack => exact .inr (.inr (.inr (.inl ⟨hfsm, rfl, hi, hrole, (acked_iff _ _).mp hack⟩)))
        case isFalse => exact .inl rfl
    · exact .inl (blkAfter_fsm hw)

/-! ### No step stops -/

/-- In its phase, with an owned table, every micro-operation answers a next state. -/
theorem exec_next_of_phaseAt {s : State} {i : Instr} (h : PhaseAt s i) (ho : Owned s) : ∃ t, exec i s = .next t := by
  cases i with
  | new role size | init => exact h.elim
  | bStamp =>
    obtain ⟨⟨-, hfsm, -⟩, hlt, hbuf⟩ := h
    obtain ⟨a, ha⟩ := hbuf.get (Nat.lt_succ_self _)
    exact ⟨_, exec_bStamp_some ha ((ho.table (by simp [hfsm])).fits hlt)⟩
  | uClear =>
    obtain ⟨⟨-, hfsm, -⟩, hpos, hlt, -⟩ := h
    have hback : (stepBack s).toNat < s.blk.size.toNat := by
      rw [stepBack_toNat hpos]
      omega
    exact ⟨_, exec_uClear_fits ((ho.table (by simp [hfsm])).fits hback)⟩
  | uFree =>
    obtain ⟨-, -, hbuf⟩ := h
    obtain ⟨a, ha⟩ := hbuf.get (Nat.lt_succ_self _)
    exact ⟨_, exec_uFree_some ha⟩
  | _ => exact ⟨_, rfl⟩

theorem controllerMove_next_of_phase {s : State} (h : Phase s) (ho : Owned s) : ∃ t, controllerMove s = .next t := by
  cases hd : decodeSeq s.blk.seq with
  | ok i =>
    rw [controllerMove_of_decodeSeq hd]
    exact exec_next_of_phaseAt ((phase_iff hd).mp h) ho
  | error r =>
    unfold Phase at h
    rw [hd] at h
    cases r with
    | idle => exact ⟨s, controllerMove_of_idle (seq_of_idle hd)⟩
    | _ => exact h.elim

/-- A submission to a ready port is taken or refused. -/
theorem submitMove_next_of_ready {s : State} (hready : s.blk.busy = false) (w : CmdWord) : ∃ t, submitMove w s = .next t := by
  unfold submitMove
  cases hw : decodeCommand w with
  | error r => exact ⟨_, rfl⟩
  | ok i =>
    obtain rfl | rfl := decodeCommand_cases hw
    · exact ⟨_, exec_new_ready hready _ _⟩
    · by_cases hacc : initAccepted s
      · exact ⟨_, exec_init_accepted hready hacc⟩
      · exact ⟨_, exec_init_refused hready hacc⟩

theorem Owned.withMoves {s : State} (h : Owned s) (ms : List Move) : Owned (withMoves ms s) :=
  h.congr rfl rfl rfl rfl rfl id

/-- Settles O53: the controller's move answers by the phase, a submission by the ready port, reset and DMA always. -/
theorem lifecycleNeverStops : Obligations.LifecycleNeverStops := by
  unfold Obligations.LifecycleNeverStops
  intro s h ho _
  cases hm : s.inp.moves with
  | nil => exact step_of_nil hm ▸ controllerMove_next_of_phase h ho
  | cons m rest =>
    cases m with
    | quiet => exact step_of_quiet hm ▸ controllerMove_next_of_phase (h.congr rfl rfl) (ho.withMoves rest)
    | submit w =>
      cases hb : s.blk.busy with
      | true => exact step_of_submit_busy hm hb ▸ controllerMove_next_of_phase h ho
      | false =>
        rw [step_of_submit_ready hm hb]
        exact submitMove_next_of_ready (s := Machine.withMoves rest s) hb w
    | reset => exact ⟨_, step_of_reset hm⟩
    | dma a b => exact ⟨_, step_of_dma hm⟩

end Sys2Proof.Safety

/-! PROOFS. Ownership of the table and the buffers: what the three instructions that touch the live set do to it, and that every step keeps
it (10_state R46, R49 d, R64; 20_memory R85, R86). -/

namespace Sys2Proof.Safety

open Sys2Proof.Machine

/-! ### Regions and single allocations -/

theorem Apart.symm {a n b m : Nat} (h : Apart a n b m) : Apart b m a n := Or.symm h

/-- Two regions apart, neither empty, have different bases. -/
theorem Apart.base_ne {a b : Addr} {n m : Nat} (h : Apart a.toNat n b.toNat m) (hn : 0 < n) (hm : 0 < m) : a ≠ b := by
  rintro rfl
  unfold Apart at h
  omega

/-- The ring of `t` is the ring of `s`: the same slot size, table and count of slots. -/
def SameRing (s t : State) : Prop := t.par = s.par ∧ t.blk.tblBase = s.blk.tblBase ∧ t.blk.size = s.blk.size

theorem TableOwned.of_live {s t : State} (h : TableOwned s) (hring : SameRing s t)
    (hlive : ∀ x ∈ s.env.live, x.base = s.blk.tblBase → x ∈ t.env.live) : TableOwned t := by
  obtain ⟨hpar, hbase, hsize⟩ := hring
  obtain ⟨halign, hne, hfits, hmem⟩ := h
  unfold TableOwned
  rw [hpar, hbase, hsize]
  exact ⟨halign, hne, hfits, hlive _ hmem rfl⟩

theorem BufferOwned.of_live {s t : State} {a : Addr} (h : BufferOwned s a) (hring : SameRing s t)
    (hlive : ∀ x ∈ s.env.live, x.base = a → x ∈ t.env.live) : BufferOwned t a := by
  obtain ⟨hpar, hbase, hsize⟩ := hring
  obtain ⟨halign, hne, hfits, hmem, hapart⟩ := h
  unfold BufferOwned
  rw [hpar, hbase, hsize]
  exact ⟨halign, hne, hfits, hlive _ hmem rfl, hapart⟩

/-- Without buffers only the table is to be owned. -/
theorem owned_of_no_buffer {t : State} (hbuf : HoldsExactly t 0) (htable : t.blk.fsm ≠ .empty → TableOwned t) : Owned t where
  table := htable
  buffer i a ha := by
    rw [hbuf.get_zero] at ha
    cases ha
  distinct i j a b ha := by
    rw [hbuf.get_zero] at ha
    cases ha

/-! ### The instructions that touch the live set -/

/-- A granted table is a live allocation of its own. -/
theorem owned_after_nAlloc {s t : State} (hseq : s.blk.seq = seqNAlloc) (h : PhaseAt s .nAlloc) (hmeets : AllocatorMeets s)
    (hpar : t.par = s.par) (hblk : t.blk = blkAfter s .nAlloc) (hlive : t.env.live = liveAfter s.env.live (transactionOf s .nAlloc)) :
    Owned t := by
  obtain ⟨-, hfsm, ⟨-, -, -, -, -, hbuf⟩, -⟩ := h
  cases ha : allocAnswer s with
  | none =>
    have hblk' : t.blk = (finish .noMemory s).blk := by simpa only [blkAfter, ha] using hblk
    refine owned_of_no_buffer (hbuf.congr (by simp [hblk']) rfl) fun hne => ?_
    exact absurd (by simp [hblk', hfsm]) hne
  | some a =>
    obtain ⟨halign, hfits, hne, -⟩ := (hmeets a ha).1 hseq
    simp only [blkAfter, ha] at hblk
    simp only [transactionOf, ha, liveAfter] at hlive
    refine owned_of_no_buffer (hbuf.congr (by simp [hblk]) rfl) fun _ => ?_
    unfold TableOwned
    rw [hpar, hblk, hlive]
    exact ⟨halign, hne, hfits, by simp⟩

/-- A granted page is a live allocation of its own, apart from the table and from every buffer there is. -/
theorem owned_after_bAlloc {s t : State} {a : Addr} (ho : Owned s) (hfsm : s.blk.fsm ≠ .empty)
    (hmeets : AnswerMeets Config.pageSize Config.bufAlign s.env.live a) (hring : SameRing s t)
    (hbuf : t.blk.buf = sparseSet s.blk.buf s.blk.idx.toNat a) (hlive : t.env.live = s.env.live ++ [⟨a, Config.pageSize, .both⟩]) :
    Owned t := by
  obtain ⟨halign, hfits, hne, hapart⟩ := hmeets
  have hkeeps : ∀ x ∈ s.env.live, x ∈ t.env.live := fun x hx => hlive ▸ List.mem_append_left _ hx
  have hget : ∀ j, bufGet t j = if j = s.blk.idx.toNat then some a else bufGet s j := by
    intro j
    unfold bufGet
    rw [hbuf, sparseGet_set]
  have htable : TableOwned s := ho.table hfsm
  have hold : ∀ j b, bufGet s j = some b → Apart a.toNat Config.pageSize b.toNat Config.pageSize := by
    intro j b hb
    obtain ⟨-, -, -, hmem, -⟩ := ho.buffer j b hb
    exact hapart _ hmem
  refine ⟨fun _ => htable.of_live hring fun x hx _ => hkeeps x hx, fun j b hb => ?_, fun i j b c hb hc hij => ?_⟩
  · rw [hget] at hb
    split at hb
    case isTrue =>
      cases hb
      obtain ⟨-, -, -, hmem⟩ := htable
      obtain ⟨hpar, hbase, hsize⟩ := hring
      refine ⟨halign, hne, hfits, by simp [hlive], ?_⟩
      rw [hpar, hbase, hsize]
      exact hapart _ hmem
    case isFalse => exact (ho.buffer j b hb).of_live hring fun x hx _ => hkeeps x hx
  · rw [hget] at hb hc
    split at hb <;> split at hc
    · omega
    · cases hb
      exact hold j c hc
    · cases hc
      exact (hold i b hb).symm
    · exact ho.distinct i j b c hb hc hij

/-- Releasing the buffer of one slot takes no other allocation of the ring away. -/
theorem owned_after_uFree {s t : State} {a : Addr} (ho : Owned s) (hfsm : s.blk.fsm ≠ .empty) (hsized : Sized s)
    (ha : bufGet s s.blk.idx.toNat = some a) (hring : SameRing s t)
    (hbuf : t.blk.buf = sparseErase s.blk.buf s.blk.idx.toNat (s.blk.idx.toNat + 1))
    (hlive : t.env.live = s.env.live.filter (fun x => decide (x.base ≠ a))) : Owned t := by
  have hkeeps : ∀ b, b ≠ a → ∀ x ∈ s.env.live, x.base = b → x ∈ t.env.live := by
    rintro b hba x hx rfl
    simp [hlive, hx, hba]
  have hget : ∀ j b, bufGet t j = some b → j ≠ s.blk.idx.toNat ∧ bufGet s j = some b := by
    intro j b hb
    unfold bufGet at hb ⊢
    rw [hbuf, sparseGet_erase] at hb
    split at hb
    · cases hb
    · exact ⟨by omega, hb⟩
  have htableLen : 0 < tableBytes s.blk.size s.par.slotSize := Nat.mul_pos hsized.1 s.par.slotSize_pos
  obtain ⟨-, -, -, -, hapart⟩ := ho.buffer _ _ ha
  refine ⟨fun _ => ?_, fun j b hb => ?_, fun i j b c hb hc => ?_⟩
  · exact (ho.table hfsm).of_live hring (hkeeps _ (hapart.symm.base_ne htableLen (by decide)))
  · obtain ⟨hj, hb⟩ := hget j b hb
    have hba : b ≠ a := (ho.distinct _ _ _ _ hb ha hj).base_ne (by decide) (by decide)
    exact (ho.buffer j b hb).of_live hring (hkeeps b hba)
  · exact ho.distinct i j b c (hget i b hb).2 (hget j c hc).2

/-! ### Every instruction and every step -/

/-- Every other instruction leaves the live set as it is. -/
theorem liveAfter_transactionOf {s : State} {i : Instr} (l : List Allocation) (hi : i ∉ [.nAlloc, .bAlloc, .uFree]) :
    liveAfter l (transactionOf s i) = l := by
  cases i with
  | nAlloc | bAlloc | uFree => simp at hi
  | bStamp => simp only [transactionOf]; cases bufGet s s.blk.idx.toNat <;> rfl
  | _ => rfl

theorem exec_sameRing {i : Instr} {s t : State} (h : exec i s = .next t) (hi : i ≠ .nAlloc) : SameRing s t := by
  obtain ⟨hpar, -, hring, -⟩ := registersKeepTheirValue i s t h
  obtain ⟨-, hsize, hbase⟩ := hring hi
  exact ⟨hpar, hbase, hsize⟩

/-- An instruction that leaves the live set, and makes no ring out of none, keeps ownership. -/
theorem owned_of_live_kept {i : Instr} {s t : State} (h : exec i s = .next t) (ho : Owned s)
    (hi : i ∉ [.nAlloc, .bAlloc, .uFree]) (hfsm : t.blk.fsm ≠ .empty → s.blk.fsm ≠ .empty) : Owned t := by
  obtain ⟨hn, hbuf⟩ : i ≠ .nAlloc ∧ i ∉ [Instr.bAlloc, .uFree] := by simpa using hi
  obtain ⟨hpar, hbase, hsize⟩ := exec_sameRing h hn
  obtain ⟨-, -, -, -, -, hkeeps, -⟩ := registersKeepTheirValue i s t h
  obtain ⟨-, hlive⟩ := exec_applies h
  rw [liveAfter_transactionOf _ hi] at hlive
  exact ho.congr hpar hbase hsize (hkeeps hbuf) hlive hfsm

theorem exec_keeps_owned {i : Instr} {s t : State} (hi : decodeSeq s.blk.seq = .ok i) (hp : Phase s) (ho : Owned s)
    (hmeets : AllocatorMeets s) (h : exec i s = .next t) : Owned t := by
  have hphase := (phase_iff hi).mp hp
  have hseq := seq_of_decodeSeq hi
  obtain ⟨hpar, hblk⟩ := exec_par_blk h
  obtain ⟨-, hlive⟩ := exec_applies h
  cases i with
  | new role size | init => exact hphase.elim
  | nAlloc => exact owned_after_nAlloc (Encoded.micro.inj hseq).symm hphase hmeets hpar hblk hlive
  | bAlloc =>
    obtain ⟨⟨-, hfsm, -⟩, -, -⟩ := hphase
    have hne : s.blk.fsm ≠ .empty := by simp [hfsm]
    cases ha : allocAnswer s with
    | some a =>
      simp only [blkAfter, ha] at hblk
      simp only [transactionOf, ha, liveAfter] at hlive
      exact owned_after_bAlloc ho hne ((hmeets a ha).2 (Encoded.micro.inj hseq).symm) (exec_sameRing h (by simp))
        (congrArg Block.buf hblk) hlive
    | none =>
      simp only [blkAfter, ha] at hblk
      simp only [transactionOf, ha, liveAfter] at hlive
      obtain ⟨-, hbase, hsize⟩ := exec_sameRing h (by simp)
      exact ho.congr hpar hbase hsize (by rw [hblk]) hlive fun _ => hne
  | uFree =>
    obtain ⟨⟨-, hfsm, hsized, -⟩, -, hbuf⟩ := hphase
    obtain ⟨a, ha⟩ := hbuf.get (Nat.lt_succ_self _)
    simp only [transactionOf, ha, Option.map_some, liveAfter] at hlive
    exact owned_after_uFree ho (by simp [hfsm]) hsized ha (exec_sameRing h (by simp)) (congrArg Block.buf hblk) hlive
  | bEmit =>
    obtain ⟨⟨-, hfsm, -⟩, -, -⟩ := hphase
    exact owned_of_live_kept h ho (by simp) fun _ => by simp [hfsm]
  | wPoll =>
    obtain ⟨-, hfsm, -⟩ := hphase
    exact owned_of_live_kept h ho (by simp) fun _ => by simp [hfsm]
  | _ => exact owned_of_live_kept h ho (by simp) (by rw [hblk]; exact id)

/-- A command touches neither the ring nor the live set. -/
theorem command_keeps_owned {w : CmdWord} {i : Instr} {s t : State} (hw : decodeCommand w = .ok i) (ho : Owned s)
    (h : exec i s = .next t) : Owned t := by
  have hfsm : t.blk.fsm = s.blk.fsm := by
    obtain ⟨-, hblk⟩ := exec_par_blk h
    rw [hblk]
    obtain rfl | rfl := decodeCommand_cases hw <;> exact blkAfter_fsm (by simp)
  obtain rfl | rfl := decodeCommand_cases hw <;> exact owned_of_live_kept h ho (by simp) (by rw [hfsm]; exact id)

/-- Settles O50: the micro-operations keep ownership, reset gives the ring up, and the other moves do not touch it. -/
theorem stepKeepsOwnership : Obligations.StepKeepsOwnership := by
  unfold Obligations.StepKeepsOwnership
  intro s t h ho hmeets hstep
  obtain ⟨ms, ⟨i, hi, hexec, -⟩ | ⟨-, rfl, -⟩ | ⟨-, -, w, -, ⟨i, hw, hexec⟩ | ⟨-, rfl⟩⟩ | ⟨-, rfl⟩ | ⟨-, a, b, -, rfl⟩⟩ :=
    step_cases hstep
  · exact exec_keeps_owned (s := withMoves ms s) hi (h.congr rfl rfl) (ho.withMoves ms) hmeets hexec
  · exact ho.withMoves ms
  · exact command_keeps_owned hw (ho.withMoves ms) hexec
  · exact ho.congr rfl rfl rfl rfl rfl id
  · exact owned_of_no_buffer (by simp [HoldsExactly, bufGet, Block.reset, sparseGet]) fun hne => absurd rfl hne
  · exact ho.congr (by simp) (by simp) (by simp) (by simp) (by simp) (by simp)

end Sys2Proof.Safety

/-! PROOFS. The canonical forms of memory and BUF, and the fault of an address field outside the bus (20_memory R68, 10_state R48). -/

namespace Sys2Proof.Machine

/-! ### An address field outside the bus address space -/

/-- B_STAMP of a field that does not lie in the bus address space faults (log entry 8). -/
theorem exec_bStamp_outside {s : State} {a : Addr} (h : bufGet s s.blk.idx.toNat = some a)
    (hf : ¬ addrFits (slotAddr s s.blk.idx.toNat)) :
    exec .bStamp s = .fault (.slotOutside (slotAddr s s.blk.idx.toNat)) := by
  simp only [exec, execBStamp, h, if_neg hf]

/-- U_CLEAR of a field that does not lie in the bus address space faults (log entry 8). -/
theorem exec_uClear_outside {s : State} (hf : ¬ addrFits (slotAddr s (stepBack s).toNat)) :
    exec .uClear s = .fault (.slotOutside (slotAddr s (stepBack s).toNat)) := by
  simp only [exec, execUClear, if_neg hf]

/-- Settles O21: the field does not fit, so both micro-operations take their faulting branch. -/
theorem fieldOutsideTheBusFaults : Obligations.FieldOutsideTheBusFaults := by
  unfold Obligations.FieldOutsideTheBusFaults
  exact ⟨fun _ _ ha houtside => exec_bStamp_outside ha (Nat.not_le.mpr houtside),
    fun _ houtside => exec_uClear_outside (Nat.not_le.mpr houtside)⟩

/-! ### Canonical forms after an instruction -/

/-- An instruction that answers a next state writes inside the bus address space only. -/
theorem addrFits_of_exec_memWrite {i : Instr} {s t : State} {d : Nat} {v : BitVec 64} (h : exec i s = .next t)
    (htrans : transactionOf s i = some (.memWrite d v)) : addrFits d := by
  cases i with
  | bStamp =>
    obtain ⟨a, ha, hfits, -⟩ := exec_bStamp_inv h
    rw [transactionOf, ha] at htrans
    cases htrans
    exact hfits
  | uClear =>
    cases htrans
    exact (exec_uClear_inv h).1
  | uFree =>
    obtain ⟨a, ha, -⟩ := exec_uFree_inv h
    rw [transactionOf, ha] at htrans
    cases htrans
  | _ => cases htrans

/-- A transaction keeps memory canonical if what it writes lies in the bus address space; a zero-fill is cut off at its top. -/
theorem wf_memAfter {m : Memory} (hm : m.wf) {o : Option Transaction}
    (hfits : ∀ d v, o = some (.memWrite d v) → addrFits d) : (memAfter m o).wf := by
  unfold memAfter
  split
  · exact Memory.wf_zeroFill hm (Nat.min_le_right _ _)
  · exact Memory.wf_write64 hm (hfits _ _ rfl) _
  · exact hm

/-- BUF changes in B_ALLOC, which sets an entry, and in U_FREE, which empties one. -/
theorem sparseWf_buf_blkAfter {s : State} (h : sparseWf s.blk.buf) (i : Instr) : sparseWf (blkAfter s i).buf := by
  cases i with
  | bAlloc =>
    simp only [blkAfter]
    split
    · exact sparseWf_set h _ _
    · exact h
  | uFree => exact sparseWf_erase h _ _
  | new role size | init | nAlloc | wPoll => simp only [blkAfter]; split <;> exact h
  | _ => exact h

end Sys2Proof.Machine

namespace Sys2Proof.Safety

open Sys2Proof.Machine

theorem canonical_of_exec {i : Instr} {s t : State} (hcanon : Canonical s) (h : exec i s = .next t) : Canonical t := by
  obtain ⟨hmem, hbuf⟩ := hcanon
  obtain ⟨hmem', -⟩ := exec_applies h
  obtain ⟨-, hblk⟩ := exec_par_blk h
  constructor
  · rw [hmem']
    exact wf_memAfter hmem fun _ _ => addrFits_of_exec_memWrite h
  · rw [hblk]
    exact sparseWf_buf_blkAfter hbuf i

/-- The device writes one byte, at a 64-bit address. -/
theorem canonical_dmaMove {s : State} (hcanon : Canonical s) (a : Addr) (b : Byte) : Canonical (dmaMove a b s) := by
  unfold dmaMove
  split
  · exact ⟨Memory.wf_writeByte hcanon.1 a.isLt b, hcanon.2⟩
  · exact hcanon

/-- Settles O46: an instruction and a DMA write keep the forms, reset empties BUF, and the other moves touch neither memory nor BUF. -/
theorem stepKeepsCanonicalForm : Obligations.StepKeepsCanonicalForm := by
  unfold Obligations.StepKeepsCanonicalForm
  intro s t hcanon hstep
  obtain ⟨ms, hcases⟩ := step_cases hstep
  have hmoves : Canonical (withMoves ms s) := hcanon
  obtain ⟨i, -, hexec, -⟩ | ⟨-, rfl, -⟩ | ⟨-, -, w, -, ⟨i, -, hexec⟩ | ⟨-, rfl⟩⟩ | ⟨-, rfl⟩ | ⟨-, a, b, -, rfl⟩ := hcases
  · exact canonical_of_exec hmoves hexec
  · exact hmoves
  · exact canonical_of_exec hmoves hexec
  · exact hcanon
  · exact ⟨hcanon.1, List.Pairwise.nil⟩
  · exact canonical_dmaMove hmoves a b

end Sys2Proof.Safety

/-! PROOFS. The encoding: which words decode to a command, in arithmetic on the word's number, that encoder and decoder are inverse, and why
the other words are no instruction (30_encoding R99, R104, R112, R113). -/

namespace Sys2Proof

open Machine

/-! ### Words that are no command (30_encoding R113) -/

theorem decodeCommand_reservedOpcode {w : CmdWord} (h1 : w.toNat % 2 ^ 8 ≠ 1) (h2 : w.toNat % 2 ^ 8 ≠ 2) :
    decodeCommand w = .error .reservedOpcode := by
  rw [decodeCommand_eq, if_neg h1, if_neg h2]

theorem decodeCommand_reservedBits {w : CmdWord} (hop : w.toNat % 2 ^ 8 = 1 ∨ w.toNat % 2 ^ 8 = 2)
    (hrsv : w.toNat / 2 ^ 9 % 2 ^ 23 ≠ 0) : decodeCommand w = .error .reservedBits := by
  rw [decodeCommand_eq]
  obtain h1 | h2 := hop
  · rw [if_pos h1, if_neg hrsv]
  · rw [if_neg (by omega), if_pos h2, if_neg hrsv]

theorem decodeCommand_initOperand {w : CmdWord} (hop : w.toNat % 2 ^ 8 = 2) (hrsv : w.toNat / 2 ^ 9 % 2 ^ 23 = 0)
    (hoperand : w.toNat / 2 ^ 8 ≠ 0) : decodeCommand w = .error .initOperand := by
  rw [decodeCommand_eq, if_neg (by omega), if_pos hop, if_pos hrsv, if_neg (by omega)]

/-- Settles O4: each class of words takes one failing branch of the decoder. -/
theorem reservedWordsAreNoInstruction : Obligations.ReservedWordsAreNoInstruction := by
  unfold Obligations.ReservedWordsAreNoInstruction
  refine ⟨fun _ => decodeCommand_reservedOpcode, fun _ => decodeCommand_reservedBits, fun _ => decodeCommand_initOperand,
    fun c h0 => ?_, fun _ => decodeSeq_unused⟩
  obtain rfl : c = seqIdle := BitVec.eq_of_toNat_eq h0
  rfl

/-! ### Words that are a command (30_encoding R99) -/

/-- The number of a NEW word has size, role and opcode in their places. -/
theorem encodeCommand_new_toNat (role : Role) {size : Nat} (h : size < 2 ^ 32) :
    (encodeCommand (.new role size)).toNat = size * 2 ^ 32 + roleCode role * 2 ^ 8 + 1 :=
  (Laws.TableRow.number_new role h).trans (Nat.add_assoc ..).symm

/-- With opcode 1 and the reserved bits 0, the role bit and the size are all that is left of the word. -/
theorem new_number_of_fields {w : CmdWord} (hop : w.toNat % 2 ^ 8 = 1) (hrsv : w.toNat / 2 ^ 9 % 2 ^ 23 = 0) :
    ∃ role, w.toNat = w.toNat / 2 ^ 32 * 2 ^ 32 + roleCode role * 2 ^ 8 + 1 := by
  have hrole : roleCode (roleOfCode (cmdRole w)) = w.toNat / 2 ^ 8 % 2 := by
    rw [roleCode, role_code_of_code, cmdRole_toNat]
  exact ⟨roleOfCode (cmdRole w), by rw [hrole]; omega⟩

theorem decodeCommand_new {w : CmdWord} {role : Role} {size : Nat}
    (hw : w.toNat = size * 2 ^ 32 + roleCode role * 2 ^ 8 + 1) : decodeCommand w = .ok (.new role size) := by
  have hsize : size < 2 ^ 32 := by have := w.isLt; omega
  have hword : w = BitVec.ofNat 64 (size * 2 ^ 32 + (role.code.toNat * 2 ^ 8 + 1)) := by
    rw [← Nat.add_assoc]
    exact (bv_eq_ofNat (hw ▸ w.isLt)).mpr hw
  rw [hword, Laws.TableRow.decode_new role hsize]

/-- A word that decodes is the number of a NEW, or 2. -/
theorem decodeCommand_inv {w : CmdWord} {i : Instr} (h : decodeCommand w = .ok i) :
    (∃ role size, i = .new role size ∧ w.toNat = size * 2 ^ 32 + roleCode role * 2 ^ 8 + 1) ∨ (i = .init ∧ w = 2#64) := by
  by_cases hop : w.toNat % 2 ^ 8 = 1 ∨ w.toNat % 2 ^ 8 = 2
  · by_cases hrsv : w.toNat / 2 ^ 9 % 2 ^ 23 = 0
    · obtain h1 | h2 := hop
      · obtain ⟨role, hw⟩ := new_number_of_fields h1 hrsv
        exact .inl ⟨role, _, Except.ok.inj (h.symm.trans (decodeCommand_new hw)), hw⟩
      · by_cases hoperand : w.toNat / 2 ^ 8 = 0
        · obtain rfl : w = 2#64 := BitVec.eq_of_toNat_eq (by simp only [BitVec.toNat_ofNat]; omega)
          exact .inr ⟨(Except.ok.inj h).symm, rfl⟩
        · cases h.symm.trans (decodeCommand_initOperand h2 hrsv hoperand)
    · cases h.symm.trans (decodeCommand_reservedBits hop hrsv)
  · cases h.symm.trans (decodeCommand_reservedOpcode (fun h1 => hop (.inl h1)) fun h2 => hop (.inr h2))

/-- A command word that decodes has no other spelling. -/
theorem encode_of_decodeCommand {w : CmdWord} {i : Instr} (h : decodeCommand w = .ok i) :
    i.WellFormed ∧ encode i = .command w := by
  obtain ⟨role, size, rfl, hw⟩ | ⟨rfl, rfl⟩ := decodeCommand_inv h
  · have hsize : size < 2 ^ 32 := by have := w.isLt; omega
    have hword : encodeCommand (.new role size) = w :=
      BitVec.eq_of_toNat_eq ((encodeCommand_new_toNat role hsize).trans hw.symm)
    exact ⟨hsize, congrArg Encoded.command hword⟩
  · exact ⟨trivial, by decide⟩

/-- The word that CMDREG latches for the command of a word is that word. -/
theorem encodeCommand_of_decodeCommand {w : CmdWord} {i : Instr} (h : decodeCommand w = .ok i) : encodeCommand i = w := by
  rw [encodeCommand, (encode_of_decodeCommand h).2]

/-! ### Encoder and decoder -/

/-- Settles O1: the fields of a NEW word are read back by `decodeCommand_new`; the words of the other instructions are constants. -/
theorem decodeOfEncodeIsTheInstruction : Obligations.DecodeOfEncodeIsTheInstruction := by
  unfold Obligations.DecodeOfEncodeIsTheInstruction
  intro i hwf
  cases i with
  | new role size => exact decodeCommand_new (encodeCommand_new_toNat role hwf)
  | init => decide
  | _ => rfl

/-- Settles O2: at the level of commands by `decodeCommand_inv`, at the level of SEQ codes by the table of the codes. -/
theorem encodeOfDecodeIsTheWord : Obligations.EncodeOfDecodeIsTheWord := by
  unfold Obligations.EncodeOfDecodeIsTheWord
  intro e i h
  cases e with
  | command w => exact encode_of_decodeCommand h
  | micro c =>
    have hcode : encode i = .micro c := seq_of_decodeSeq h
    refine ⟨?_, hcode⟩
    cases i with
    | new role size => cases hcode
    | _ => trivial

/-- Settles O3: the decoder computes each of the nine words. -/
theorem wordsWrittenOutDecode : Obligations.WordsWrittenOutDecode := by
  unfold Obligations.WordsWrittenOutDecode
  decide

/-! ### Packed records (30_encoding R112) -/

theorem pack_slotBound_toNat (index : Word32) (role : Role) :
    (Event.slotBound index role).pack.toNat = 1 * 2 ^ 60 + roleCode role * 2 ^ 32 + index.toNat := by
  have hrole : role.code.toNat < 2 ^ 1 := role.code.isLt
  simp only [Event.pack, roleCode, BitVec.toNat_append, BitVec.toNat_ofNat, Nat.zero_mod, Nat.or_zero]
  rw [← Nat.shiftLeft_add_eq_or_of_lt index.isLt, ← Nat.shiftLeft_add_eq_or_of_lt hrole]
  simp only [Nat.shiftLeft_eq]
  omega

/-- Settles O5: `pack_slotBound_toNat` at the two roles; a timeout record is a constant. -/
theorem packedRecordHasItsFields : Obligations.PackedRecordHasItsFields := by
  unfold Obligations.PackedRecordHasItsFields
  exact ⟨fun index => pack_slotBound_toNat index .receive, fun index => pack_slotBound_toNat index .transmit, by decide⟩

end Sys2Proof

/-! PROOFS. Submission: what a step does with a word at the command port, ready or not (30_encoding R98, R100, R101; 70_reset R177). -/

namespace Sys2Proof.Machine

/-! ### The port during a run -/

theorem exec_new_busy {s : State} (hb : s.blk.busy = true) (role : Role) (size : Nat) :
    exec (.new role size) s = .refused .portNotReady := by
  simp [exec, execNew, hb]

theorem exec_init_busy {s : State} (hb : s.blk.busy = true) : exec .init s = .refused .portNotReady := by
  simp [exec, execInit, hb]

/-- No instruction touches the moves still to come. -/
theorem exec_moves {i : Instr} {s t : State} (h : exec i s = .next t) : t.inp.moves = s.inp.moves := by
  cases i with
  | new role size =>
    obtain ⟨-, rfl⟩ := exec_new_inv h
    split <;> rfl
  | init => obtain ⟨-, ⟨-, rfl⟩ | ⟨-, rfl⟩⟩ := exec_init_inv h <;> rfl
  | nAlloc =>
    cases ha : allocAnswer s with
    | some a => cases (exec_nAlloc_some ha).symm.trans h; simp
    | none => cases (exec_nAlloc_none ha).symm.trans h; simp
  | bAlloc =>
    cases ha : allocAnswer s with
    | some a => cases (exec_bAlloc_some ha).symm.trans h; simp
    | none => cases (exec_bAlloc_none ha).symm.trans h; simp
  | bStamp => obtain ⟨a, -, -, rfl⟩ := exec_bStamp_inv h; rfl
  | bEmit => cases exec_bEmit_inv h; simp
  | uClear => obtain ⟨-, rfl⟩ := exec_uClear_inv h; simp
  | uFree => obtain ⟨a, -, rfl⟩ := exec_uFree_inv h; rfl
  | pCtlr => cases h; simp
  | wPoll => cases exec_wPoll_inv h; simp
  | wWait => cases (exec_wWait_eq s).symm.trans h; rfl
  | uDone | tNop | pBal | pBah | pLen | pCtlw | pEn | wTmo => cases h; rfl

/-- A micro-operation leaves CMDREG as it is. -/
theorem exec_cmdreg_of_decodeSeq {c : SeqCode} {i : Instr} {s t : State} (hi : decodeSeq c = .ok i) (h : exec i s = .next t) :
    t.blk.cmdreg = s.blk.cmdreg := by
  obtain ⟨-, -, -, hcmdreg, -⟩ := registersKeepTheirValue i s t h
  have hcode := seq_of_decodeSeq hi
  exact hcmdreg (fun r n hn => by subst hn; cases hcode) fun hn => by subst hn; cases hcode

/-- Settles O8: while the submission waits the step is the controller's move, which touches neither the moves nor CMDREG. -/
theorem portIsNotReadyDuringARun : Obligations.PortIsNotReadyDuringARun := by
  unfold Obligations.PortIsNotReadyDuringARun
  refine ⟨fun s t w rest hm hb hstep => ?_, fun s role size hb => ⟨exec_new_busy hb role size, exec_init_busy hb⟩⟩
  rw [step_of_submit_busy hm hb] at hstep
  obtain ⟨i, hi, hexec⟩ | ⟨-, rfl⟩ := controllerMove_cases hstep
  · exact ⟨(exec_moves hexec).trans hm, exec_cmdreg_of_decodeSeq hi hexec⟩
  · exact ⟨hm, rfl⟩

/-! ### The port between runs -/

section
variable {s : State} {w : CmdWord} {rest : List Move}

theorem step_of_submit_command {i : Instr} (hm : s.inp.moves = .submit w :: rest) (hb : s.blk.busy = false)
    (hw : decodeCommand w = .ok i) : step s = exec i (withMoves rest s) := by
  rw [step_of_submit_ready hm hb, submitMove, hw]

theorem step_of_submit_error {r : Reject} (hm : s.inp.moves = .submit w :: rest) (hb : s.blk.busy = false)
    (hw : decodeCommand w = .error r) : step s = .next (refuse (withMoves rest s)) := by
  rw [step_of_submit_ready hm hb, submitMove, hw]

end

theorem exec_new_accepted {s : State} {role : Role} {size : Nat} (hb : s.blk.busy = false) (hacc : newAccepted size s) :
    exec (.new role size) s = .next (accept (encodeCommand (.new role size)) seqNAlloc s) := by
  rw [exec_new_ready hb, if_pos hacc]

theorem exec_new_refused {s : State} {role : Role} {size : Nat} (hb : s.blk.busy = false) (hacc : ¬ newAccepted size s) :
    exec (.new role size) s = .next (refuse s) := by
  rw [exec_new_ready hb, if_neg hacc]

/-- Settles O7: the port is ready and the word names a command. -/
theorem stepRunsTheSubmittedCommand : Obligations.StepRunsTheSubmittedCommand := by
  unfold Obligations.StepRunsTheSubmittedCommand
  intro s w rest i hm hb hw
  exact step_of_submit_command hm hb hw

/-- Settles O9: the word decodes to the command, whose acceptance latches that same word. -/
theorem submissionIsAccepted : Obligations.SubmissionIsAccepted := by
  unfold Obligations.SubmissionIsAccepted
  intro s w rest hm hb
  have hready : (withMoves rest s).blk.busy = false := hb
  constructor
  · intro hop hrsv hfsm hpos hmax
    obtain ⟨role, hnumber⟩ := new_number_of_fields hop hrsv
    have hw := decodeCommand_new hnumber
    have hacc : newAccepted (w.toNat / 2 ^ 32) (withMoves rest s) := ⟨hfsm, hpos, hmax⟩
    rw [step_of_submit_command hm hb hw, exec_new_accepted hready hacc, encodeCommand_of_decodeCommand hw]
    rfl
  · intro hop hoperand hfsm
    obtain rfl : w = 2#64 := BitVec.eq_of_toNat_eq (by simp only [BitVec.toNat_ofNat]; omega)
    have hacc : initAccepted (withMoves rest s) := hfsm
    have hw : decodeCommand 2#64 = .ok .init := by decide
    rw [step_of_submit_command hm hb hw, exec_init_accepted hready hacc, encodeCommand_of_decodeCommand hw]
    rfl

/-- Settles O10: a word that names no command is refused at the port, and a command that is named is not accepted. -/
theorem submissionIsRefused : Obligations.SubmissionIsRefused := by
  unfold Obligations.SubmissionIsRefused
  intro s w rest hm hb hnew hinit
  have hready : (withMoves rest s).blk.busy = false := hb
  cases hw : decodeCommand w with
  | error r => exact step_of_submit_error hm hb hw
  | ok i =>
    rw [step_of_submit_command hm hb hw]
    obtain ⟨role, size, rfl, hnumber⟩ | ⟨rfl, rfl⟩ := decodeCommand_inv hw
    · refine exec_new_refused hready ?_
      rintro ⟨hfsm, hpos, hmax⟩
      have hrole : roleCode role ≤ 1 := Laws.TableRow.code_le role
      have hsize : w.toNat / 2 ^ 32 = size := by omega
      exact hnew ⟨by omega, by omega, hfsm, hsize ▸ hpos, hsize ▸ hmax⟩
    · exact exec_init_refused hready fun hfsm => hinit ⟨by decide, by decide, hfsm⟩

/-- Settles O11: the ready port takes each command in its own state only. -/
theorem commandsComplete : Obligations.CommandsComplete := by
  unfold Obligations.CommandsComplete
  intro s role size hb
  refine ⟨fun hfsm hpos hmax => ?_, exec_new_refused hb, fun hfsm => ?_, exec_init_refused hb⟩
  · exact ⟨_, encodeCommand_new_toNat role (lt_of_le_of_lt hmax s.par.nMax_lt), exec_new_accepted hb ⟨hfsm, hpos, hmax⟩⟩
  · have hword : encodeCommand .init = 2#64 := by decide
    rw [exec_init_accepted hb hfsm, hword]
    rfl

end Sys2Proof.Machine

/-! PROOFS. The sequencer's table: the successors of each micro-operation and the kind of its external transaction (30_encoding R104). -/

namespace Sys2Proof.Machine

open Safety

/-- The codes of the micro-operations that can follow a micro-operation, IDLE after the last (30_encoding R104). -/
def successors : Instr → List SeqCode
  | .new _ _ | .init => []
  | .bAlloc => [seqBStamp, seqUClear, seqUDone]
  | .bStamp => [seqBEmit]
  | .bEmit => [seqBAlloc, seqPBal, seqTNop]
  | .uClear => [seqUFree]
  | .uFree => [seqUClear, seqUDone]
  | .pBal => [seqPBah]
  | .pBah => [seqPLen]
  | .pLen => [seqPCtlr]
  | .pCtlr => [seqPCtlw]
  | .pCtlw => [seqPEn]
  | .pEn => [seqWPoll]
  | .wPoll => [seqIdle, seqWWait]
  | .wWait => [seqWPoll, seqWTmo]
  | .nAlloc | .uDone | .tNop | .wTmo => [seqIdle]

/-- The kind of an instruction's external transaction (30_encoding R104). -/
def transactionKind : Instr → Option Kind
  | .new _ _ | .init | .uDone | .tNop | .wWait => none
  | .nAlloc | .bAlloc => some .alloc
  | .bStamp | .uClear => some .memWrite
  | .bEmit | .wTmo => some .emit
  | .uFree => some .release
  | .pBal | .pBah | .pLen | .pCtlw | .pEn => some .regWrite
  | .pCtlr | .wPoll => some .regRead

theorem blkAfter_seq_mem_successors {s : State} {i : Instr} {c : SeqCode} (hi : encode i = .micro c) :
    (blkAfter s i).seq ∈ successors i := by
  cases i with
  | new role size | init => cases hi
  | nAlloc => simp only [blkAfter]; split <;> simp [successors]
  | bAlloc =>
    simp only [blkAfter]
    split
    · simp [successors]
    · dsimp only; split <;> simp [successors]
  | bEmit =>
    simp only [blkAfter]
    split
    · simp [successors]
    · split <;> simp [successors]
  | uFree | wPoll | wWait => simp only [blkAfter]; split <;> simp [successors]
  | _ => exact List.mem_singleton_self _

/-- The transaction of an instruction that answers a next state is of the instruction's kind: B_STAMP and U_FREE then have their entry. -/
theorem kind_transactionOf {i : Instr} {s t : State} (h : exec i s = .next t) :
    (transactionOf s i).map kindOf = transactionKind i := by
  cases i with
  | bStamp =>
    obtain ⟨a, ha, -, -⟩ := exec_bStamp_inv h
    simp [transactionOf, ha, kindOf, transactionKind]
  | uFree =>
    obtain ⟨a, ha, -⟩ := exec_uFree_inv h
    simp [transactionOf, ha, kindOf, transactionKind]
  | _ => rfl

/-- The trace grows by one transaction of the kind given, or stays if there is none. -/
def TraceGrowsBy (kind : Option Kind) (s t : State) : Prop :=
  match kind with
  | none => t.env.trace = s.env.trace
  | some kind => ∃ x, t.env.trace = s.env.trace ++ [x] ∧ kindOf x = kind

theorem exec_traceGrowsBy {i : Instr} {s t : State} (h : exec i s = .next t) : TraceGrowsBy (transactionKind i) s t := by
  have hrecords := exec_records h
  rw [← kind_transactionOf h]
  cases hx : transactionOf s i with
  | none =>
    rw [hx] at hrecords
    exact (records_none_iff.mp hrecords).1
  | some x =>
    rw [hx] at hrecords
    exact ⟨x, (records_some_iff.mp hrecords).1, rfl⟩

/-- SEQ leaves IDLE by a submission only. -/
theorem submit_of_leaving_idle {s t : State} (hidle : s.blk.seq = seqIdle) (hstep : step s = .next t) (hleft : t.blk.seq ≠ seqIdle) :
    ∃ w rest, s.inp.moves = .submit w :: rest := by
  obtain ⟨ms, ⟨i, hi, -, -⟩ | ⟨-, rfl, -⟩ | ⟨-, -, w, hm, -⟩ | ⟨-, rfl⟩ | ⟨-, a, b, -, rfl⟩⟩ := step_cases hstep
  · exact absurd hidle (ne_seqIdle_of_decodeSeq hi)
  · exact absurd hidle hleft
  · exact ⟨w, ms, hm⟩
  · exact absurd rfl hleft
  · exact absurd (by simpa using hidle) hleft

/-- Settles O44: each row agrees with `encode`, `transactionKind` and `successors`, which say what every instruction does. -/
theorem sequencerFollowsItsTable : Obligations.SequencerFollowsItsTable := by
  unfold Obligations.SequencerFollowsItsTable
  have hidle : ∀ {c : SeqCode}, c.toNat = 0 → c = seqIdle := fun h => BitVec.eq_of_toNat_eq h
  refine ⟨fun row hrow => ?_, fun _ => decodeSeq_unused, fun c h0 => by rw [hidle h0]; rfl,
    fun s h0 => controllerMove_of_idle (hidle h0),
    fun s t h0 hstep hleft => submit_of_leaving_idle (hidle h0) hstep fun h => hleft (by rw [h]; rfl)⟩
  have hrow : encode row.2.1 = .micro (BitVec.ofNat 5 row.1) ∧ row.2.2.1 = transactionKind row.2.1 ∧
      row.2.2.2 = (successors row.2.1).map BitVec.toNat := by
    revert row
    decide
  obtain ⟨hcode, hkind, hsucc⟩ := hrow
  refine ⟨hcode, fun s t hexec => ?_⟩
  rw [hkind, hsucc]
  constructor
  · rw [(exec_par_blk hexec).2]
    exact List.mem_map_of_mem (blkAfter_seq_mem_successors hcode)
  · exact exec_traceGrowsBy hexec

end Sys2Proof.Machine

/-! PROOFS. What the table and the buffers hold until the device is enabled: what it rests on, what the instructions that touch it do to it,
and that every step keeps it (40_construction R118; 41_binding R126, R128). -/

namespace Sys2Proof.Safety

open Sys2Proof.Machine

/-! ### Table contents from what memory reads as -/

/-- Every byte of the table of `s` reads in `t` as in `s`. -/
def TableReads (s t : State) : Prop :=
  ∀ x, x < tableBytes s.blk.size s.par.slotSize → t.env.mem.read (s.blk.tblBase.toNat + x) = s.env.mem.read (s.blk.tblBase.toNat + x)

/-- A byte of a slot lies inside the table. -/
theorem slot_byte_lt {s : State} {i o : Nat} (hi : i < s.blk.size.toNat) (ho : o < s.par.slotSize) :
    i * s.par.slotSize + o < tableBytes s.blk.size s.par.slotSize :=
  slot_inside (m := 1) hi ho

theorem slotAddr_add (s : State) (i k : Nat) :
    slotAddr s i + k = s.blk.tblBase.toNat + (i * s.par.slotSize + (s.par.addrOff + k)) := by
  simp only [slotAddr, slotAddrOf]
  omega

theorem slotAddr_of_sameRing {s t : State} (hring : SameRing s t) (i : Nat) : slotAddr t i = slotAddr s i := by
  obtain ⟨hpar, hbase, -⟩ := hring
  unfold slotAddr
  rw [hpar, hbase]

theorem FieldReads.of_tableReads {s t : State} {i : Nat} {v : BitVec 64} (h : FieldReads s i v) (hring : SameRing s t)
    (hread : TableReads s t) (hi : i < s.blk.size.toNat) : FieldReads t i v := by
  intro k hk
  have hfield := s.par.addrOff_le
  have hsame := hread _ (slot_byte_lt hi (show s.par.addrOff + k < s.par.slotSize by omega))
  rw [← slotAddr_add] at hsame
  rw [slotAddr_of_sameRing hring, hsame]
  exact h k hk

/-- The contents stay while the table reads as before, the entries of the stamped slots stay and the buffers are zero pages. -/
theorem TableHolds.of_reads {s t : State} (h : TableHolds s) (hring : SameRing s t) (hread : TableReads s t)
    (hcount : stampedCount t = stampedCount s) (hbuf : ∀ i, i < stampedCount s → bufGet t i = bufGet s i)
    (hpages : ∀ i a o, bufGet t i = some a → o < Config.pageSize → t.env.mem.read (a.toNat + o) = some 0#8) : TableHolds t := by
  have ⟨hpar, hbase, hsize⟩ := hring
  refine ⟨fun i hi hlt => ?_, fun i hi hlt => ?_, fun i o hlt ho hout => ?_, hpages⟩
  · rw [hcount] at hi
    rw [hsize] at hlt
    obtain ⟨a, ha, hreads⟩ := h.stamped i hi hlt
    exact ⟨a, (hbuf i hi).trans ha, hreads.of_tableReads hring hread hlt⟩
  · rw [hcount] at hi
    rw [hsize] at hlt
    exact (h.clear i hi hlt).of_tableReads hring hread hlt
  · rw [hsize] at hlt
    rw [hpar] at ho hout ⊢
    rw [hbase, Nat.add_assoc, hread _ (slot_byte_lt hlt ho), ← Nat.add_assoc]
    exact h.rest i o hlt ho hout

/-- A table that reads 0 throughout, with no slot stamped and no buffer, holds what it should. -/
theorem tableHolds_of_zero {t : State} (hcount : stampedCount t = 0) (hbuf : HoldsExactly t 0)
    (hzero : ∀ x, x < tableBytes t.blk.size t.par.slotSize → t.env.mem.read (t.blk.tblBase.toNat + x) = some 0#8) :
    TableHolds t := by
  have hfield := t.par.addrOff_le
  refine ⟨fun i hi => ?_, fun i _ hlt k hk => ?_, fun i o hlt ho _ => ?_, fun i a o ha => ?_⟩
  · omega
  · rw [slotAddr_add, hzero _ (slot_byte_lt hlt (by omega)), byteOf_zero]
  · rw [Nat.add_assoc, hzero _ (slot_byte_lt hlt ho)]
  · rw [hbuf.get_zero] at ha
    cases ha

/-- A store of `v` into the address field of slot `n` keeps the contents if `v` is right for that slot afterwards and the other slots count
as before. -/
theorem TableHolds.of_write_slot {s t : State} {n : Nat} {v : BitVec 64} (h : TableHolds s) (hc : s.env.mem.wf) (hT : TableOwned s)
    (ho : Owned s) (hn : n < s.blk.size.toNat) (hm : t.env.mem = s.env.mem.write64 (slotAddr s n) v) (hring : SameRing s t)
    (hbuf : t.blk.buf = s.blk.buf) (hstamp : n < stampedCount t → bufGet s n = some v) (hclear : stampedCount t ≤ n → v = 0#64)
    (hcount : ∀ i, i ≠ n → (i < stampedCount t ↔ i < stampedCount s)) : TableHolds t := by
  obtain ⟨hpar, hbase, hsize⟩ := hring
  obtain ⟨hfield, hothers, hrest, hpages⟩ := write_slot hc hT ho hn hm hpar hbase
  have hget : ∀ i, bufGet t i = bufGet s i := fun i => by unfold bufGet; rw [hbuf]
  refine ⟨fun i hi hlt => ?_, fun i hi hlt => ?_, fun i o hlt ho hout => ?_, fun i a o ha ho => ?_⟩
  · rw [hget]
    by_cases hin : i = n
    · subst hin
      exact ⟨v, hstamp hi, hfield⟩
    · obtain ⟨a, ha, hreads⟩ := h.stamped i ((hcount i hin).mp hi) (hsize ▸ hlt)
      exact ⟨a, ha, (hothers i a hin).mpr hreads⟩
  · by_cases hin : i = n
    · subst hin
      exact hclear hi ▸ hfield
    · have hle : stampedCount s ≤ i := Nat.le_of_not_lt fun hlt' => absurd ((hcount i hin).mpr hlt') (by omega)
      exact (hothers i _ hin).mpr (h.clear i hle (hsize ▸ hlt))
  · rw [hsize] at hlt
    rw [hpar] at ho hout ⊢
    rw [hbase, hrest i o ho hout]
    exact h.rest i o hlt ho hout
  · rw [hget] at ha
    rw [hpages i a o ha ho]
    exact h.pages i a o ha ho

/-! ### How many slots are stamped -/

/-- Between the stamp and its report one slot more than IDX is stamped. -/
theorem stampedCount_of_bEmit {s : State} (h : s.blk.seq = seqBEmit) : stampedCount s = s.blk.idx.toNat + 1 := if_pos h

theorem stampedCount_of_ne {s : State} (h : s.blk.seq ≠ seqBEmit) : stampedCount s = s.blk.idx.toNat := if_neg h

/-- At the code of any micro-operation but B_EMIT, IDX slots are stamped. -/
theorem stampedCount_of_decodeSeq {s : State} {i : Instr} (hi : decodeSeq s.blk.seq = .ok i) (hne : i ≠ .bEmit) :
    stampedCount s = s.blk.idx.toNat := by
  refine stampedCount_of_ne fun hseq => hne ?_
  rw [hseq] at hi
  exact (Except.ok.inj hi).symm

/-- Only B_STAMP leads to B_EMIT, so after any other micro-operation IDX slots are stamped. -/
theorem stampedCount_after {s t : State} {i : Instr} (hi : decodeSeq s.blk.seq = .ok i) (hne : i ≠ .bStamp)
    (hblk : t.blk = blkAfter s i) : stampedCount t = t.blk.idx.toNat := by
  refine stampedCount_of_ne fun hseq => ?_
  have hmem := blkAfter_seq_mem_successors (s := s) (seq_of_decodeSeq hi)
  rw [← hblk, hseq] at hmem
  cases i with
  | bStamp => exact hne rfl
  | _ => simp [successors] at hmem

/-- A micro-operation that neither stamps, reports nor steps back leaves the count of stamped slots. -/
theorem stampedCount_kept {s t : State} {i : Instr} (hi : decodeSeq s.blk.seq = .ok i) (hexec : exec i s = .next t)
    (hne : i ∉ [.bStamp, .bEmit, .uClear]) : stampedCount t = stampedCount s := by
  simp only [List.mem_cons, List.not_mem_nil, or_false, not_or] at hne
  obtain ⟨hstamp, hemit, hclear⟩ := hne
  have hinit : i ≠ .init := by
    rintro rfl
    cases seq_of_decodeSeq hi
  obtain ⟨-, -, -, -, hidx, -⟩ := registersKeepTheirValue i s t hexec
  obtain ⟨-, hblk⟩ := exec_par_blk hexec
  rw [stampedCount_after hi hstamp hblk, stampedCount_of_decodeSeq hi hemit, hidx (by simp [hinit, hemit, hclear])]

/-! ### The instructions that touch the table or the buffers -/

/-- A new table reads 0 (40_construction R118). -/
theorem stamped_after_nAlloc {s t : State} (hcanon : Canonical s) (hi : decodeSeq s.blk.seq = .ok .nAlloc) (hp : Phase s)
    (hmeets : AllocatorMeets s) (hexec : exec .nAlloc s = .next t) : Stamped t := by
  intro hne _
  obtain ⟨-, hfsm, ⟨-, -, -, hidx, -, hbuf⟩, -⟩ := (phase_iff hi).mp hp
  obtain ⟨hpar, hblk⟩ := exec_par_blk hexec
  obtain ⟨hmem, -⟩ := exec_applies hexec
  have hcount : stampedCount t = 0 := by
    rw [stampedCount_kept hi hexec (by simp), stampedCount_of_decodeSeq hi (by simp), hidx]
    rfl
  cases ha : allocAnswer s with
  | none =>
    simp only [blkAfter, ha] at hblk
    exact absurd (by simp [hblk, hfsm]) hne
  | some a =>
    obtain ⟨-, hfits, -, -⟩ := (hmeets a ha).1 (Encoded.micro.inj (seq_of_decodeSeq hi)).symm
    simp only [blkAfter, ha] at hblk
    simp only [transactionOf, ha, memAfter] at hmem
    refine tableHolds_of_zero hcount (hbuf.congr (by rw [hblk]) rfl) fun x hx => ?_
    simp only [hblk, hpar] at hx
    rw [hmem, hblk, read_granted hcanon.1, if_pos (by simp only; omega)]

/-- A new page is zero-filled and apart from the table, and its entry is that of no stamped slot. -/
theorem tableHolds_after_bAlloc {s t : State} {a : Addr} (hcanon : Canonical s) (hT : TableOwned s) (h : TableHolds s)
    (hi : decodeSeq s.blk.seq = .ok .bAlloc) (ha : allocAnswer s = some a)
    (hmeets : AnswerMeets Config.pageSize Config.bufAlign s.env.live a) (hexec : exec .bAlloc s = .next t) : TableHolds t := by
  obtain ⟨-, hfits, -, hapart⟩ := hmeets
  obtain ⟨-, -, -, hlive⟩ := hT
  have htable : Apart a.toNat Config.pageSize s.blk.tblBase.toNat (tableBytes s.blk.size s.par.slotSize) := hapart _ hlive
  have hread : ∀ x, t.env.mem.read x =
      if a.toNat ≤ x ∧ x < a.toNat + Config.pageSize ∧ x < Config.busTop then some 0#8 else s.env.mem.read x := fun x => by
    rw [exec_bAlloc_mem ha hexec, read_granted hcanon.1]
  have hget : ∀ j, bufGet t j = if j = s.blk.idx.toNat then some a else bufGet s j := fun j => by
    obtain ⟨-, hblk⟩ := exec_par_blk hexec
    simp only [blkAfter, ha] at hblk
    simp only [bufGet, hblk, sparseGet_set]
  have hcount := stampedCount_of_decodeSeq hi (by simp)
  refine h.of_reads (exec_sameRing hexec (by simp)) (fun x hx => ?_) (stampedCount_kept hi hexec (by simp)) (fun i hlt => ?_)
    fun i b o hb ho => ?_
  · unfold Apart at htable
    rw [hread, if_neg (by omega)]
  · rw [hget, if_neg (by omega)]
  · rw [hread]
    rw [hget] at hb
    split at hb
    · cases hb
      rw [if_pos (by omega)]
    · rw [h.pages i b o hb ho, ite_self]

/-- The stamp puts the buffer's address into the slot that counts as stamped from then on (41_binding R123). -/
theorem tableHolds_after_bStamp {s t : State} (hcanon : Canonical s) (hT : TableOwned s) (ho : Owned s) (h : TableHolds s)
    (hi : decodeSeq s.blk.seq = .ok .bStamp) (hp : Phase s) (hexec : exec .bStamp s = .next t) : TableHolds t := by
  obtain ⟨-, hlt, -⟩ := (phase_iff hi).mp hp
  obtain ⟨a, ha, -, ht⟩ := exec_bStamp_inv hexec
  have hs : stampedCount s = s.blk.idx.toNat := stampedCount_of_decodeSeq hi (by simp)
  have hcount : stampedCount t = s.blk.idx.toNat + 1 := ht ▸ stampedCount_of_bEmit rfl
  subst ht
  exact h.of_write_slot hcanon.1 hT ho hlt rfl ⟨rfl, rfl, rfl⟩ rfl (fun _ => ha) (fun hle => by omega) fun i hin => by omega

/-- The step back clears the field of the slot that does not count as stamped from then on (41_binding R128). -/
theorem tableHolds_after_uClear {s t : State} (hcanon : Canonical s) (hT : TableOwned s) (ho : Owned s) (h : TableHolds s)
    (hi : decodeSeq s.blk.seq = .ok .uClear) (hp : Phase s) (hexec : exec .uClear s = .next t) : TableHolds t := by
  obtain ⟨-, hpos, hlt, -⟩ := (phase_iff hi).mp hp
  obtain ⟨-, ht⟩ := exec_uClear_inv hexec
  have hback : (stepBack s).toNat = s.blk.idx.toNat - 1 := stepBack_toNat hpos
  have hs : stampedCount s = s.blk.idx.toNat := stampedCount_of_decodeSeq hi (by simp)
  have hcount : stampedCount t = (stepBack s).toNat := ht ▸ stampedCount_of_ne (by simp)
  subst ht
  exact h.of_write_slot hcanon.1 hT ho (by omega) rfl ⟨rfl, rfl, rfl⟩ rfl (fun hlt' => by omega) (fun _ => rfl)
    fun i hin => by omega

/-- The entry that is emptied is that of no stamped slot. -/
theorem tableHolds_after_uFree {s t : State} (h : TableHolds s) (hi : decodeSeq s.blk.seq = .ok .uFree)
    (hexec : exec .uFree s = .next t) : TableHolds t := by
  have hring := exec_sameRing hexec (by simp)
  have hcount := stampedCount_kept hi hexec (by simp)
  have hs := stampedCount_of_decodeSeq hi (by simp)
  obtain ⟨a, -, rfl⟩ := exec_uFree_inv hexec
  refine h.of_reads hring (fun _ _ => rfl) hcount (fun i hlt => ?_) fun i b o hb ho => ?_
  · simp only [bufGet, sparseGet_erase]
    rw [if_neg (by omega)]
  · simp only [bufGet, sparseGet_erase] at hb
    split at hb
    · cases hb
    · exact h.pages i b o hb ho

/-! ### Every instruction and every step -/

/-- Only the allocations and the two 8-byte stores change bus memory. -/
theorem memAfter_transactionOf {s : State} {i : Instr} (m : Memory) (hi : i ∉ [.nAlloc, .bAlloc, .bStamp, .uClear]) :
    memAfter m (transactionOf s i) = m := by
  cases i with
  | nAlloc | bAlloc | bStamp | uClear => simp at hi
  | uFree => simp only [transactionOf]; cases bufGet s s.blk.idx.toNat <;> rfl
  | _ => rfl

/-- An instruction that leaves memory, BUF and the count of stamped slots keeps the contents. -/
theorem tableHolds_of_exec_kept {i : Instr} {s t : State} (hexec : exec i s = .next t) (h : TableHolds s)
    (hi : i ∉ [.nAlloc, .bAlloc, .bStamp, .uClear, .uFree]) (hcount : stampedCount t = stampedCount s) : TableHolds t := by
  simp only [List.mem_cons, List.not_mem_nil, or_false, not_or] at hi
  obtain ⟨hnAlloc, hbAlloc, hbStamp, huClear, huFree⟩ := hi
  obtain ⟨hpar, hbase, hsize⟩ := exec_sameRing hexec hnAlloc
  obtain ⟨-, -, -, -, -, hbuf, -⟩ := registersKeepTheirValue i s t hexec
  obtain ⟨hmem, -⟩ := exec_applies hexec
  rw [memAfter_transactionOf _ (by simp [hnAlloc, hbAlloc, hbStamp, huClear])] at hmem
  exact h.congr hpar hbase hsize (hbuf (by simp [hbAlloc, huFree])) hmem hcount

/-- Every micro-operation of a ring that exists keeps what its table and its buffers hold. -/
theorem tableHolds_after_micro {i : Instr} {s t : State} (hi : decodeSeq s.blk.seq = .ok i) (hne : s.blk.fsm ≠ .empty)
    (hcanon : Canonical s) (hp : Phase s) (ho : Owned s) (hmeets : AllocatorMeets s) (h : TableHolds s)
    (hexec : exec i s = .next t) : TableHolds t := by
  have hphase := (phase_iff hi).mp hp
  have hT := ho.table hne
  cases i with
  | new role size | init => exact hphase.elim
  | nAlloc =>
    obtain ⟨-, hfsm, -⟩ := hphase
    exact absurd hfsm hne
  | bAlloc =>
    cases ha : allocAnswer s with
    | some a =>
      have hanswer := (hmeets a ha).2 (Encoded.micro.inj (seq_of_decodeSeq hi)).symm
      exact tableHolds_after_bAlloc hcanon hT h hi ha hanswer hexec
    | none =>
      have hcount := stampedCount_kept hi hexec (by simp)
      cases (exec_bAlloc_none ha).symm.trans hexec
      exact h.congr rfl rfl rfl rfl rfl hcount
  | bStamp => exact tableHolds_after_bStamp hcanon hT ho h hi hp hexec
  | uClear => exact tableHolds_after_uClear hcanon hT ho h hi hp hexec
  | uFree => exact tableHolds_after_uFree h hi hexec
  | bEmit =>
    obtain ⟨-, hlt, -⟩ := hphase
    obtain ⟨-, hblk⟩ := exec_par_blk hexec
    have hsize := s.blk.size.isLt
    have hidx : t.blk.idx.toNat = s.blk.idx.toNat + 1 := hblk ▸ countUp_toNat (by omega) _
    have hs := stampedCount_of_bEmit (s := s) (Encoded.micro.inj (seq_of_decodeSeq hi)).symm
    exact tableHolds_of_exec_kept hexec h (by simp) (by rw [stampedCount_after hi (by simp) hblk, hidx, hs])
  | _ => exact tableHolds_of_exec_kept hexec h (by simp) (stampedCount_kept hi hexec (by simp))

/-- In the lifecycle only N_ALLOC runs without a ring. -/
theorem fsm_ne_empty_of_phaseAt {s : State} {i : Instr} (h : PhaseAt s i) (hi : i ≠ .nAlloc) : s.blk.fsm ≠ .empty := by
  cases i with
  | new role size | init => exact h.elim
  | nAlloc => exact absurd rfl hi
  | bAlloc | bStamp | bEmit | uClear | uFree | uDone =>
    obtain ⟨⟨-, hfsm, -⟩, -⟩ := h
    simp [hfsm]
  | _ =>
    obtain ⟨-, hfsm, -⟩ := h
    simp [hfsm]

theorem stamped_after_micro {i : Instr} {s t : State} (hi : decodeSeq s.blk.seq = .ok i) (hcanon : Canonical s) (hp : Phase s)
    (ho : Owned s) (hst : Stamped s) (hmeets : AllocatorMeets s) (hexec : exec i s = .next t) : Stamped t := by
  by_cases hn : i = .nAlloc
  · subst hn
    exact stamped_after_nAlloc hcanon hi hp hmeets hexec
  · intro _ hdisabled
    have hring : s.blk.fsm ≠ .empty := fsm_ne_empty_of_phaseAt ((phase_iff hi).mp hp) hn
    obtain ⟨hpar, -⟩ := exec_par_blk hexec
    obtain ⟨htrace, -⟩ := exec_records hexec
    exact tableHolds_after_micro hi hring hcanon hp ho hmeets (hst hring (deviceEnabled_mono hpar htrace hdisabled)) hexec

/-- What keeps the ring, memory, the enable command and the count of stamped slots keeps the contents. -/
theorem Stamped.congr {s t : State} (h : Stamped s) (hring : SameRing s t) (hfsm : t.blk.fsm = s.blk.fsm)
    (hbuf : t.blk.buf = s.blk.buf) (hmem : deviceEnabled s = false → t.env.mem = s.env.mem) (htrace : t.env.trace = s.env.trace)
    (hcount : s.blk.fsm ≠ .empty → stampedCount t = stampedCount s) : Stamped t := by
  obtain ⟨hpar, hbase, hsize⟩ := hring
  intro hne hdisabled
  rw [hfsm] at hne
  have hdisabled' : deviceEnabled s = false := deviceEnabled_mono (l := []) hpar (by simp [htrace]) hdisabled
  exact (h hne hdisabled').congr hpar hbase hsize hbuf (hmem hdisabled') (hcount hne)

theorem Stamped.withMoves {s : State} (h : Stamped s) (ms : List Move) : Stamped (withMoves ms s) :=
  h.congr ⟨rfl, rfl, rfl⟩ rfl rfl (fun _ => rfl) rfl fun _ => rfl

theorem Stamped.refuse {s : State} (h : Stamped s) : Stamped (refuse s) :=
  h.congr ⟨rfl, rfl, rfl⟩ rfl rfl (fun _ => rfl) rfl fun _ => rfl

/-- The device does not write before it is enabled. -/
theorem Stamped.dmaMove {s : State} (h : Stamped s) (a : Addr) (b : Byte) : Stamped (dmaMove a b s) := by
  rw [dmaMove_eq]
  exact h.congr ⟨rfl, rfl, rfl⟩ rfl rfl (fun hdisabled => by simp [hdisabled]) rfl fun _ => rfl

/-- A command finds the ring at rest, so INIT finds IDX 0 where it puts 0, and NEW finds no ring. -/
theorem stamped_after_command {w : CmdWord} {i : Instr} {s t : State} (hw : decodeCommand w = .ok i) (hp : Phase s)
    (hst : Stamped s) (hexec : exec i s = .next t) : Stamped t := by
  obtain rfl | rfl := decodeCommand_cases hw
  · obtain ⟨-, rfl⟩ := exec_new_inv hexec
    split
    case isTrue hacc => exact fun hne => absurd hacc.1 hne
    case isFalse => exact hst.refuse
  · obtain ⟨hready, ⟨hacc, rfl⟩ | ⟨-, rfl⟩⟩ := exec_init_inv hexec
    · obtain ⟨hidle, hrest⟩ := phase_resting hp hready
      obtain ⟨-, -, -, hidx, -⟩ := (resting_iff hacc).mp hrest
      refine hst.congr ⟨rfl, rfl, rfl⟩ rfl rfl (fun _ => rfl) rfl fun _ => ?_
      rw [stampedCount_of_ne (s := s) (by simp [hidle]), hidx]
      rfl
    · exact hst.refuse

/-- Settles O51: the micro-operations keep the contents, a command touches neither the table nor the buffers, reset gives the ring up, and
the device does not write before it is enabled. -/
theorem stepKeepsTableContents : Obligations.StepKeepsTableContents := by
  unfold Obligations.StepKeepsTableContents
  intro s t hcanon hp ho hst hmeets hstep
  obtain ⟨ms, ⟨i, hi, hexec, -⟩ | ⟨-, rfl, -⟩ | ⟨-, -, w, -, ⟨i, hw, hexec⟩ | ⟨-, rfl⟩⟩ | ⟨-, rfl⟩ | ⟨-, a, b, -, rfl⟩⟩ :=
    step_cases hstep
  · exact stamped_after_micro (s := withMoves ms s) hi hcanon (hp.congr rfl rfl) (ho.withMoves ms)
      (hst.withMoves ms) hmeets hexec
  · exact hst.withMoves ms
  · exact stamped_after_command (s := withMoves ms s) hw (hp.congr rfl rfl) (hst.withMoves ms) hexec
  · exact (hst.withMoves ms).refuse
  · exact fun hne => absurd rfl hne
  · exact (hst.withMoves ms).dmaMove a b

end Sys2Proof.Safety

/-! PROOFS. Construction: the allocation of the table, and that a ring once constructed is not resized (40_construction R117, R119). -/

namespace Sys2Proof.Machine

/-- The size field, as the number that SIZE gets. -/
theorem cmdSize_eq_ofNat (w : CmdWord) : cmdSize w = BitVec.ofNat 32 (w.toNat / 2 ^ 32) := by
  rw [← cmdSize_toNat, BitVec.ofNat_toNat, BitVec.setWidth_eq]

/-- The role field, as bit 8 of the word's number (10_state R44). -/
theorem roleOfCode_cmdRole (w : CmdWord) :
    roleOfCode (cmdRole w) = if w.toNat / 2 ^ 8 % 2 = 1 then .transmit else .receive := by
  have hbit : cmdRole w = 1#1 ↔ w.toNat / 2 ^ 8 % 2 = 1 := by rw [bv_eq_ofNat (by decide), cmdRole_toNat]
  simp only [roleOfCode, hbit]

/-- Settles O12: the two equations of N_ALLOC, with the fields of CMDREG as arithmetic on its number. -/
theorem tableIsAllocated : Obligations.TableIsAllocated := by
  unfold Obligations.TableIsAllocated
  intro s
  simp only [← cmdSize_eq_ofNat, ← roleOfCode_cmdRole, ← tableBytes_cmdSize]
  refine ⟨rfl, fun a ha => ⟨_, exec_nAlloc_some ha, rfl, fun hcanon hfits x => ?_⟩, fun hnone => exec_nAlloc_none hnone⟩
  rw [read_granted hcanon.1]
  exact if_congr (by simp only [Config.busTop]; omega) rfl rfl

end Sys2Proof.Machine

namespace Sys2Proof.Safety

open Sys2Proof.Machine

/-- Only N_ALLOC writes SIZE, TBL_BASE and ROLE, and it does not run while there is a ring. -/
theorem step_keeps_ring {s t : State} (hp : Phase s) (hne : s.blk.fsm ≠ .empty) (hreset : resetNext s = false)
    (hstep : step s = .next t) :
    t.blk.role = s.blk.role ∧ t.blk.size = s.blk.size ∧ t.blk.tblBase = s.blk.tblBase := by
  obtain ⟨ms, ⟨i, hi, hexec, -⟩ | ⟨-, rfl, -⟩ | ⟨-, -, w, -, ⟨i, hw, hexec⟩ | ⟨-, rfl⟩⟩ | ⟨hm, -⟩ | ⟨-, a, b, -, rfl⟩⟩ :=
    step_cases hstep
  · obtain ⟨-, -, hring, -⟩ := registersKeepTheirValue _ _ t hexec
    refine hring ?_
    rintro rfl
    obtain ⟨-, hfsm, -⟩ := (phase_iff hi).mp hp
    exact hne hfsm
  · exact ⟨rfl, rfl, rfl⟩
  · obtain ⟨-, -, hring, -⟩ := registersKeepTheirValue _ _ t hexec
    exact hring (by obtain rfl | rfl := decodeCommand_cases hw <;> simp)
  · exact ⟨rfl, rfl, rfl⟩
  · simp [resetNext, hm] at hreset
  · simp

/-- Settles O57: `step_keeps_ring` for the registers, and by the transitions of FSM only a reset leads back to EMPTY. -/
theorem ringIsNeverResized : Obligations.RingIsNeverResized := by
  unfold Obligations.RingIsNeverResized
  intro s t hp hne hreset hstep
  obtain ⟨hrole, hsize, hbase⟩ := step_keeps_ring hp hne hreset hstep
  refine ⟨hsize, hbase, hrole, ?_⟩
  obtain h | ⟨-, h, -⟩ | ⟨-, h, -⟩ | ⟨-, h, -⟩ | ⟨-, h⟩ := fsmTransitionsAreFour s t hp hstep
  · rwa [h]
  · simp [h]
  · simp [h]
  · simp [h]
  · simp [hreset] at h

end Sys2Proof.Safety

/-! PROOFS. Binding, instruction by instruction: the whole next state of each micro-operation of the loop and of the unwind, in the numbers of
the rules, and the counters that have no stated next value (41_binding R122 to R130; log entry 7). -/

namespace Sys2Proof.Machine

/-! ### What the meanings rest on -/

/-- The test of IDX for 0, in arithmetic. -/
theorem idx_eq_zero_iff (s : State) : s.blk.idx = 0#32 ↔ s.blk.idx.toNat = 0 := bv_eq_ofNat (by decide)

/-- An 8-byte store puts the bytes of the value, lowest first, at its address, and keeps every other byte (20_memory R71). -/
theorem stores_write64 {m : Memory} (hm : m.wf) {d : Nat} (hd : addrFits d) (v : BitVec 64) :
    (∀ k, k < 8 → (m.write64 d v).read (d + k) = some (byteOf v k)) ∧
      ∀ x, ¬ (d ≤ x ∧ x < d + 8) → (m.write64 d v).read x = m.read x := by
  refine ⟨fun k hk => ?_, fun x hx => ?_⟩
  · rw [Memory.read_write64 hm hd, if_pos (by omega), Nat.add_sub_cancel_left]
  · rw [Memory.read_write64 hm hd, if_neg hx]

/-- A store of 0 clears the 8 bytes (41_binding R128). -/
theorem clears_write64 {m : Memory} (hm : m.wf) {d : Nat} (hd : addrFits d) :
    (∀ k, k < 8 → (m.write64 d 0#64).read (d + k) = some 0#8) ∧
      ∀ x, ¬ (d ≤ x ∧ x < d + 8) → (m.write64 d 0#64).read x = m.read x := by
  simpa only [byteOf_zero] using stores_write64 hm hd 0#64

/-! ### The loop -/

/-- Settles O13: the two equations of B_ALLOC, read entry by entry and byte by byte. -/
theorem bufferIsAllocated : Obligations.BufferIsAllocated := by
  unfold Obligations.BufferIsAllocated
  intro s
  simp only [← idx_eq_zero_iff]
  refine ⟨rfl, fun a ha => ⟨_, exec_bAlloc_some ha, by simp only [Config.pageSize, Config.bufAlign], fun j => sparseGet_set ..,
    fun hcanon hfits x => ?_⟩, fun hnone => exec_bAlloc_none hnone⟩
  rw [exec_bAlloc_mem ha (exec_bAlloc_some ha), read_granted hcanon.1]
  exact if_congr (by simp only [Config.pageSize, Config.busTop]; omega) rfl rfl

/-- Settles O14: the equation of B_STAMP, and the bytes of the store as arithmetic on the address. -/
theorem bufferAddressIsStamped : Obligations.BufferAddressIsStamped := by
  unfold Obligations.BufferAddressIsStamped
  intro s a ha d hd
  refine ⟨rfl, _, exec_bStamp_some ha hd, rfl, fun hcanon => ?_⟩
  simp only [← byteOf_eq]
  exact stores_write64 hcanon.1 hd a

/-- Settles O15: the equation of B_EMIT where the counter stays inside its 32 bits. -/
theorem slotIsReported : Obligations.SlotIsReported := by
  unfold Obligations.SlotIsReported
  intro s hidx
  refine ⟨rfl, ?_⟩
  rw [exec_bEmit_eq, countUp_eq hidx, drawUnless_pos hidx]

/-! ### The unwind -/

/-- Settles O16: the equation of U_CLEAR from index 1 up, whose store is of 0. -/
theorem addressFieldIsCleared : Obligations.AddressFieldIsCleared := by
  unfold Obligations.AddressFieldIsCleared
  intro s hidx d hd
  exact ⟨rfl, _, exec_uClear_some hidx hd, rfl, fun hcanon => clears_write64 hcanon.1 hd⟩

/-- Settles O17: the equation of U_FREE; the erased entry and the filtered live set, element by element. -/
theorem bufferIsReleased : Obligations.BufferIsReleased := by
  unfold Obligations.BufferIsReleased
  intro s a ha
  simp only [← idx_eq_zero_iff]
  refine ⟨rfl, _, exec_uFree_some ha, rfl, fun j => ?_, fun x => by simp⟩
  simp only [bufGet, sparseGet_erase]
  exact if_congr (by omega) rfl rfl

/-! ### Counters without a stated next value -/

/-- Settles O20: the equations of the three instructions, with the free value of the counter in place of the stated one. -/
theorem counterOutsideItsRangeIsFree : Obligations.CounterOutsideItsRangeIsFree := by
  unfold Obligations.CounterOutsideItsRangeIsFree
  intro s
  refine ⟨fun hidx => ?_, fun hidx => ?_, fun hatt => ?_⟩
  · have htop : ¬ s.blk.idx.toNat + 1 < 2 ^ 32 := by omega
    have hlast : ¬ s.blk.idx.toNat + 1 < s.blk.size.toNat := by omega
    rw [exec_bEmit_eq, countUp_top htop, drawUnless_neg htop, if_neg hlast, if_neg hlast]
  · intro d hd
    have hzero : ¬ 1 ≤ s.blk.idx.toNat := by omega
    have hback : stepBack s = Config.freeCount s.inp.drawn := countDown_zero hzero _
    have hfits : addrFits (slotAddr s (stepBack s).toNat) := hback ▸ hd
    have hexec := exec_uClear_fits hfits
    rw [drawUnless_neg hzero, hback] at hexec
    exact ⟨_, hexec, rfl, fun hcanon => clears_write64 hcanon.1 hd⟩
  · have htop : ¬ s.blk.att.toNat + 1 < 2 ^ 32 := by omega
    rw [exec_wPoll_eq, countUp_top htop, drawUnless_neg htop]
    simp only [acked_iff]

end Sys2Proof.Machine

namespace Sys2Proof.Safety

open Sys2Proof.Machine

/-- Settles O18: U_DONE is the error exit, and its phase says the rest. -/
theorem allocationFailureIsReported : Obligations.AllocationFailureIsReported := by
  unfold Obligations.AllocationFailureIsReported
  intro s
  refine ⟨rfl, rfl, fun hp hseq => ?_⟩
  obtain ⟨⟨-, hfsm, -⟩, hidx, hbuf⟩ := (phase_iff (i := .uDone) (by rw [hseq]; rfl)).mp hp
  exact ⟨(idx_eq_zero_iff s).mp hidx, hbuf.get_zero, hfsm⟩

end Sys2Proof.Safety

/-! PROOFS. What binding leaves: in a bound ring every slot holds the address of its own page, and no slot holds the address of a page that is
released (41_binding R126 to R128). -/

namespace Sys2Proof.Safety

open Sys2Proof.Machine

/-- In the lifecycle a BOUND ring is full, and no stamp waits for its report. -/
theorem full_of_bound {s : State} (h : Phase s) (hfsm : s.blk.fsm = .bound) : Full s ∧ stampedCount s = s.blk.idx.toNat := by
  cases hd : decodeSeq s.blk.seq with
  | ok i =>
    have hphase := (phase_iff hd).mp h
    cases i with
    | new role size | init => exact hphase.elim
    | nAlloc =>
      obtain ⟨-, hempty, -⟩ := hphase
      simp [hfsm] at hempty
    | bAlloc | bStamp | bEmit | uClear | uFree | uDone =>
      obtain ⟨⟨-, hconstructed, -⟩, -⟩ := hphase
      simp [hfsm] at hconstructed
    | _ =>
      obtain ⟨-, -, hfull, -⟩ := hphase
      exact ⟨hfull, stampedCount_of_decodeSeq hd (by simp)⟩
  | error r =>
    unfold Phase at h
    rw [hd] at h
    cases r with
    | idle =>
      obtain ⟨-, hfull, -⟩ := (resting_iff hfsm).mp h
      exact ⟨hfull, stampedCount_of_ne (by simp [seq_of_idle hd])⟩
    | _ => exact h.elim

/-- Two slots never hold the same buffer. -/
theorem Owned.buffer_ne {s : State} (h : Owned s) {i j : Nat} {a b : Addr} (ha : bufGet s i = some a) (hb : bufGet s j = some b)
    (hij : i ≠ j) : a ≠ b :=
  (h.distinct i j a b ha hb hij).base_ne (by decide) (by decide)

/-- Settles O54: a full ring counts every slot as stamped, and ownership says the rest of its page. -/
theorem boundRingIsStamped : Obligations.BoundRingIsStamped := by
  unfold Obligations.BoundRingIsStamped
  intro s hp ho hst hfsm hdisabled i hi
  obtain ⟨⟨-, hidx, -⟩, hcount⟩ := full_of_bound hp hfsm
  rw [hidx] at hcount
  have htable : TableHolds s := hst (by simp [hfsm]) hdisabled
  obtain ⟨a, ha, hreads⟩ := htable.stamped i (hcount ▸ hi) hi
  obtain ⟨halign, hne, -, hlive, -⟩ := ho.buffer i a ha
  exact ⟨a, ha, hne, halign, hlive, fun k hk => byteOf_eq a k ▸ hreads k hk, fun o => htable.pages i a o ha,
    fun j _ hji ha' => ho.buffer_ne ha' ha hji rfl⟩

/-- Settles O55: the slots below IDX hold other buffers' addresses, and the fields from IDX up are clear. -/
theorem releasedBufferIsNotStamped : Obligations.ReleasedBufferIsNotStamped := by
  unfold Obligations.ReleasedBufferIsNotStamped
  intro s a hp ho hst hdisabled hseq ha i hi hreads
  have hd : decodeSeq s.blk.seq = .ok .uFree := by rw [hseq]; rfl
  have hphase := (phase_iff hd).mp hp
  have htable : TableHolds s := hst (fsm_ne_empty_of_phaseAt hphase (by simp)) hdisabled
  have hcount : stampedCount s = s.blk.idx.toNat := stampedCount_of_decodeSeq hd (by simp)
  rcases Nat.lt_or_ge i s.blk.idx.toNat with hlt | hge
  · obtain ⟨b, hb, hreads'⟩ := htable.stamped i (hcount ▸ hlt) hi
    exact ho.buffer_ne ha hb hlt.ne' (hreads.unique hreads')
  · obtain ⟨-, hne, -⟩ := ho.buffer _ _ ha
    exact hne (hreads.unique (htable.clear i (hcount ▸ hge) hi))

end Sys2Proof.Safety

/-! PROOFS. The binding loop: the three steps of one slot as functions of the state, and what a run of them leaves when every page is granted
(41_binding R121, R125, R126). -/

namespace Sys2Proof.Safety

open Sys2Proof.Machine

/-! ### One slot -/

/-- The state after B_ALLOC, when it is answered with page `a` (41_binding R122). -/
def pageGranted (s : State) (a : Addr) : State :=
  { s with
    blk := { s.blk with buf := sparseSet s.blk.buf s.blk.idx.toNat a, seq := seqBStamp }
    env := { s.env with
      live := s.env.live ++ [⟨a, Config.pageSize, .both⟩]
      mem := s.env.mem.zeroFill a.toNat (min (a.toNat + Config.pageSize) Config.busTop)
      trace := s.env.trace ++ [.alloc Config.pageSize Config.bufAlign .both (some a)] }
    inp := (takeAllocAnswer s).inp }

/-- The state after B_STAMP of page `a` (41_binding R123). -/
def addressStamped (s : State) (a : Addr) : State := setSeq seqBEmit (memWrite (slotAddr s s.blk.idx.toNat) a s)

/-- The state after B_EMIT, of an index below SIZE (41_binding R124). -/
def slotReported (s : State) : State :=
  { s with
    blk := { s.blk with
      idx := BitVec.ofNat 32 (s.blk.idx.toNat + 1)
      fsm := if s.blk.idx.toNat + 1 < s.blk.size.toNat then s.blk.fsm else .bound
      seq :=
        if s.blk.idx.toNat + 1 < s.blk.size.toNat then seqBAlloc
        else if s.blk.role = .receive then seqPBal else seqTNop }
    env := { s.env with
      events := s.env.events ++ [.slotBound s.blk.idx s.blk.role]
      trace := s.env.trace ++ [.emit (.slotBound s.blk.idx s.blk.role)] } }

/-- The state after the three steps that bind slot IDX to page `a`. -/
def bindSlot (s : State) (a : Addr) : State := slotReported (addressStamped (pageGranted s a) a)

theorem slotAddr_pageGranted (s : State) (a : Addr) (i : Nat) : slotAddr (pageGranted s a) i = slotAddr s i := rfl

theorem bufGet_pageGranted (s : State) (a : Addr) (i : Nat) :
    bufGet (pageGranted s a) i = if i = s.blk.idx.toNat then some a else bufGet s i := sparseGet_set ..

/-- Undisturbed, a granted page is bound in three steps. -/
theorem run_bindSlot {s : State} {a : Addr} (hquiet : Undisturbed s) (hseq : s.blk.seq = seqBAlloc) (ha : allocAnswer s = some a)
    (hlt : s.blk.idx.toNat < s.blk.size.toNat) (hfits : addrFits (slotAddr s s.blk.idx.toNat)) :
    Host.Core.run core 3 s = .next (bindSlot s a) := by
  have hquiet₁ : Undisturbed (pageGranted s a) := (takeAllocAnswer_moves s).trans hquiet
  have hquiet₂ : Undisturbed (addressStamped (pageGranted s a) a) := hquiet₁
  have hin : s.blk.idx.toNat + 1 < 2 ^ 32 := lt_of_le_of_lt hlt s.blk.size.isLt
  have hgrant : step s = .next (pageGranted s a) := (step_undisturbed hquiet (by rw [hseq]; rfl)).trans (exec_bAlloc_some ha)
  have hstamp : step (pageGranted s a) = .next (addressStamped (pageGranted s a) a) :=
    (step_undisturbed (i := .bStamp) hquiet₁ rfl).trans
      (exec_bStamp_some ((bufGet_pageGranted s a _).trans (if_pos rfl)) (slotAddr_pageGranted s a _ ▸ hfits))
  have hreport : step (addressStamped (pageGranted s a) a) = .next (bindSlot s a) :=
    (step_undisturbed (i := .bEmit) hquiet₂ rfl).trans (slotIsReported (addressStamped (pageGranted s a) a) hin).2
  exact run_then_step (run_then_step (run_one hgrant) hstamp) hreport

/-! ### What the three steps change -/

theorem canonical_pageGranted {s : State} (hcanon : Canonical s) (a : Addr) : Canonical (pageGranted s a) := by
  obtain ⟨hmem, hbuf⟩ := hcanon
  simp only [Canonical, pageGranted]
  exact ⟨Memory.wf_zeroFill hmem (Nat.min_le_right _ _), sparseWf_set hbuf _ _⟩

theorem bindSlot_blk (s : State) (a : Addr) :
    (bindSlot s a).blk = { s.blk with
      idx := BitVec.ofNat 32 (s.blk.idx.toNat + 1)
      buf := sparseSet s.blk.buf s.blk.idx.toNat a
      fsm := if s.blk.idx.toNat + 1 < s.blk.size.toNat then s.blk.fsm else .bound
      seq :=
        if s.blk.idx.toNat + 1 < s.blk.size.toNat then seqBAlloc
        else if s.blk.role = .receive then seqPBal else seqTNop } := rfl

theorem bindSlot_mem (s : State) (a : Addr) :
    (bindSlot s a).env.mem = (pageGranted s a).env.mem.write64 (slotAddr s s.blk.idx.toNat) a := rfl

theorem bindSlot_live (s : State) (a : Addr) : (bindSlot s a).env.live = s.env.live ++ [⟨a, Config.pageSize, .both⟩] := rfl

theorem bindSlot_events (s : State) (a : Addr) :
    (bindSlot s a).env.events = s.env.events ++ [.slotBound s.blk.idx s.blk.role] := by
  simp [bindSlot, slotReported, addressStamped, pageGranted]

theorem bindSlot_trace (s : State) (a : Addr) :
    (bindSlot s a).env.trace = s.env.trace ++ [.alloc Config.pageSize Config.bufAlign .both (some a)] ++
      [.memWrite (slotAddr s s.blk.idx.toNat) a] ++ [.emit (.slotBound s.blk.idx s.blk.role)] := rfl

theorem bindSlot_inp (s : State) (a : Addr) : (bindSlot s a).inp = (takeAllocAnswer s).inp := by
  simp [bindSlot, slotReported, addressStamped, pageGranted]

theorem bufGet_bindSlot (s : State) (a : Addr) (i : Nat) :
    bufGet (bindSlot s a) i = if i = s.blk.idx.toNat then some a else bufGet s i := bufGet_pageGranted s a i

theorem canonical_bindSlot {s : State} (hcanon : Canonical s) (a : Addr) (hfits : addrFits (slotAddr s s.blk.idx.toNat)) :
    Canonical (bindSlot s a) := by
  obtain ⟨hmem, hbuf⟩ := canonical_pageGranted hcanon a
  refine ⟨?_, hbuf⟩
  rw [bindSlot_mem]
  exact Memory.wf_write64 hmem hfits _

section
variable {s : State} {a : Addr} (hmeets : AnswerMeets Config.pageSize Config.bufAlign s.env.live a)
include hmeets

/-- The granted page reads 0, and every other byte as before (20_memory R85 c). -/
theorem read_pageGranted (hcanon : Canonical s) (x : Nat) :
    (pageGranted s a).env.mem.read x = if a.toNat ≤ x ∧ x < a.toNat + Config.pageSize then some 0#8 else s.env.mem.read x := by
  obtain ⟨-, hfits, -⟩ := hmeets
  simp only [pageGranted, read_granted hcanon.1]
  exact if_congr (by omega) rfl rfl

variable (ho : Owned s) (hfsm : s.blk.fsm ≠ .empty)
include ho hfsm

theorem owned_pageGranted : Owned (pageGranted s a) := owned_after_bAlloc ho hfsm hmeets ⟨rfl, rfl, rfl⟩ rfl rfl

theorem owned_bindSlot : Owned (bindSlot s a) :=
  (owned_pageGranted hmeets ho hfsm).congr rfl rfl rfl rfl rfl fun _ => hfsm

/-- The granted page is apart from the table. -/
theorem tableReads_pageGranted (hcanon : Canonical s) : TableReads s (pageGranted s a) := by
  intro x hx
  obtain ⟨-, -, -, hlive⟩ := ho.table hfsm
  have ⟨_, _, _, hapart⟩ := hmeets
  have htable : Apart a.toNat Config.pageSize s.blk.tblBase.toNat (tableBytes s.blk.size s.par.slotSize) := hapart _ hlive
  unfold Apart at htable
  rw [read_pageGranted hmeets hcanon, if_neg (by omega)]

variable (hcanon : Canonical s) (hlt : s.blk.idx.toNat < s.blk.size.toNat)
include hcanon hlt

/-- What binding a slot does to memory: its field reads the address of the page and the other fields what they did; the page reads 0, and so
does another buffer if it did; every byte outside the field and the page reads as before. -/
theorem reads_bindSlot :
    FieldReads (bindSlot s a) s.blk.idx.toNat a ∧
      (∀ i w, i < s.blk.size.toNat → i ≠ s.blk.idx.toNat → FieldReads s i w → FieldReads (bindSlot s a) i w) ∧
      (∀ i b o, bufGet (bindSlot s a) i = some b → o < Config.pageSize →
        (i ≠ s.blk.idx.toNat → s.env.mem.read (b.toNat + o) = some 0#8) → (bindSlot s a).env.mem.read (b.toNat + o) = some 0#8) ∧
      (∀ x, ¬ (slotAddr s s.blk.idx.toNat ≤ x ∧ x < slotAddr s s.blk.idx.toNat + 8) →
        ¬ (a.toNat ≤ x ∧ x < a.toNat + Config.pageSize) → (bindSlot s a).env.mem.read x = s.env.mem.read x) := by
  have hfits := (ho.table hfsm).fits hlt
  have howned := owned_pageGranted hmeets ho hfsm
  have hwf := (canonical_pageGranted hcanon a).1
  have hread := read_pageGranted hmeets hcanon
  obtain ⟨hfield, hothers, -, hbuffers⟩ :=
    write_slot (t := bindSlot s a) (v := a) hwf (howned.table hfsm) howned (n := s.blk.idx.toNat) hlt rfl rfl rfl
  refine ⟨hfield, fun i w hi hne h => ?_, fun i b o hb ho' hzero => ?_, fun x hslot hpage => ?_⟩
  · exact (hothers i w hne).mpr (h.of_tableReads ⟨rfl, rfl, rfl⟩ (tableReads_pageGranted hmeets ho hfsm hcanon) hi)
  · rw [hbuffers i b o hb ho', hread]
    split
    · rfl
    · refine hzero fun hi => ?_
      have hab : b = a := by simpa [hi, bufGet_bindSlot, eq_comm] using hb
      subst hab
      omega
  · have hwrite := (stores_write64 hwf hfits a).2 x hslot
    exact hwrite.trans ((hread x).trans (if_neg hpage))

end

/-! ### A run of slots -/

/-- An undisturbed run of INIT before its first slot, in the lifecycle and with its table owned (41_binding R121). -/
def AtFirstSlot (s : State) : Prop :=
  Undisturbed s ∧ Canonical s ∧ Phase s ∧ Owned s ∧ s.blk.seq = seqBAlloc ∧ s.blk.idx = 0#32

theorem AtFirstSlot.phaseAt {s : State} (h : AtFirstSlot s) : PhaseAt s .bAlloc := by
  obtain ⟨-, -, hp, -, hseq, -⟩ := h
  exact (phase_iff (by rw [hseq]; rfl)).mp hp

/-- The pages meet 20_memory R85, each beside the allocations of `s` and the other pages. -/
def PagesMeet (s : State) (pages : List Addr) : Prop :=
  (∀ a ∈ pages, AnswerMeets Config.pageSize Config.bufAlign s.env.live a) ∧
    pages.Pairwise (fun a b => Apart a.toNat Config.pageSize b.toNat Config.pageSize)

/-- `t` is the state `s` before its first slot, after the slots from 0 up are bound to `pages` (41_binding R125, R126). -/
structure SlotsBound (s : State) (pages : List Addr) (t : State) : Prop where
  quiet : Undisturbed t
  canonical : Canonical t
  owned : Owned t
  par : t.par = s.par
  idx : t.blk.idx = BitVec.ofNat 32 pages.length
  fsm : t.blk.fsm = if pages.length < s.blk.size.toNat then s.blk.fsm else .bound
  seq : t.blk.seq =
    if pages.length < s.blk.size.toNat then seqBAlloc else if s.blk.role = .receive then seqPBal else seqTNop
  /-- The registers that binding does not touch. -/
  registers : { t.blk with idx := s.blk.idx, buf := s.blk.buf, fsm := s.blk.fsm, seq := s.blk.seq } = s.blk
  buf : ∀ i, bufGet t i = pages[i]?
  /-- The address fields of the bound slots. -/
  fields : ∀ (i : Nat) (a : Addr), pages[i]? = some a → FieldReads t i a
  /-- The pages read 0. -/
  zero : ∀ (i : Nat) (a : Addr) (o : Nat), pages[i]? = some a → o < Config.pageSize → t.env.mem.read (a.toNat + o) = some 0#8
  /-- Every byte outside these fields and pages. -/
  frame : ∀ x, (∀ i k, i < pages.length → k < 8 → x ≠ slotAddr s i + k) →
    (∀ a ∈ pages, ∀ o, o < Config.pageSize → x ≠ a.toNat + o) → t.env.mem.read x = s.env.mem.read x
  live : t.env.live = s.env.live ++ pages.map (fun a => ⟨a, Config.pageSize, .both⟩)
  events : t.env.events = s.env.events ++
    (List.range pages.length).map (fun i => .slotBound (BitVec.ofNat 32 i) s.blk.role)
  /-- Binding makes no access to a register of the device. -/
  noRegister : t.env.trace.filter isRegister = s.env.trace.filter isRegister

/-- With no page granted yet, nothing is bound. -/
theorem slotsBound_nil {s : State} (h : AtFirstSlot s) : SlotsBound s [] s := by
  obtain ⟨⟨-, -, ⟨hpos, -⟩, -⟩, -, hbuf⟩ := h.phaseAt
  obtain ⟨hquiet, hcanon, -, ho, hseq, hidx⟩ := h
  rw [hidx] at hbuf
  have hsize : ([] : List Addr).length < s.blk.size.toNat := hpos
  exact {
    quiet := hquiet, canonical := hcanon, owned := ho, par := rfl, idx := hidx
    fsm := (if_pos hsize).symm
    seq := (if_pos hsize).symm ▸ hseq
    registers := rfl
    buf := hbuf.get_zero
    fields := by simp
    zero := by simp
    frame := fun _ _ _ => rfl
    live := by simp
    events := by simp
    noRegister := rfl }

/-- The entries of a list that is one longer. -/
theorem getElem?_concat {pages : List Addr} {a : Addr} (i : Nat) :
    (pages ++ [a])[i]? = if i = pages.length then some a else pages[i]? := by
  grind

section
variable {s t : State} {pages : List Addr} (h : SlotsBound s pages t)
include h

theorem SlotsBound.sameRing : SameRing s t := ⟨h.par, by rw [← h.registers], by rw [← h.registers]⟩

theorem SlotsBound.blk_eq :
    t.blk = { s.blk with idx := t.blk.idx, buf := t.blk.buf, fsm := t.blk.fsm, seq := t.blk.seq } := by
  rw [← h.registers]

/-- A page that meets 20_memory R85 beside the allocations of `s` and the bound pages meets it beside those of `t`. -/
theorem SlotsBound.answerMeets {a : Addr} (hmeets : AnswerMeets Config.pageSize Config.bufAlign s.env.live a)
    (hapart : ∀ b ∈ pages, Apart b.toNat Config.pageSize a.toNat Config.pageSize) :
    AnswerMeets Config.pageSize Config.bufAlign t.env.live a := by
  obtain ⟨halign, hfits, hne, hlive⟩ := hmeets
  refine ⟨halign, hfits, hne, fun x hx => ?_⟩
  rw [h.live, List.mem_append, List.mem_map] at hx
  obtain hx | ⟨b, hb, rfl⟩ := hx
  · exact hlive x hx
  · exact (hapart b hb).symm

variable (hroom : pages.length < s.blk.size.toNat)
include hroom

/-- Below SIZE, IDX is the number of bound slots. -/
theorem SlotsBound.idx_toNat : t.blk.idx.toNat = pages.length := by
  rw [h.idx, BitVec.toNat_ofNat, Nat.mod_eq_of_lt (hroom.trans s.blk.size.isLt)]

theorem SlotsBound.idx_lt : t.blk.idx.toNat < t.blk.size.toNat := by
  obtain ⟨-, -, hsize⟩ := h.sameRing
  rwa [h.idx_toNat hroom, hsize]

theorem SlotsBound.fsm_kept : t.blk.fsm = s.blk.fsm := h.fsm.trans (if_pos hroom)

end

/-- The next page granted binds the next slot. -/
theorem SlotsBound.concat {s t : State} {pages : List Addr} {a : Addr} (h : SlotsBound s pages t) (hfsm : s.blk.fsm ≠ .empty)
    (hroom : pages.length < s.blk.size.toNat) (hmeets : AnswerMeets Config.pageSize Config.bufAlign t.env.live a) :
    SlotsBound s (pages ++ [a]) (bindSlot t a) := by
  obtain ⟨-, -, hsize⟩ := h.sameRing
  have hrole : t.blk.role = s.blk.role := by rw [← h.registers]
  have hidx := h.idx_toNat hroom
  have hfsm' := h.fsm_kept hroom
  have hne : t.blk.fsm ≠ .empty := hfsm' ▸ hfsm
  have hlt := h.idx_lt hroom
  obtain ⟨hfield, hothers, hzero, hframe⟩ := reads_bindSlot hmeets h.owned hne h.canonical hlt
  exact {
    quiet := (takeAllocAnswer_moves t).trans h.quiet
    canonical := canonical_bindSlot h.canonical a ((h.owned.table hne).fits hlt)
    owned := owned_bindSlot hmeets h.owned hne
    par := h.par
    idx := by simp [bindSlot_blk, hidx]
    fsm := by simp [bindSlot_blk, hidx, hsize, hfsm']
    seq := by simp [bindSlot_blk, hidx, hsize, hrole]
    registers := h.registers
    buf := fun i => by rw [bufGet_bindSlot, getElem?_concat, hidx, h.buf]
    fields := fun i b hb => by
      rw [getElem?_concat, ← hidx] at hb
      split at hb
      case isTrue hi =>
        cases hb
        exact hi ▸ hfield
      case isFalse hi =>
        have hlen : i < pages.length := (List.getElem?_eq_some_iff.mp hb).1
        exact hothers i b (by rw [hsize]; omega) hi (h.fields i b hb)
    zero := fun i b o hb ho => by
      refine hzero i b o ?_ ho fun hi => h.zero i b o ?_ ho
      · rw [bufGet_bindSlot, h.buf, hidx, ← getElem?_concat]
        exact hb
      · rw [getElem?_concat, if_neg (hidx ▸ hi)] at hb
        exact hb
    frame := fun x hfields hpages => by
      refine (hframe x (fun hx => ?_) fun hx => ?_).trans (h.frame x (fun i k hi => ?_) fun b hb => ?_)
      · rw [slotAddr_of_sameRing h.sameRing, hidx] at hx
        exact hfields pages.length (x - slotAddr s pages.length) (by simp) (by omega) (by omega)
      · exact hpages a (by simp) (x - a.toNat) (by omega) (by omega)
      · exact hfields i k (by simp; omega)
      · exact hpages b (by simp [hb])
    live := by simp [bindSlot_live, h.live]
    events := by simp [bindSlot_events, h.events, h.idx, hrole, List.range_succ]
    noRegister := by simp [bindSlot_trace, h.noRegister, isRegister, kindOf] }

/-- Undisturbed, with every page granted, three steps bind each slot, in index order. -/
theorem exists_slotsBound {s : State} {pages : List Addr} (h : AtFirstSlot s) (hroom : pages.length ≤ s.blk.size.toNat)
    (hpages : PagesMeet s pages) {more : List (Option Addr)} (hanswers : s.inp.allocAnswers = pages.map some ++ more) :
    ∃ t : State, Host.Core.run core (3 * pages.length) s = .next t ∧ t.inp.allocAnswers = more ∧ SlotsBound s pages t := by
  induction pages using List.reverseRecOn generalizing more with
  | nil => exact ⟨s, rfl, hanswers, slotsBound_nil h⟩
  | append_singleton pages a ih =>
    obtain ⟨hmeets, hapart⟩ := hpages
    obtain ⟨hapart, -, hlast⟩ := List.pairwise_append.mp hapart
    rw [List.length_append, List.length_singleton] at hroom ⊢
    have hroom : pages.length < s.blk.size.toNat := hroom
    have hfsm : s.blk.fsm ≠ .empty := fsm_ne_empty_of_phaseAt h.phaseAt (by simp)
    obtain ⟨t, hrun, hanswer, hbound⟩ := ih hroom.le ⟨fun b hb => hmeets b (by simp [hb]), hapart⟩
      (more := some a :: more) (by simp [hanswers])
    have hmeets' := hbound.answerMeets (hmeets a (by simp)) fun b hb => hlast b hb a (by simp)
    have hlt := hbound.idx_lt hroom
    have hfits := (hbound.owned.table (hbound.fsm_kept hroom ▸ hfsm)).fits hlt
    have hbind : Host.Core.run core 3 t = .next (bindSlot t a) :=
      run_bindSlot hbound.quiet (hbound.seq.trans (if_pos hroom)) (by simp [allocAnswer, hanswer]) hlt hfits
    refine ⟨bindSlot t a, run_then_run hrun hbind, ?_, hbound.concat hfsm hroom hmeets'⟩
    simp [bindSlot_inp, takeAllocAnswer, hanswer]

/-- Settles O36: `exists_slotsBound` for all SIZE pages. -/
theorem bindingBindsEverySlot : Obligations.BindingBindsEverySlot := by
  unfold Obligations.BindingBindsEverySlot
  intro s pages more hquiet hcanon hp ho hseq hidx hlen hanswers hmeets hapart
  obtain ⟨t, hrun, hmore, h⟩ := exists_slotsBound ⟨hquiet, hcanon, hp, ho, hseq, hidx⟩ hlen.le ⟨hmeets, hapart⟩ hanswers
  have hfull : ¬ pages.length < s.blk.size.toNat := by omega
  have hblk := h.blk_eq
  rw [h.idx, h.fsm, h.seq, if_neg hfull, if_neg hfull, hlen, BitVec.ofNat_toNat, BitVec.setWidth_eq] at hblk
  rw [hlen] at hrun
  refine ⟨t, hrun, hblk, h.buf, h.fields, hlen ▸ h.events, hmore, h.live, fun a ha o => ?_, fun x hfields => ?_⟩
  · obtain ⟨i, hi⟩ := List.mem_iff_getElem?.mp ha
    exact h.zero i a o hi
  · exact h.frame x fun i k hi => hfields i k (hlen ▸ hi)

end Sys2Proof.Safety

/-! PROOFS. Receive-path register programming: the words written as numbers, the six micro-operations, and what a run of them leaves
(42_rx_programming R132 to R138). -/

namespace Sys2Proof.Machine

open Safety

/-! ### The words written, as numbers (30_encoding R106 to R109) -/

theorem balValue_toNat (base : Addr) : (balValue base).toNat = base.toNat % 2 ^ 32 / 2 ^ 4 * 2 ^ 4 := by
  simp only [balValue, BitVec.toNat_and, BitVec.extractLsb'_toNat, Nat.shiftRight_zero]
  exact and_high_mask (Nat.mod_lt _ (by decide)) rfl (by decide)

theorem bahValue_toNat (base : Addr) : (bahValue base).toNat = base.toNat / 2 ^ 32 := by
  rw [bahValue, BitVec.extractLsb'_toNat, Nat.shiftRight_eq_div_pow]
  exact Nat.mod_eq_of_lt (Nat.div_lt_of_lt_mul base.isLt)

/-- The two halves of the table base join to the base with its low 4 bits cleared. -/
theorem bahValue_balValue_toNat (base : Addr) :
    (bahValue base).toNat * 2 ^ 32 + (balValue base).toNat = base.toNat / 2 ^ 4 * 2 ^ 4 := by
  rw [bahValue_toNat, balValue_toNat]
  omega

/-- The mask of the ring length lies below `2^32`, so it may as well be applied to the product modulo `2^32`. -/
theorem lenValue_toNat (size : Word32) (slotSize : Nat) :
    (lenValue size slotSize).toNat = size.toNat * slotSize % 2 ^ 32 / 2 ^ 5 * 2 ^ 5 := by
  rw [lenValue, BitVec.toNat_ofNat, Nat.and_mod_two_pow, Nat.mod_eq_of_lt Config.lenMask.isLt]
  exact and_high_mask (Nat.mod_lt _ (by decide)) rfl (by decide)

/-- The size class fills exactly the 7 bits that the mask clears, so the two parts add up. -/
theorem ctlValue_toNat (old : Word32) (bsizeClass : BitVec 7) :
    (ctlValue old bsizeClass).toNat = old.toNat / 2 ^ 7 * 2 ^ 7 + bsizeClass.toNat := by
  have hkeep : old.toNat &&& Config.ctlKeepMask.toNat = old.toNat / 2 ^ 7 * 2 ^ 7 :=
    and_high_mask old.isLt rfl (by decide)
  rw [ctlValue, BitVec.toNat_or, BitVec.toNat_and, hkeep, BitVec.toNat_setWidth_of_le (by decide), ← Nat.shiftLeft_eq,
    ← Nat.shiftLeft_add_eq_or_of_lt bsizeClass.isLt]

/-! ### The six micro-operations -/

/-- P_CTLR in every state. -/
theorem exec_pCtlr_eq (s : State) :
    exec .pCtlr s = .next { s with
      blk := { s.blk with ctltmp := readAnswer s, seq := seqPCtlw }
      env := { s.env with trace := s.env.trace ++ [.regRead s.par.offRxctl (readAnswer s)] }
      inp := (takeReadAnswer s).inp } := by
  simp only [exec, execPCtlr, regRead_eq, setSeq]

/-- Settles O23: the value is `balValue` of the table base. -/
theorem baseLowIsProgrammed : Obligations.BaseLowIsProgrammed := by
  unfold Obligations.BaseLowIsProgrammed
  exact fun s => ⟨rfl, balValue s.blk.tblBase, balValue_toNat _, rfl⟩

/-- Settles O24: the value is `bahValue` of the table base. -/
theorem baseHighIsProgrammed : Obligations.BaseHighIsProgrammed := by
  unfold Obligations.BaseHighIsProgrammed
  exact fun s => ⟨rfl, bahValue s.blk.tblBase, bahValue_toNat _, rfl⟩

/-- Settles O25: the value is `lenValue` of the ring's size and the size of a slot. -/
theorem ringLengthIsProgrammed : Obligations.RingLengthIsProgrammed := by
  unfold Obligations.RingLengthIsProgrammed
  exact fun s => ⟨rfl, lenValue s.blk.size s.par.slotSize, lenValue_toNat _ _, rfl⟩

/-- Settles O26: the equation of P_CTLR. -/
theorem controlRegisterIsRead : Obligations.ControlRegisterIsRead := by
  unfold Obligations.ControlRegisterIsRead
  exact fun s => ⟨rfl, exec_pCtlr_eq s⟩

/-- Settles O27: the value is `ctlValue` of CTLTMP and the size class. -/
theorem controlRegisterIsWritten : Obligations.ControlRegisterIsWritten := by
  unfold Obligations.ControlRegisterIsWritten
  exact fun s => ⟨rfl, ctlValue s.blk.ctltmp s.par.bsizeClass, ctlValue_toNat _ _, rfl⟩

/-- Settles O28: the meaning of P_EN, written out. -/
theorem enableCommandIsWritten : Obligations.EnableCommandIsWritten := by
  unfold Obligations.EnableCommandIsWritten
  exact fun s => ⟨rfl, rfl⟩

/-! ### The register sequence -/

/-- Undisturbed, a run begins with the micro-operation that SEQ names. -/
theorem run_of_exec {s t u : State} {i : Instr} {k : Nat} (hquiet : Undisturbed s) (hseq : decodeSeq s.blk.seq = .ok i)
    (hexec : exec i s = .next t) (hrest : Host.Core.run core k t = .next u) : Host.Core.run core (k + 1) s = .next u :=
  (run_succ ((step_undisturbed hquiet hseq).trans hexec) k).trans hrest

/-- The state after P_BAL, P_BAH and P_LEN, which tell the device where the ring is (42_rx_programming R132 to R134). -/
def ringDescribed (s : State) : State :=
  { s with
    blk := { s.blk with seq := seqPCtlr }
    env := { s.env with
      trace := s.env.trace ++
        [.regWrite s.par.offBal (balValue s.blk.tblBase), .regWrite s.par.offBah (bahValue s.blk.tblBase),
          .regWrite s.par.offLen (lenValue s.blk.size s.par.slotSize)] } }

/-- The state after P_CTLR, P_CTLW and P_EN, which set the size class and ask for the enabling (42_rx_programming R135 to R137). -/
def enableRequested (s : State) : State :=
  { s with
    blk := { s.blk with ctltmp := readAnswer s, prog := true, att := 0#32, seq := seqWPoll }
    env := { s.env with
      trace := s.env.trace ++
        [.regRead s.par.offRxctl (readAnswer s), .regWrite s.par.offRxctl (ctlValue (readAnswer s) s.par.bsizeClass),
          .regWrite s.par.offQctl s.par.enCmd] }
    inp := (takeReadAnswer s).inp }

theorem run_ringDescribed {s : State} (hquiet : Undisturbed s) (hseq : s.blk.seq = seqPBal) :
    Host.Core.run core 3 s = .next (ringDescribed s) := by
  refine run_of_exec (i := .pBal) hquiet (by rw [hseq]; rfl) rfl ?_
  refine run_of_exec (i := .pBah) hquiet rfl rfl ?_
  refine run_of_exec (i := .pLen) hquiet rfl rfl ?_
  simp [run_zero, ringDescribed, setSeq, regWrite, record]

theorem run_enableRequested {s : State} (hquiet : Undisturbed s) (hseq : s.blk.seq = seqPCtlr) :
    Host.Core.run core 3 s = .next (enableRequested s) := by
  have hquiet' : (takeReadAnswer s).inp.moves = [] := (takeReadAnswer_moves s).trans hquiet
  refine run_of_exec (i := .pCtlr) hquiet (by rw [hseq]; rfl) (exec_pCtlr_eq s) ?_
  refine run_of_exec (i := .pCtlw) hquiet' rfl rfl ?_
  refine run_of_exec (i := .pEn) hquiet' rfl rfl ?_
  simp [run_zero, enableRequested, setSeq, regWrite, record]

/-- Settles O29: three steps describe the ring and three request the enabling; the words written are the numbers stated. -/
theorem registerSequenceIsInOrder : Obligations.RegisterSequenceIsInOrder := by
  unfold Obligations.RegisterSequenceIsInOrder
  intro s hquiet hseq
  have hrun : Host.Core.run core 6 s = .next (enableRequested (ringDescribed s)) :=
    run_then_run (run_ringDescribed hquiet hseq) (run_enableRequested hquiet rfl)
  exact ⟨_, balValue s.blk.tblBase, bahValue s.blk.tblBase, lenValue s.blk.size s.par.slotSize,
    ctlValue (readAnswer s) s.par.bsizeClass, hrun, rfl, rfl, rfl, List.append_assoc .., lenValue_toNat _ _,
    ctlValue_toNat _ _, bahValue_balValue_toNat _⟩

end Sys2Proof.Machine

/-! PROOFS. The enable acknowledgment wait: the acknowledgment test as a test of one bit, the three micro-operations, and what a run of
them leaves (43_enable_wait R140 to R144). -/

namespace Sys2Proof.Machine

open Safety

/-! ### The acknowledgment test (30_encoding R110) -/

/-- A mask of one bit leaves 0 exactly where that bit reads 0. -/
theorem and_single_bit_eq_zero_iff {mask : Word32} {bit : Nat} (hmask : mask.toNat = 2 ^ bit) (v : Word32) :
    v &&& mask = 0#32 ↔ v.getLsbD bit = false := by
  have hbit : 2 ^ bit < 2 ^ 32 := hmask ▸ mask.isLt
  have htwo : mask = BitVec.twoPow 32 bit := by
    apply BitVec.eq_of_toNat_eq
    rw [hmask, BitVec.toNat_twoPow, Nat.mod_eq_of_lt hbit]
  have hne : BitVec.twoPow 32 bit ≠ 0#32 := fun h => by
    rw [← htwo] at h
    rw [h] at hmask
    exact (Nat.two_pow_pos bit).ne hmask
  rw [htwo, BitVec.and_twoPow]
  cases v.getLsbD bit <;> simp [hne]

theorem acked_eq_false_iff (p : Config.Params) (v : Word32) : acked p v = false ↔ v &&& p.ackMask ≠ 0#32 := by
  rw [← Bool.not_eq_true, acked_iff]

/-! ### The three micro-operations -/

/-- Settles O30: the two equations of W_POLL, with the mask as its bit. -/
theorem enableIsPolled : Obligations.EnableIsPolled := by
  unfold Obligations.EnableIsPolled
  intro s bit hmask hatt
  refine ⟨rfl, ?_⟩
  by_cases hbit : (readAnswer s).getLsbD bit = false
  · rw [if_pos hbit]
    exact exec_wPoll_acked hatt ((acked_iff _ _).mpr ((and_single_bit_eq_zero_iff hmask _).mpr hbit))
  · rw [if_neg hbit]
    exact exec_wPoll_pending hatt ((acked_eq_false_iff _ _).mpr (mt (and_single_bit_eq_zero_iff hmask _).mp hbit))

/-- Settles O31: the equation of W_WAIT, with its two constants written out. -/
theorem intervalPasses : Obligations.IntervalPasses := by
  unfold Obligations.IntervalPasses
  exact fun s => ⟨rfl, exec_wWait_eq s⟩

/-- Settles O32: the meaning of W_TMO, written out. -/
theorem timeoutIsReported : Obligations.TimeoutIsReported := by
  unfold Obligations.TimeoutIsReported
  exact fun s => ⟨rfl, rfl⟩

/-! ### The wait, poll after poll -/

/-- The state after polls that were answered `us`, none acknowledging, each with its interval; `inp` are the inputs left
(43_enable_wait R140, R141). -/
def afterPolls (s : State) (us : List Word32) (inp : Inputs) : State :=
  { s with
    blk := { s.blk with
      att := BitVec.ofNat 32 (s.blk.att.toNat + us.length)
      seq := if s.blk.att.toNat + us.length < Config.maxAttempts then seqWPoll else seqWTmo }
    env := { s.env with
      trace := s.env.trace ++ us.map (fun u => .regRead s.par.offQctl u)
      waited := s.env.waited + us.length }
    inp := inp }

theorem afterPolls_att_toNat {s : State} {us : List Word32} (h : s.blk.att.toNat + us.length ≤ Config.maxAttempts) (inp : Inputs) :
    (afterPolls s us inp).blk.att.toNat = s.blk.att.toNat + us.length :=
  BitVec.toNat_ofNat .. ▸ Nat.mod_eq_of_lt (lt_of_le_of_lt h (by decide))

theorem afterPolls_seq_wPoll {s : State} {us : List Word32} (h : s.blk.att.toNat + us.length < Config.maxAttempts) (inp : Inputs) :
    (afterPolls s us inp).blk.seq = seqWPoll := if_pos h

theorem afterPolls_seq_wTmo {s : State} {us : List Word32} (h : s.blk.att.toNat + us.length = Config.maxAttempts) (inp : Inputs) :
    (afterPolls s us inp).blk.seq = seqWTmo := if_neg h.not_lt

theorem afterPolls_nil {s : State} (hseq : s.blk.seq = seqWPoll) (hatt : s.blk.att.toNat < Config.maxAttempts) :
    afterPolls s [] s.inp = s := by
  simp [afterPolls, hatt, ← hseq]

theorem afterPolls_afterPolls {s : State} {us : List Word32} (h : s.blk.att.toNat + us.length ≤ Config.maxAttempts)
    (vs : List Word32) (inp inp' : Inputs) :
    afterPolls (afterPolls s us inp) vs inp' = afterPolls s (us ++ vs) inp' := by
  rw [afterPolls, afterPolls_att_toNat h]
  simp [afterPolls, Nat.add_assoc]

section
variable {s : State} (hquiet : Undisturbed s) (hseq : s.blk.seq = seqWPoll) (hatt : s.blk.att.toNat < Config.maxAttempts)
include hquiet hseq hatt

/-- A poll that is not acknowledged, and its interval. -/
theorem run_pollPending (hack : acked s.par (readAnswer s) = false) :
    Host.Core.run core 2 s = .next (afterPolls s [readAnswer s] (takeReadAnswer s).inp) := by
  have hin : s.blk.att.toNat + 1 < 2 ^ 32 := lt_of_le_of_lt hatt (by decide)
  have hquiet' : (takeReadAnswer s).inp.moves = [] := (takeReadAnswer_moves s).trans hquiet
  refine run_of_exec (i := .wPoll) hquiet (by rw [hseq]; rfl) (exec_wPoll_pending hin hack) ?_
  refine run_of_exec (i := .wWait) hquiet' rfl (exec_wWait_eq _) ?_
  simp only [BitVec.toNat_ofNat, Nat.mod_eq_of_lt hin]
  rfl

/-- A poll that is acknowledged ends the run. -/
theorem step_pollAcked (hack : acked s.par (readAnswer s) = true) :
    step s = .next { s with
      blk := { s.blk with
        att := BitVec.ofNat 32 (s.blk.att.toNat + 1), fsm := .enabled, result := .ok, busy := false, seq := seqIdle }
      env := { s.env with trace := s.env.trace ++ [.regRead s.par.offQctl (readAnswer s)] }
      inp := (takeReadAnswer s).inp } :=
  (step_undisturbed hquiet (by rw [hseq]; rfl)).trans (exec_wPoll_acked (lt_of_le_of_lt hatt (by decide)) hack)

/-- Answers that do not acknowledge are read one after the other, each in two steps, up to the 1000th poll. -/
theorem run_afterPolls {us more : List Word32} (hanswers : s.inp.readAnswers = us ++ more)
    (hlen : s.blk.att.toNat + us.length ≤ Config.maxAttempts) (hpending : ∀ u ∈ us, u &&& s.par.ackMask ≠ 0#32) :
    Host.Core.run core (2 * us.length) s = .next (afterPolls s us { s.inp with readAnswers := more }) := by
  induction us using List.reverseRecOn generalizing more with
  | nil =>
    rw [List.nil_append] at hanswers
    rw [← hanswers]
    exact congrArg _ (afterPolls_nil hseq hatt).symm
  | append_singleton us u ih =>
    rw [List.length_append, List.length_singleton] at hlen ⊢
    have hlt : s.blk.att.toNat + us.length < Config.maxAttempts := hlen
    have hrun := ih (more := u :: more) (by simp [hanswers]) hlt.le fun v hv => hpending v (by simp [hv])
    have hround := run_pollPending (s := afterPolls s us { s.inp with readAnswers := u :: more }) hquiet
      (afterPolls_seq_wPoll hlt _) (by rwa [afterPolls_att_toNat hlt.le])
      ((acked_eq_false_iff _ _).mpr (hpending u (by simp)))
    rw [afterPolls_afterPolls hlt.le] at hround
    exact run_then_run hrun hround

end

/-- After the 1000th poll, the record and the error exit. -/
theorem step_timeout {s : State} (hquiet : Undisturbed s) (hseq : s.blk.seq = seqWTmo) :
    step s = .next (finish .timedOut (emit .enableTimeout s)) :=
  (step_undisturbed (i := .wTmo) hquiet (by rw [hseq]; rfl)).trans rfl

/-- Settles O33: `run_afterPolls` up to the acknowledging answer, and one poll more. -/
theorem waitEndsAtTheAcknowledgment : Obligations.WaitEndsAtTheAcknowledgment := by
  unfold Obligations.WaitEndsAtTheAcknowledgment
  intro s before v more hquiet hseq hatt hanswers hpending hack hlen
  have hzero : s.blk.att.toNat = 0 := by rw [hatt]; rfl
  have hlt : s.blk.att.toNat + before.length < Config.maxAttempts := by rw [hzero, Nat.zero_add]; exact hlen
  have hrun := run_afterPolls hquiet hseq (by rw [hzero]; decide) hanswers hlt.le hpending
  have hlast := step_pollAcked (s := afterPolls s before { s.inp with readAnswers := v :: more }) hquiet
    (afterPolls_seq_wPoll hlt _) (by rwa [afterPolls_att_toNat hlt.le]) ((acked_iff _ _).mpr hack)
  refine ⟨_, run_then_step hrun hlast, ?_, ?_, rfl⟩
  · rw [afterPolls_att_toNat hlt.le, hzero, Nat.zero_add]
    rfl
  · simp [afterPolls, readAnswer]

/-- Settles O34: `run_afterPolls` for all 1000 answers, and the timeout. -/
theorem waitTimesOutAfterAThousandPolls : Obligations.WaitTimesOutAfterAThousandPolls := by
  unfold Obligations.WaitTimesOutAfterAThousandPolls
  intro s answers more hquiet hseq hatt hanswers hlen hpending
  have hzero : s.blk.att.toNat = 0 := by rw [hatt]; rfl
  have hfull : s.blk.att.toNat + answers.length = Config.maxAttempts := by rw [hzero, Nat.zero_add]; exact hlen
  have hrun := run_afterPolls hquiet hseq (by rw [hzero]; decide) hanswers hfull.le hpending
  have hlast := step_timeout (s := afterPolls s answers { s.inp with readAnswers := more }) hquiet (afterPolls_seq_wTmo hfull _)
  rw [hlen] at hrun
  refine ⟨_, run_then_step hrun hlast, ?_, ?_, rfl⟩
  · simp [afterPolls, hzero, hlen]
  · simp [afterPolls, hlen]

/-- From a poll, or from the timeout at 1000 polls, the run ends: a poll acknowledges or uses up one of those that are left. -/
theorem wait_ends (left : Nat) {s : State} (hquiet : Undisturbed s)
    (hseq : s.blk.seq = if s.blk.att.toNat < Config.maxAttempts then seqWPoll else seqWTmo)
    (hleft : s.blk.att.toNat + left = Config.maxAttempts) :
    ∃ k t, k ≤ 2 * left + 1 ∧ Host.Core.run core k s = .next t ∧ t.blk.busy = false ∧ t.blk.seq = seqIdle ∧
      ((t.blk.result = .ok ∧ t.blk.fsm = .enabled) ∨
        (t.blk.result = .timedOut ∧ t.blk.fsm = s.blk.fsm ∧ t.blk.att.toNat = Config.maxAttempts)) := by
  induction left generalizing s with
  | zero =>
    rw [if_neg (show ¬ s.blk.att.toNat < Config.maxAttempts from hleft.not_lt)] at hseq
    exact ⟨1, _, le_rfl, run_one (step_timeout hquiet hseq), rfl, rfl, .inr ⟨rfl, rfl, hleft⟩⟩
  | succ left ih =>
    have hatt : s.blk.att.toNat < Config.maxAttempts := by omega
    rw [if_pos hatt] at hseq
    cases hack : acked s.par (readAnswer s) with
    | true => exact ⟨1, _, by omega, run_one (step_pollAcked hquiet hseq hatt hack), rfl, rfl, .inl ⟨rfl, rfl⟩⟩
    | false =>
      have hround := run_pollPending hquiet hseq hatt hack
      have hatt' := afterPolls_att_toNat (s := s) (us := [readAnswer s]) hatt (takeReadAnswer s).inp
      obtain ⟨k, t, hk, hrun, hend⟩ := ih (s := afterPolls s [readAnswer s] (takeReadAnswer s).inp)
        ((takeReadAnswer_moves s).trans hquiet) (by rw [hatt']; rfl) (by rw [hatt', List.length_singleton]; omega)
      exact ⟨2 + k, t, by omega, run_then_run hround hrun, hend⟩

/-- Settles O35: `wait_ends` with the polls that ATT leaves. -/
theorem waitAlwaysEnds : Obligations.WaitAlwaysEnds := by
  unfold Obligations.WaitAlwaysEnds
  intro s hquiet hseq hatt
  exact wait_ends (1000 - s.blk.att.toNat) hquiet (hseq.trans (if_pos hatt).symm) (Nat.add_sub_cancel' hatt.le)

end Sys2Proof.Machine

/-! PROOFS. The transmit path: how INIT ends on a transmit ring, and that such a ring neither reaches the register interface nor is ENABLED
(44_tx_path R145 to R147). -/

namespace Sys2Proof.Safety

open Sys2Proof.Machine

/-- Settles O22: the meaning of T_NOP, written out. -/
theorem transmitInitEnds : Obligations.TransmitInitEnds := by
  unfold Obligations.TransmitInitEnds
  exact fun s => ⟨rfl, rfl⟩

/-! ### What the lifecycle keeps to receive rings -/

/-- In the lifecycle a micro-operation runs in its phase, or the sequencer is idle and the ring at rest. -/
theorem phase_cases {s : State} (h : Phase s) :
    (∃ i, decodeSeq s.blk.seq = .ok i ∧ PhaseAt s i) ∨ (s.blk.seq = seqIdle ∧ Resting s) := by
  cases hd : decodeSeq s.blk.seq with
  | ok i => exact .inl ⟨i, rfl, (phase_iff hd).mp h⟩
  | error r =>
    unfold Phase at h
    rw [hd] at h
    cases r with
    | idle => exact .inr ⟨seq_of_idle hd, h⟩
    | _ => exact h.elim

/-- No micro-operation runs on an ENABLED ring. -/
theorem fsm_ne_enabled_of_phaseAt {s : State} {i : Instr} (h : PhaseAt s i) : s.blk.fsm ≠ .enabled := by
  cases i with
  | new role size | init => exact h.elim
  | bAlloc | bStamp | bEmit | uClear | uFree | uDone =>
    obtain ⟨⟨-, hfsm, -⟩, -⟩ := h
    simp [hfsm]
  | _ =>
    obtain ⟨-, hfsm, -⟩ := h
    simp [hfsm]

/-- Only a receive ring is ENABLED. -/
theorem role_of_enabled {s : State} (h : Phase s) (hfsm : s.blk.fsm = .enabled) : s.blk.role = .receive := by
  obtain ⟨i, -, hphase⟩ | ⟨-, hrest⟩ := phase_cases h
  · exact absurd hfsm (fsm_ne_enabled_of_phaseAt hphase)
  · obtain ⟨-, -, hrole, -⟩ := (resting_iff hfsm).mp hrest
    exact hrole

/-- An instruction whose transaction is on the register interface. -/
def AccessesRegister (i : Instr) : Prop := transactionKind i = some .regRead ∨ transactionKind i = some .regWrite

/-- The micro-operations that access a register run on a receive ring only. -/
theorem role_of_accessesRegister {s : State} {i : Instr} (h : PhaseAt s i) (hi : AccessesRegister i) : s.blk.role = .receive := by
  cases i with
  | pBal | pBah | pLen | pCtlr | pCtlw | pEn | wPoll =>
    obtain ⟨-, -, -, hrole, -⟩ := h
    exact hrole
  | _ => simp [AccessesRegister, transactionKind] at hi

/-! ### The register transactions -/

theorem isRegister_iff (x : Transaction) : isRegister x = true ↔ kindOf x = .regRead ∨ kindOf x = .regWrite := by
  simp [isRegister]

/-- Every other instruction leaves the register transactions as they are. -/
theorem registerTrace_of_exec {i : Instr} {s t : State} (hi : ¬ AccessesRegister i) (h : exec i s = .next t) :
    t.env.trace.filter isRegister = s.env.trace.filter isRegister := by
  have hgrows := exec_traceGrowsBy h
  unfold AccessesRegister at hi
  cases hk : transactionKind i with
  | none =>
    rw [hk] at hgrows
    exact congrArg _ hgrows
  | some kind =>
    rw [hk] at hgrows hi
    obtain ⟨x, htrace, rfl⟩ := hgrows
    have hx : ¬ isRegister x = true := by simpa [isRegister_iff] using hi
    simp [htrace, hx]

/-- In the lifecycle the controller of a transmit ring accesses no register, a command accesses none, and the other moves make no
transaction. -/
theorem registerTrace_of_transmit {s t : State} (hp : Phase s) (hrole : s.blk.role = .transmit) (hstep : step s = .next t) :
    t.env.trace.filter isRegister = s.env.trace.filter isRegister := by
  obtain ⟨ms, ⟨i, hi, hexec, -⟩ | ⟨-, rfl, -⟩ | ⟨-, -, w, -, ⟨i, hw, hexec⟩ | ⟨-, rfl⟩⟩ | ⟨-, rfl⟩ | ⟨-, a, b, -, rfl⟩⟩ :=
    step_cases hstep
  · refine registerTrace_of_exec (s := withMoves ms s) (fun haccess => ?_) hexec
    simp [role_of_accessesRegister ((phase_iff hi).mp hp) haccess] at hrole
  · rfl
  · refine registerTrace_of_exec (s := withMoves ms s) ?_ hexec
    obtain rfl | rfl := decodeCommand_cases hw <;> simp [AccessesRegister, transactionKind]
  · rfl
  · rfl
  · simp

/-- The one transition of FSM to ENABLED is made by a receive ring. -/
theorem fsm_ne_enabled_of_transmit {s t : State} (hp : Phase s) (hrole : s.blk.role = .transmit) (hstep : step s = .next t) :
    s.blk.fsm ≠ .enabled ∧ t.blk.fsm ≠ .enabled := by
  have hbefore : s.blk.fsm ≠ .enabled := fun hfsm => by simp [role_of_enabled hp hfsm] at hrole
  refine ⟨hbefore, ?_⟩
  obtain h | ⟨-, h, -⟩ | ⟨-, h, -⟩ | ⟨-, -, -, hreceive, -⟩ | ⟨h, -⟩ := fsmTransitionsAreFour s t hp hstep
  · rwa [h]
  · simp [h]
  · simp [h]
  · simp [hreceive] at hrole
  · simp [h]

/-- Settles O58: `registerTrace_of_transmit` for the transactions, `fsm_ne_enabled_of_transmit` for FSM. -/
theorem transmitRingTouchesNoRegister : Obligations.TransmitRingTouchesNoRegister := by
  unfold Obligations.TransmitRingTouchesNoRegister
  intro s t hp hrole hstep
  exact ⟨registerTrace_of_transmit hp hrole hstep, fsm_ne_enabled_of_transmit hp hrole hstep⟩

end Sys2Proof.Safety

/-! PROOFS. The unwind: the two steps that undo one slot as a function of the state, and what INIT leaves when the allocator grants some
pages and then none (41_binding R121, R127 to R130; 60_exceptions R152). -/

namespace Sys2Proof.Safety

open Sys2Proof.Machine

/-! ### The refused page -/

/-- The state after B_ALLOC, when it is answered with no page (41_binding R122). -/
def pageRefused (s : State) : State :=
  { s with
    blk := { s.blk with seq := if s.blk.idx = 0#32 then seqUDone else seqUClear }
    env := { s.env with trace := s.env.trace ++ [.alloc Config.pageSize Config.bufAlign .both none] }
    inp := (takeAllocAnswer s).inp }

/-- Undisturbed, a page that is not granted turns the run to the unwind. -/
theorem step_pageRefused {s : State} (hquiet : Undisturbed s) (hseq : s.blk.seq = seqBAlloc) (hnone : allocAnswer s = none) :
    step s = .next (pageRefused s) :=
  (step_undisturbed hquiet (by rw [hseq]; rfl)).trans (exec_bAlloc_none hnone)

/-! ### One slot -/

/-- The state after U_CLEAR steps back to slot `n` (41_binding R128). -/
def fieldCleared (s : State) (n : Nat) : State :=
  setSeq seqUFree (memWrite (slotAddr s n) 0#64 { s with blk := { s.blk with idx := BitVec.ofNat 32 n } })

/-- The state after the two steps that undo slot `n`, the last one bound, whose buffer is `a` (41_binding R128, R129). -/
def unbindSlot (s : State) (n : Nat) (a : Addr) : State :=
  { s with
    blk := { s.blk with
      idx := BitVec.ofNat 32 n
      buf := sparseErase s.blk.buf n (n + 1)
      seq := if n = 0 then seqUDone else seqUClear }
    env := { s.env with
      mem := s.env.mem.write64 (slotAddr s n) 0#64
      live := s.env.live.filter (fun x => decide (x.base ≠ a))
      trace := s.env.trace ++ [.memWrite (slotAddr s n) 0#64] ++ [.release a] } }

theorem bufGet_unbindSlot (s : State) (n : Nat) (a : Addr) (i : Nat) :
    bufGet (unbindSlot s n a) i = if i = n then none else bufGet s i := by
  simp only [bufGet, unbindSlot, sparseGet_erase]
  exact if_congr (by omega) rfl rfl

/-- After U_CLEAR, IDX is the number of the slot. -/
theorem fieldCleared_idx {n : Nat} (hn : n < 2 ^ 32) (s : State) : (fieldCleared s n).blk.idx.toNat = n :=
  (BitVec.toNat_ofNat ..).trans (Nat.mod_eq_of_lt hn)

/-- With IDX at `n`, U_FREE completes what U_CLEAR began. -/
theorem exec_uFree_fieldCleared {s : State} {n : Nat} {a : Addr} (hn : n < 2 ^ 32) (ha : bufGet s n = some a) :
    exec .uFree (fieldCleared s n) = .next (unbindSlot s n a) := by
  have hidx := fieldCleared_idx hn s
  have hfree := exec_uFree_some (s := fieldCleared s n) (a := a) (by rw [hidx]; exact ha)
  simp only [idx_eq_zero_iff, hidx] at hfree
  exact hfree

/-- Undisturbed, two steps undo the last slot bound. -/
theorem run_unbindSlot {s : State} {n : Nat} {a : Addr} (hquiet : Undisturbed s) (hseq : s.blk.seq = seqUClear)
    (hidx : s.blk.idx.toNat = n + 1) (ha : bufGet s n = some a) (hfits : addrFits (slotAddr s n)) :
    Host.Core.run core 2 s = .next (unbindSlot s n a) := by
  have hquiet₁ : Undisturbed (fieldCleared s n) := hquiet
  have hback : s.blk.idx.toNat - 1 = n := by omega
  have hexec := exec_uClear_some (s := s) (by omega) (hback ▸ hfits)
  rw [hback] at hexec
  have hclear : step s = .next (fieldCleared s n) := (step_undisturbed hquiet (by rw [hseq]; rfl)).trans hexec
  have hfree : step (fieldCleared s n) = .next (unbindSlot s n a) :=
    (step_undisturbed (i := .uFree) hquiet₁ rfl).trans (exec_uFree_fieldCleared (by omega) ha)
  exact run_then_step (run_one hclear) hfree

/-- Undoing a slot takes no other allocation of the ring away. -/
theorem owned_unbindSlot {s : State} {n : Nat} {a : Addr} (ho : Owned s) (hbinding : Binding s) (hn : n < 2 ^ 32)
    (ha : bufGet s n = some a) : Owned (unbindSlot s n a) := by
  obtain ⟨-, hfsm, hsized, -⟩ := hbinding
  have hidx := fieldCleared_idx hn s
  have ho₁ : Owned (fieldCleared s n) := ho.congr rfl rfl rfl rfl rfl id
  have hfsm₁ : (fieldCleared s n).blk.fsm ≠ .empty := by simp [fieldCleared, hfsm]
  exact owned_after_uFree ho₁ hfsm₁ hsized (by rw [hidx]; exact ha) ⟨rfl, rfl, rfl⟩ (by rw [hidx]; rfl) rfl

/-! ### A run of slots -/

/-- The page of buffer `a`, as the allocator keeps it. -/
def pageOf (a : Addr) : Allocation := ⟨a, Config.pageSize, .both⟩

/-- `t` is the state `s` before its first slot, after `count` slots were bound, the next page was refused, and the unwind left the slots of
`pages` to undo (41_binding R127 to R129). -/
structure SlotsLeft (s : State) (count : Nat) (pages : List Addr) (t : State) : Prop where
  quiet : Undisturbed t
  memory : t.env.mem.wf
  owned : Owned t
  par : t.par = s.par
  idx : t.blk.idx = BitVec.ofNat 32 pages.length
  seq : t.blk.seq = if pages.length = 0 then seqUDone else seqUClear
  /-- The registers that the unwind does not touch. -/
  registers : { t.blk with idx := s.blk.idx, buf := s.blk.buf, seq := s.blk.seq } = s.blk
  buf : ∀ i, bufGet t i = pages[i]?
  /-- The address fields of the slots undone. -/
  cleared : ∀ i, pages.length ≤ i → i < count → FieldReads t i 0#64
  live : t.env.live = s.env.live ++ pages.map pageOf
  /-- The records of the slots undone stay. -/
  events : t.env.events = s.env.events ++ (List.range count).map (fun i => .slotBound (BitVec.ofNat 32 i) s.blk.role)
  /-- Neither binding nor the unwind makes an access to a register of the device. -/
  noRegister : t.env.trace.filter isRegister = s.env.trace.filter isRegister

/-- When the next page is refused, every bound slot is left to undo. -/
theorem SlotsBound.refused {s t : State} {pages : List Addr} (h : SlotsBound s pages t)
    (hroom : pages.length < s.blk.size.toNat) : SlotsLeft s pages.length pages (pageRefused t) where
  quiet := (takeAllocAnswer_moves t).trans h.quiet
  memory := h.canonical.1
  owned := h.owned.congr rfl rfl rfl rfl rfl id
  par := h.par
  idx := h.idx
  seq := by simp only [pageRefused, idx_eq_zero_iff, h.idx_toNat hroom]
  registers := by
    simp only [pageRefused]
    rw [h.fsm_kept hroom]
    exact h.registers
  buf := h.buf
  cleared i hle hlt := absurd hlt (Nat.not_lt.mpr hle)
  live := h.live
  events := h.events
  noRegister := by simp [pageRefused, h.noRegister, isRegister, kindOf]

/-- All but the last page meet what all pages meet. -/
theorem PagesMeet.init {s : State} {pages : List Addr} {a : Addr} (h : PagesMeet s (pages ++ [a])) : PagesMeet s pages := by
  obtain ⟨hmeets, hapart⟩ := h
  exact ⟨fun b hb => hmeets b (List.mem_append_left _ hb), (List.pairwise_append.mp hapart).1⟩

/-- A page that meets 20_memory R85 shares its base with no allocation that was live before, none of them empty, and with no other page. -/
theorem PagesMeet.base_ne {s : State} {pages : List Addr} {a : Addr} (h : PagesMeet s (pages ++ [a]))
    (hlen : ∀ x ∈ s.env.live, 0 < x.len) : ∀ x ∈ s.env.live ++ pages.map pageOf, x.base ≠ a := by
  obtain ⟨hmeets, hapart⟩ := h
  obtain ⟨-, -, hlast⟩ := List.pairwise_append.mp hapart
  intro x hx
  rw [List.mem_append, List.mem_map] at hx
  obtain hx | ⟨b, hb, rfl⟩ := hx
  · obtain ⟨-, -, -, hlive⟩ := hmeets a (by simp)
    exact ((hlive x hx).base_ne (by decide) (hlen x hx)).symm
  · exact (hlast b hb a (by simp)).base_ne (by decide) (by decide)

section
variable {s t : State} {count : Nat} {pages : List Addr} (h : SlotsLeft s count pages t)
include h

theorem SlotsLeft.blk_eq : t.blk = { s.blk with idx := t.blk.idx, buf := t.blk.buf, seq := t.blk.seq } := by
  rw [← h.registers]

/-- All through the unwind INIT is in its middle. -/
theorem SlotsLeft.binding (hbinding : Binding s) : Binding t := by
  unfold Binding Running Sized at *
  rw [← h.registers] at hbinding
  rwa [h.par]

end

section
variable {s t : State} {count : Nat} {pages : List Addr} {a : Addr} (h : SlotsLeft s count (pages ++ [a]) t)
include h

/-- The last slot left holds the last page. -/
theorem SlotsLeft.buf_last : bufGet t pages.length = some a := by simp [h.buf]

theorem SlotsLeft.lt_size (hroom : (pages ++ [a]).length < s.blk.size.toNat) : pages.length < t.blk.size.toNat := by
  rw [h.blk_eq]
  rw [List.length_append, List.length_singleton] at hroom
  exact Nat.lt_of_succ_lt hroom

theorem SlotsLeft.tableOwned (hbinding : Binding s) : TableOwned t := by
  obtain ⟨-, hfsm, -⟩ := h.binding hbinding
  exact h.owned.table (by simp [hfsm])

variable (hbinding : Binding s) (hroom : (pages ++ [a]).length < s.blk.size.toNat)
include hbinding hroom

theorem SlotsLeft.run_unbindSlot : Host.Core.run core 2 t = .next (unbindSlot t pages.length a) := by
  refine Safety.run_unbindSlot h.quiet (by simp [h.seq]) ?_ h.buf_last ((h.tableOwned hbinding).fits (h.lt_size hroom))
  rw [h.idx, BitVec.toNat_ofNat, Nat.mod_eq_of_lt (hroom.trans s.blk.size.isLt), List.length_append, List.length_singleton]

/-- Undoing the last slot left leaves the slots before it. -/
theorem SlotsLeft.unbind (hfresh : ∀ x ∈ s.env.live ++ pages.map pageOf, x.base ≠ a) :
    SlotsLeft s count pages (unbindSlot t pages.length a) := by
  have hfits := (h.tableOwned hbinding).fits (h.lt_size hroom)
  obtain ⟨hfield, hothers, -⟩ :=
    write_slot (t := unbindSlot t pages.length a) (v := 0#64) h.memory (h.tableOwned hbinding) h.owned (h.lt_size hroom) rfl rfl rfl
  exact {
    quiet := h.quiet
    memory := Memory.wf_write64 h.memory hfits _
    owned := owned_unbindSlot h.owned (h.binding hbinding) ((h.lt_size hroom).trans t.blk.size.isLt) h.buf_last
    par := h.par
    idx := rfl
    seq := rfl
    registers := h.registers
    buf := fun i => by
      rw [bufGet_unbindSlot, h.buf, getElem?_concat]
      split
      case isTrue hi => simp [hi]
      case isFalse => rfl
    cleared := fun i hle hi => by
      by_cases hin : i = pages.length
      · rw [hin]
        exact hfield
      · exact (hothers i _ hin).mpr (h.cleared i (by simp; omega) hi)
    live := by
      have hkept := List.filter_eq_self.mpr fun x hx => decide_eq_true (hfresh x hx)
      simp only [unbindSlot, h.live, List.map_append, ← List.append_assoc]
      rw [List.filter_append, hkept]
      simp [pageOf]
    events := h.events
    noRegister := by simp [unbindSlot, h.noRegister, isRegister, kindOf] }

end

/-- Undisturbed, two steps undo each slot left, the last one first. -/
theorem SlotsLeft.exists_unwound {s t : State} {count : Nat} {pages : List Addr} (h : SlotsLeft s count pages t)
    (hbinding : Binding s) (hroom : pages.length < s.blk.size.toNat) (hpages : PagesMeet s pages)
    (hlen : ∀ x ∈ s.env.live, 0 < x.len) :
    ∃ u : State, Host.Core.run core (2 * pages.length) t = .next u ∧ SlotsLeft s count [] u := by
  induction pages using List.reverseRecOn generalizing t with
  | nil => exact ⟨t, rfl, h⟩
  | append_singleton pages a ih =>
    obtain ⟨u, hrun, hnone⟩ := ih (h.unbind hbinding hroom (hpages.base_ne hlen)) (by simp at hroom; omega) hpages.init
    refine ⟨u, ?_, hnone⟩
    rw [List.length_append, List.length_singleton, Nat.mul_succ, Nat.add_comm]
    exact run_then_run (h.run_unbindSlot hbinding hroom) hrun

/-- Settles O37: the slots of the granted pages are bound, the refused page turns the run, each slot is undone, and U_DONE ends it. -/
theorem failedBindingIsUndone : Obligations.FailedBindingIsUndone := by
  unfold Obligations.FailedBindingIsUndone
  intro s pages more hquiet hcanon hp ho hseq hidx hroom hanswers hmeets hapart hlen
  have hfirst : AtFirstSlot s := ⟨hquiet, hcanon, hp, ho, hseq, hidx⟩
  obtain ⟨hbinding, -⟩ := hfirst.phaseAt
  obtain ⟨t, hbind, hanswer, hbound⟩ := exists_slotsBound hfirst hroom.le ⟨hmeets, hapart⟩ hanswers
  have hrefuse : step t = .next (pageRefused t) :=
    step_pageRefused hbound.quiet (hbound.seq.trans (if_pos hroom)) (by simp [allocAnswer, hanswer])
  obtain ⟨u, hunwind, h⟩ := (hbound.refused hroom).exists_unwound hbinding hroom ⟨hmeets, hapart⟩ hlen
  have hdone : step u = .next (finish .noMemory u) := step_undisturbed (i := .uDone) h.quiet (by rw [h.seq]; rfl)
  refine ⟨finish .noMemory u, run_then_step (run_then_run (run_then_step hbind hrefuse) hunwind) hdone, ?_, h.buf,
    fun i => h.cleared i (Nat.zero_le i), h.events, fun x => ?_, h.noRegister⟩
  · have hblk := h.blk_eq
    rw [h.idx, List.length_nil, ← hidx] at hblk
    exact congrArg (fun b => { b with result := .noMemory, busy := false, seq := seqIdle }) hblk
  · rw [finish_env, h.live, List.map_nil, List.append_nil]

end Sys2Proof.Safety

/-! PROOFS. Reset, from any state and as the start state, with the invariants there (70_reset R169 to R171, 10_state R67). -/

namespace Sys2Proof.Machine

theorem bufGet_of_blockReset {s : State} (h : s.blk = Block.reset) (i : Nat) : bufGet s i = none := by
  rw [bufGet, h]
  rfl

/-- Settles O38: the step is the reset move, which replaces the block by `Block.reset`. -/
theorem resetRestoresTheBlock : Obligations.ResetRestoresTheBlock := by
  unfold Obligations.ResetRestoresTheBlock
  intro s rest hm
  exact ⟨_, step_of_reset hm, rfl, rfl, rfl, rfl, rfl, rfl, bufGet_of_blockReset rfl⟩

/-- Settles O39: the block is `Block.reset`; no other agent moves there, and the controller is idle. -/
theorem startStateIsReset : Obligations.StartStateIsReset := by
  unfold Obligations.StartStateIsReset
  exact ⟨rfl, rfl, rfl, bufGet_of_blockReset rfl, (step_of_nil rfl).trans (controllerMove_of_idle rfl)⟩

end Sys2Proof.Machine

namespace Sys2Proof.Safety

open Sys2Proof.Machine

theorem holdsExactly_of_blockReset {s : State} (h : s.blk = Block.reset) : HoldsExactly s 0 := by
  simp [HoldsExactly, bufGet_of_blockReset h]

/-- Settles O52: memory and BUF list nothing, SEQ is IDLE, ATT is 0, and there is no ring whose table or buffers could be owned. -/
theorem startStateMeetsInvariants : Obligations.StartStateMeetsInvariants := by
  unfold Obligations.StartStateMeetsInvariants
  have hempty : State.reset.blk.fsm = .empty := rfl
  obtain ⟨hbusy, -⟩ := busyMeansSequencing
  exact ⟨⟨by decide, List.Pairwise.nil⟩, hbusy, ⟨by decide, by decide⟩, phase_after_reset State.reset,
    owned_of_no_buffer (holdsExactly_of_blockReset rfl) (absurd hempty), (absurd hempty)⟩

end Sys2Proof.Safety

/-! PROOFS. The end of a run: what its last step leaves, and that every undisturbed run gets there, by a count of the steps left that each
micro-operation lowers (70_reset R176, R189; 43_enable_wait R144; 95_test_vectors part 10). -/

namespace Sys2Proof.Safety

open Sys2Proof.Machine

/-! ### The last step -/

/-- The micro-operations that can idle the sequencer are five, and where they do they leave a RESULT. -/
theorem result_of_idled {s : State} {i : Instr} (hi : decodeSeq s.blk.seq = .ok i) (h : (blkAfter s i).seq = seqIdle) :
    (blkAfter s i).result ≠ .none ∧ i ∈ [Instr.nAlloc, .uDone, .tNop, .wPoll, .wTmo] := by
  cases i with
  | new role size | init => cases seq_of_decodeSeq hi
  | nAlloc => simp only [blkAfter]; cases allocAnswer s <;> simp
  | uDone | tNop | wTmo => simp [blkAfter]
  | wPoll =>
    simp only [blkAfter] at h ⊢
    split at h
    case isTrue hack => simp [hack]
    case isFalse => simp at h
  | uFree | wWait =>
    simp only [blkAfter] at h
    split at h <;> simp at h
  | bAlloc | bEmit =>
    simp only [blkAfter] at h
    split at h
    · simp at h
    · split at h <;> simp at h
  | _ => simp [blkAfter] at h

/-- A step other than a reset that clears BUSY is the last step of the micro-operation that SEQ names. -/
theorem run_ended {s t : State} (hreset : resetNext s = false) (hbusy : s.blk.busy = true) (hstep : step s = .next t)
    (hdone : t.blk.busy = false) :
    t.blk.seq = seqIdle ∧ t.blk.result ≠ .none ∧
      ∃ i ∈ [Instr.nAlloc, .uDone, .tNop, .wPoll, .wTmo], decodeSeq s.blk.seq = .ok i := by
  obtain ⟨-, hblk⟩ := step_par_blockStep hstep
  cases hblk with
  | micro i hi hblk =>
    rw [hblk] at hdone ⊢
    have hidle : (blkAfter s i).seq = seqIdle := by
      by_contra hne
      simp [(blkAfter_busy_iff hi).mpr ⟨hbusy, hne⟩] at hdone
    obtain ⟨hresult, hlast⟩ := result_of_idled hi hidle
    exact ⟨hidle, hresult, i, hlast, hi⟩
  | stays hblk => simp [hblk, hbusy] at hdone
  | refused hready | new _ _ hready | init hready => simp [hready] at hbusy
  | reset hnext => simp [hnext] at hreset

/-- Settles O59: `run_ended`, with SEQ as its number. -/
theorem runsEndWithAResult : Obligations.RunsEndWithAResult := by
  unfold Obligations.RunsEndWithAResult
  intro s t _ hreset hbusy hstep hdone
  obtain ⟨hidle, hresult, hlast⟩ := run_ended hreset hbusy hstep hdone
  exact ⟨congrArg BitVec.toNat hidle, hresult, hlast⟩

/-! ### The steps left -/

/-- The most steps a run of INIT can take (95_test_vectors part 10): every slot bound, the six register accesses and a wait that times out;
or every slot but the last bound, the last page refused, and the unwind. -/
def runBound (size : Nat) : Nat := max (3 * size + 2007) (5 * size - 3)

/-- A bound on the steps left of a run whose next micro-operation is the one given. The commands are not in a run. -/
def stepsLeft (b : Block) : Instr → Nat
  | .bAlloc => runBound b.size.toNat - 3 * b.idx.toNat
  | .bStamp => runBound b.size.toNat - 3 * b.idx.toNat - 1
  | .bEmit => runBound b.size.toNat - 3 * b.idx.toNat - 2
  | .uClear => 2 * b.idx.toNat + 1
  | .uFree => 2 * b.idx.toNat + 2
  | .pBal => 2007
  | .pBah => 2006
  | .pLen => 2005
  | .pCtlr => 2004
  | .pCtlw => 2003
  | .pEn => 2002
  | .wPoll => 2 * (1000 - b.att.toNat) + 1
  | .wWait => 2 * (1000 - b.att.toNat) + 2
  | .nAlloc | .uDone | .tNop | .wTmo | .new _ _ | .init => 1

/-- From no phase are more steps left than from the first B_ALLOC. -/
theorem stepsLeft_le_runBound {s : State} {i : Instr} (h : PhaseAt s i) : stepsLeft s.blk i ≤ runBound s.blk.size.toNat := by
  cases i with
  | uClear =>
    obtain ⟨-, -, hlt, -⟩ := h
    simp only [stepsLeft, runBound]
    omega
  | uFree =>
    obtain ⟨-, hlt, -⟩ := h
    simp only [stepsLeft, runBound]
    omega
  | _ =>
    simp only [stepsLeft, runBound]
    omega

/-- In its phase every micro-operation has at least its own step left. -/
theorem stepsLeft_pos {s : State} {i : Instr} (h : PhaseAt s i) : 0 < stepsLeft s.blk i := by
  cases i with
  | bAlloc | bStamp | bEmit =>
    obtain ⟨-, hlt, -⟩ := h
    simp only [stepsLeft, runBound]
    omega
  | _ => simp [stepsLeft]

/-- Where the unwind goes on from IDX, or ends. -/
theorem stepsLeft_of_unwind {b : Block} {j : Instr} (hj : decodeSeq (if b.idx = 0#32 then seqUDone else seqUClear) = .ok j) :
    stepsLeft b j ≤ 2 * b.idx.toNat + 1 := by
  split at hj <;> cases hj <;> simp [stepsLeft]

/-- After a page granted the slot is stamped next, after a page refused the unwind of the slots below IDX is left. -/
theorem stepsLeft_after_bAlloc {s : State} {j : Instr} (h : PhaseAt s .bAlloc) (hj : decodeSeq (blkAfter s .bAlloc).seq = .ok j) :
    stepsLeft (blkAfter s .bAlloc) j < stepsLeft s.blk .bAlloc := by
  obtain ⟨-, hlt, -⟩ := h
  simp only [blkAfter] at hj ⊢
  split at hj
  · cases hj
    simp only [stepsLeft, runBound]
    omega
  · refine lt_of_le_of_lt (stepsLeft_of_unwind hj) ?_
    simp only [stepsLeft, runBound]
    omega

/-- After its last slot the ring has the register sequence or T_NOP before it, after another slot the next B_ALLOC. -/
theorem stepsLeft_after_bEmit {s : State} {j : Instr} (h : PhaseAt s .bEmit) (hj : decodeSeq (blkAfter s .bEmit).seq = .ok j) :
    stepsLeft (blkAfter s .bEmit) j < stepsLeft s.blk .bEmit := by
  obtain ⟨-, hlt, -⟩ := h
  have hsize := s.blk.size.isLt
  have hidx : (countUp s.blk.idx s.inp.drawn).toNat = s.blk.idx.toNat + 1 := countUp_toNat (by omega) _
  simp only [blkAfter] at hj
  split at hj
  · cases hj
    simp only [stepsLeft, blkAfter, hidx, runBound]
    omega
  · have hrest : stepsLeft (blkAfter s .bEmit) j ≤ 2007 := by split at hj <;> cases hj <;> simp [stepsLeft]
    refine lt_of_le_of_lt hrest ?_
    simp only [stepsLeft, runBound]
    omega

/-- Every micro-operation that does not end the run leaves fewer steps. -/
theorem stepsLeft_blkAfter_lt {s : State} {i j : Instr} (hi : decodeSeq s.blk.seq = .ok i) (h : PhaseAt s i)
    (hatt : AttemptsBounded s) (hj : decodeSeq (blkAfter s i).seq = .ok j) : stepsLeft (blkAfter s i) j < stepsLeft s.blk i := by
  cases i with
  | new role size | init => exact h.elim
  | nAlloc =>
    simp only [blkAfter] at hj
    split at hj <;> cases hj
  | uDone | tNop | wTmo => cases hj
  | bAlloc => exact stepsLeft_after_bAlloc h hj
  | bStamp =>
    obtain ⟨-, hlt, -⟩ := h
    cases hj
    simp only [stepsLeft, blkAfter, runBound]
    omega
  | bEmit => exact stepsLeft_after_bEmit h hj
  | uClear =>
    obtain ⟨-, hpos, -⟩ := h
    cases hj
    simp only [stepsLeft, blkAfter, stepBack_toNat hpos]
    omega
  | uFree => exact Nat.lt_succ_of_le (stepsLeft_of_unwind (b := blkAfter s .uFree) hj)
  | wPoll =>
    obtain ⟨-, hpoll⟩ := hatt
    have hlt : s.blk.att.toNat < 1000 := hpoll (Encoded.micro.inj (seq_of_decodeSeq hi)).symm
    have hup : (countUp s.blk.att (takeReadAnswer s).inp.drawn).toNat = s.blk.att.toNat + 1 := countUp_toNat (by omega) _
    simp only [blkAfter] at hj ⊢
    split at hj
    case isTrue => cases hj
    case isFalse hack =>
      cases hj
      simp only [stepsLeft, if_neg hack, hup]
      omega
  | wWait =>
    simp only [blkAfter] at hj
    split at hj <;> cases hj <;> simp [stepsLeft, blkAfter]
  | _ =>
    cases hj
    simp [stepsLeft, blkAfter]

/-! ### An undisturbed run -/

/-- Every address field of the table lies in the bus address space. Unlike `Owned` this holds all through a run whatever the allocator
answers, since only N_ALLOC changes the ring. -/
def SlotsFit (s : State) : Prop := ∀ i, i < s.blk.size.toNat → addrFits (slotAddr s i)

theorem SlotsFit.of_sameRing {s t : State} (h : SlotsFit s) (hring : SameRing s t) : SlotsFit t := by
  intro i hi
  rw [slotAddr_of_sameRing hring]
  obtain ⟨-, -, hsize⟩ := hring
  exact h i (hsize ▸ hi)

/-- `exec_next_of_phaseAt` with only what is kept of the ownership when the allocator breaks 20_memory R85. -/
theorem exec_next_of_slotsFit {s : State} {i : Instr} (h : PhaseAt s i) (hfits : SlotsFit s) : ∃ t, exec i s = .next t := by
  cases i with
  | new role size | init => exact h.elim
  | bStamp =>
    obtain ⟨-, hlt, hbuf⟩ := h
    obtain ⟨a, ha⟩ := hbuf.get (Nat.lt_succ_self _)
    exact ⟨_, exec_bStamp_some ha (hfits _ hlt)⟩
  | uClear =>
    obtain ⟨-, hpos, hlt, -⟩ := h
    exact ⟨_, exec_uClear_some hpos (hfits _ (by omega))⟩
  | uFree =>
    obtain ⟨-, -, hbuf⟩ := h
    obtain ⟨a, ha⟩ := hbuf.get (Nat.lt_succ_self _)
    exact ⟨_, exec_uFree_some ha⟩
  | _ => exact ⟨_, rfl⟩

/-- While BUSY is 1, SEQ names a micro-operation. -/
theorem exists_decodeSeq_of_busy {s : State} (h : Phase s) (hbusy : s.blk.busy = true) : ∃ i, decodeSeq s.blk.seq = .ok i := by
  cases hd : decodeSeq s.blk.seq with
  | ok i => exact ⟨i, rfl⟩
  | error r =>
    unfold Phase at h
    rw [hd] at h
    cases r with
    | idle =>
      obtain ⟨hready, -⟩ := h
      simp [hready] at hbusy
    | _ => exact h.elim

/-- A state in the middle of an undisturbed run, with `i` as its next micro-operation. -/
structure InRun (s : State) (i : Instr) : Prop where
  quiet : Undisturbed s
  seq : decodeSeq s.blk.seq = .ok i
  busy : s.blk.busy = true
  phase : Phase s
  attempts : AttemptsBounded s
  fits : SlotsFit s

/-- A step of the run ends it with a RESULT or leaves fewer steps of it. -/
theorem InRun.next {s : State} {i : Instr} (h : InRun s i) :
    ∃ t, step s = .next t ∧
      (t.blk.busy = false ∧ t.blk.result ≠ .none ∨ ∃ j, InRun t j ∧ stepsLeft t.blk j < stepsLeft s.blk i) := by
  have hphase := (phase_iff h.seq).mp h.phase
  obtain ⟨t, hexec⟩ := exec_next_of_slotsFit hphase h.fits
  have hstep : step s = .next t := (step_undisturbed h.quiet h.seq).trans hexec
  refine ⟨t, hstep, ?_⟩
  cases hbusy : t.blk.busy with
  | false =>
    obtain ⟨-, hresult, -⟩ := run_ended (by simp [resetNext, show s.inp.moves = [] from h.quiet]) h.busy hstep hbusy
    exact .inl ⟨rfl, hresult⟩
  | true =>
    have hphase' := stepKeepsLifecycle s t h.phase hstep
    obtain ⟨j, hj⟩ := exists_decodeSeq_of_busy hphase' hbusy
    obtain ⟨-, hblk⟩ := exec_par_blk hexec
    have hne : i ≠ .nAlloc := by
      rintro rfl
      obtain ⟨-, hidle⟩ := (blkAfter_busy_iff h.seq).mp (hblk ▸ hbusy)
      simp only [blkAfter] at hidle
      split at hidle <;> exact hidle rfl
    refine .inr ⟨j, ?_, hblk ▸ stepsLeft_blkAfter_lt h.seq hphase h.attempts (hblk ▸ hj)⟩
    exact {
      quiet := (exec_moves hexec).trans h.quiet
      seq := hj
      busy := hbusy
      phase := hphase'
      attempts := attemptsStayBounded s t h.attempts hstep
      fits := h.fits.of_sameRing (exec_sameRing hexec hne) }

/-- An undisturbed run ends, with a RESULT, within the steps left. -/
theorem InRun.ends {s : State} {i : Instr} {n : Nat} (h : InRun s i) (hn : stepsLeft s.blk i ≤ n) :
    ∃ k t, k ≤ n ∧ Host.Core.run core k s = .next t ∧ t.blk.busy = false ∧ t.blk.result ≠ .none := by
  induction n using Nat.strong_induction_on generalizing s i with
  | _ n ih =>
    obtain ⟨t, hstep, hdone | ⟨j, hrun, hlt⟩⟩ := h.next
    · exact ⟨1, t, (stepsLeft_pos ((phase_iff h.seq).mp h.phase)).trans_le hn, run_one hstep, hdone⟩
    · obtain ⟨k, u, hk, hku, hdone⟩ := ih _ (lt_of_lt_of_le hlt hn) hrun le_rfl
      exact ⟨k + 1, u, by omega, (run_succ hstep k).trans hku, hdone⟩

/-- Before a run's next micro-operation the table lies in the address space: it is owned, or there is none. -/
theorem slotsFit_of_phase {s : State} {i : Instr} (h : PhaseAt s i) (ho : Owned s) : SlotsFit s := by
  intro j hj
  by_cases hi : i = .nAlloc
  · subst hi
    obtain ⟨-, -, ⟨-, hsize, -⟩, -⟩ := h
    simp [hsize] at hj
  · exact (ho.table (fsm_ne_empty_of_phaseAt h hi)).fits hj

/-- Settles O60: the steps left are at most `runBound`, and 1 at N_ALLOC, the only micro-operation while FSM is EMPTY. -/
theorem everyRunEnds : Obligations.EveryRunEnds := by
  unfold Obligations.EveryRunEnds
  intro s hp ho hatt hquiet hbusy
  obtain ⟨i, hi⟩ := exists_decodeSeq_of_busy hp hbusy
  have hphase := (phase_iff hi).mp hp
  have hrun : InRun s i := ⟨hquiet, hi, hbusy, hp, hatt, slotsFit_of_phase hphase ho⟩
  obtain ⟨k, t, hk, hkt, hdone, hresult⟩ := hrun.ends le_rfl
  refine ⟨k, t, hk.trans (stepsLeft_le_runBound hphase), fun hempty => ?_, hkt, hdone, hresult⟩
  obtain rfl : i = .nAlloc := by_contra fun hne => fsm_ne_empty_of_phaseAt hphase hne hempty
  have hpos : k ≠ 0 := by
    rintro rfl
    cases hkt
    simp [hbusy] at hdone
  exact Nat.le_antisymm hk (Nat.one_le_iff_ne_zero.mpr hpos)

end Sys2Proof.Safety
